-- ==== Sys2Proof/Word.lean ====
section
/-! DEFINITION. The bit-vector and byte-string types of the QRL-XMSS core (spec/00_scope.md R8, R10). -/

namespace Sys2Proof

/-- One byte of a byte string (R10). -/
abbrev Byte := BitVec 8

/-- One 32-bit register (R8, "register width 32 bits"). -/
abbrev Word := BitVec 32

/-- One lane of the Keccak state (R50). -/
abbrev Lane := BitVec 64

/-- A byte string: a finite sequence of bytes, byte 0 first (R10). -/
abbrev Bytes := List Byte

/-- The Keccak state: lane x + 5y at index x + 5y (R50, R200). -/
abbrev Lanes := Vector Lane 25

/-- A hash address: eight 32-bit words (R34, R251). -/
abbrev Adrs := Vector Word 8

/-- The eight argument registers (R32). -/
abbrev Args := Vector Word 8

end Sys2Proof
end

