-- ==== Sys2Proof/Syntax.lean ====
section
/-! DEFINITION. The commands of the core: one constructor per row of spec/opcode_table.json (spec/30_encoding.md R146), and
the three fields of a command word (R140). A command word holds no operands (R140): they stand in registers (R143), so a
constructor has no arguments, but for SPONGE_INIT, whose RATE_SEL bit is the only immediate (R144). -/

namespace Sys2Proof

/-- The RATE_SEL immediate (R144): bit 0 selects rate 168, bit 1 selects rate 136. -/
inductive RateSel where
  | rate168
  | rate136
  deriving DecidableEq, Repr

/-- The three fields of a command word, as R140 lays them out. -/
structure CmdFields where
  rsvd   : BitVec 20
  flags  : BitVec 4
  opcode : BitVec 8
  deriving DecidableEq, Repr

/-- The 42 commands of R146, in the order of the opcode table. -/
inductive Instr where
  | nop
  | keyClear
  | keccakF
  | spongeInit (sel : RateSel)
  | spongeAbsorb
  | spongeSqueeze
  | shake128
  | shake256
  | sha256
  | coreHash
  | prf
  | hashF
  | hashH
  | hMsg
  | wotsExpandSeed
  | wotsGenChain
  | wotsBaseW
  | wotsDigits
  | wotsPkgen
  | wotsSign
  | wotsPkFromSig
  | otsSeed
  | lTree
  | genLeaf
  | treehash
  | authpath
  | rootFromAuth
  | bdsSetup
  | bdsRound
  | treehashUpdate
  | bdsTreehashUpdate
  | bdsExport
  | keygen
  | keygenXseed
  | getPk
  | getSk
  | getXseed
  | setIndex
  | sign
  | verify
  | sigSize
  | heightFromSigSize
  deriving DecidableEq, Repr

end Sys2Proof
end

