-- ==== Sys2Proof/WellFormed.lean ====
section
/-! DEFINITION. When a command word is legal (spec/30_encoding.md R141): its opcode is defined, its reserved bits are zero
and its FLAGS bits are ones its command allows. A term of Instr cannot be ill-formed (its one operand is a closed type), so
the checks are on the fields of a word. This file restates R141 and R147 on its own: Decode.lean does not call it, and a
statement says that the two agree. -/

namespace Sys2Proof

/-- Check 1 of R141: OPCODE is one of the 42 values of R146. The ranges are the complement of R147's list of reserved
opcodes. -/
def CmdFields.opcodeDefined (f : CmdFields) : Bool :=
  let op := f.opcode.toNat
  op ≤ 0x01 ||
  (0x10 ≤ op && op ≤ 0x16) ||
  (0x20 ≤ op && op ≤ 0x24) ||
  (0x30 ≤ op && op ≤ 0x37) ||
  (0x40 ≤ op && op ≤ 0x44) ||
  (0x50 ≤ op && op ≤ 0x54) ||
  (0x60 ≤ op && op ≤ 0x69)

/-- Check 2 of R141: RSVD = 0. -/
def CmdFields.rsvdZero (f : CmdFields) : Bool := f.rsvd == 0

/-- Check 3 of R141: FLAGS = 0, but SPONGE_INIT (opcode 0x11) allows FLAGS bit 0. -/
def CmdFields.flagsAllowed (f : CmdFields) : Bool :=
  f.flags == 0 || (f.opcode == 0x11 && f.flags == 1)

/-- R141: the word is legal iff all three checks hold. -/
def CmdFields.legal (f : CmdFields) : Bool :=
  f.opcodeDefined && f.rsvdZero && f.flagsAllowed

end Sys2Proof
end

