-- ==== Sys2Proof/Decode.lean ====
section
/-! DEFINITION. Decoding a command word (spec/30_encoding.md R140 to R147) and, after it, encoding one. Decoding is total on
any 32-bit word and rejects by name: an opcode that R146 does not list, or a nonzero reserved bit of a defined opcode. -/

namespace Sys2Proof

/-- Why a word is no command (R141): the two details of ILLEGAL_COMMAND. -/
inductive DecodeError where
  /-- OPCODE is not one of the 42 values of R146. -/
  | opcode
  /-- A defined opcode with a nonzero RSVD or a disallowed FLAGS bit. -/
  | reservedBits
  deriving DecidableEq, Repr

/-- The fields of a word (R140): OPCODE in bits 7:0, FLAGS in bits 11:8, RSVD in bits 31:12. -/
def fieldsOf (w : Word) : CmdFields :=
  { rsvd := w.extractLsb 31 12, flags := w.extractLsb 11 8, opcode := w.extractLsb 7 0 }

/-- The word with the given fields. -/
def packFields (f : CmdFields) : Word := f.rsvd ++ f.flags ++ f.opcode

/-- RATE_SEL as FLAGS bit 0 gives it (R140, R144). -/
def rateSelOf (flags : BitVec 4) : RateSel := if flags.getLsbD 0 then .rate136 else .rate168

/-- The opcode map of R146, one row per command; the FLAGS are those of the word. -/
def opcodeMap (flags : BitVec 4) : List (BitVec 8 × Instr) :=
  [ (0x00, .nop), (0x01, .keyClear),
    (0x10, .keccakF), (0x11, .spongeInit (rateSelOf flags)), (0x12, .spongeAbsorb), (0x13, .spongeSqueeze),
    (0x14, .shake128), (0x15, .shake256), (0x16, .sha256),
    (0x20, .coreHash), (0x21, .prf), (0x22, .hashF), (0x23, .hashH), (0x24, .hMsg),
    (0x30, .wotsExpandSeed), (0x31, .wotsGenChain), (0x32, .wotsBaseW), (0x33, .wotsDigits),
    (0x34, .wotsPkgen), (0x35, .wotsSign), (0x36, .wotsPkFromSig), (0x37, .otsSeed),
    (0x40, .lTree), (0x41, .genLeaf), (0x42, .treehash), (0x43, .authpath), (0x44, .rootFromAuth),
    (0x50, .bdsSetup), (0x51, .bdsRound), (0x52, .treehashUpdate), (0x53, .bdsTreehashUpdate), (0x54, .bdsExport),
    (0x60, .keygen), (0x61, .keygenXseed), (0x62, .getPk), (0x63, .getSk), (0x64, .getXseed), (0x65, .setIndex),
    (0x66, .sign), (0x67, .verify), (0x68, .sigSize), (0x69, .heightFromSigSize) ]

/-- The FLAGS bits that must be zero under an opcode (R141): all four, but SPONGE_INIT leaves bit 0 free. -/
def flagsReserved (opcode : BitVec 8) : BitVec 4 := if opcode = 0x11 then 0b1110 else 0b1111

/-- R141: an undefined opcode is reported before nonzero reserved bits, because RESERVED_BITS is the detail of a DEFINED
opcode only. -/
def decodeFields (f : CmdFields) : Except DecodeError Instr :=
  match (opcodeMap f.flags).lookup f.opcode with
  | none => .error .opcode
  | some i =>
    if f.rsvd = 0 ∧ f.flags &&& flagsReserved f.opcode = 0 then .ok i else .error .reservedBits

/-- The command a word stands for, or why it stands for none (R141, R142). -/
def decode (w : Word) : Except DecodeError Instr := decodeFields (fieldsOf w)

/-- The opcode of a command (R146). -/
def Instr.opcode : Instr → BitVec 8
  | .nop => 0x00
  | .keyClear => 0x01
  | .keccakF => 0x10
  | .spongeInit _ => 0x11
  | .spongeAbsorb => 0x12
  | .spongeSqueeze => 0x13
  | .shake128 => 0x14
  | .shake256 => 0x15
  | .sha256 => 0x16
  | .coreHash => 0x20
  | .prf => 0x21
  | .hashF => 0x22
  | .hashH => 0x23
  | .hMsg => 0x24
  | .wotsExpandSeed => 0x30
  | .wotsGenChain => 0x31
  | .wotsBaseW => 0x32
  | .wotsDigits => 0x33
  | .wotsPkgen => 0x34
  | .wotsSign => 0x35
  | .wotsPkFromSig => 0x36
  | .otsSeed => 0x37
  | .lTree => 0x40
  | .genLeaf => 0x41
  | .treehash => 0x42
  | .authpath => 0x43
  | .rootFromAuth => 0x44
  | .bdsSetup => 0x50
  | .bdsRound => 0x51
  | .treehashUpdate => 0x52
  | .bdsTreehashUpdate => 0x53
  | .bdsExport => 0x54
  | .keygen => 0x60
  | .keygenXseed => 0x61
  | .getPk => 0x62
  | .getSk => 0x63
  | .getXseed => 0x64
  | .setIndex => 0x65
  | .sign => 0x66
  | .verify => 0x67
  | .sigSize => 0x68
  | .heightFromSigSize => 0x69

/-- The FLAGS of a command (R140, R144): RATE_SEL for SPONGE_INIT, zero for every other. -/
def Instr.flags : Instr → BitVec 4
  | .spongeInit .rate136 => 1
  | _ => 0

/-- The fields of a command's word. -/
def Instr.fields (i : Instr) : CmdFields := { rsvd := 0, flags := i.flags, opcode := i.opcode }

/-- The command word of a command (R140, R146). -/
def encode (i : Instr) : Word := packFields i.fields

/-- The instruction the decoder reads from a table row's bits: a command word is one 32-bit word (R142), so the bits are
the low nbits of w and every bit above them is 0. -/
def decodeTableWord (nbits w : Nat) : Option Instr :=
  match decode (BitVec.ofNat 32 (w % 2 ^ nbits)) with
  | .ok i => some i
  | .error _ => none

end Sys2Proof
end

