-- ==== Sys2Proof/Config.lean ====
section
/-! DEFINITION. What one build of the core fixes: the named parameters of spec/00_scope.md R8 that a model takes as an
argument (H_MAX, K_MAX, BUF_BYTES). CMD_LATENCY is not a number here: the list of moves in the state (Machine/State.lean)
says when the commit step is taken, so every finite latency is one such list (spec/70 R513). The spec leaves no VALUE open
that an instruction could return, so this file declares no free value. -/

namespace Sys2Proof

/-- The four sizes BUF_BYTES can have (R8). -/
inductive BufSize where
  | b4096 | b8192 | b16384 | b32768
  deriving DecidableEq, Repr

/-- log2(BUF_BYTES), as CAPS reports it (R37). -/
def BufSize.log2 : BufSize → Nat
  | .b4096 => 12
  | .b8192 => 13
  | .b16384 => 14
  | .b32768 => 15

/-- BUF_BYTES (R8). -/
def BufSize.bytes : BufSize → Nat
  | .b4096 => 4096
  | .b8192 => 8192
  | .b16384 => 16384
  | .b32768 => 32768

/-- The build parameters (R8, 92_eei_decisions.md D28). No step changes them. -/
structure Build where
  hMax : Nat
  kMax : Nat
  buf  : BufSize
  deriving DecidableEq, Repr

/-- The default parameters: H_MAX = 20, K_MAX = 8, BUF_BYTES = 16384 (R8). -/
def Build.default : Build := { hMax := 20, kMax := 8, buf := .b16384 }

/-- The ranges D28 gives the parameters: H_MAX even in 4..30, K_MAX at most 15. -/
abbrev Build.Legal (b : Build) : Prop :=
  4 ≤ b.hMax ∧ b.hMax ≤ 30 ∧ b.hMax % 2 = 0 ∧ b.kMax ≤ 15

end Sys2Proof
end

