-- ==== Sys2Proof/Machine/State.lean ====
section
/-! DEFINITION. The state of the core as plain data (spec/10_state.md R30 to R62), the moves of its two agents
(spec/70_reset_and_hazards.md R512), the reasons a step can stop, and the state after reset (R500). -/

namespace Sys2Proof.Machine

/-- The three hash functions (R44): code 0, 1 and 2 of a HASH_FN field. -/
inductive HashFn where
  | sha2_256
  | shake128
  | shake256
  deriving DecidableEq, Repr

/-- The two signing strategies (R45): STRATEGY 0 and 1. -/
inductive Strategy where
  | basic
  | fast
  deriving DecidableEq, Repr

/-- The phase of the streaming sponge (R52). -/
inductive Phase where
  | idle
  | absorb
  | squeeze
  deriving DecidableEq, Repr

/-- The sponge control state SP (R52). The rate 168 or 136 is held as the RATE_SEL value that stands for it (R43). -/
structure SpongeCtl where
  phase : Phase
  rate  : RateSel
  pos   : Nat
  deriving DecidableEq, Repr

/-- The buffer memory BUF (R53): the written bytes, as (offset, byte) pairs at strictly rising offsets. An offset that is
not listed has never been written since reset, and reading it is the fault U1 of spec/93. -/
structure Memory where
  cells : List Host.Cell
  deriving DecidableEq, Repr

/-- The key store (R54). -/
structure KeyStore where
  valid    : Bool
  hf       : HashFn
  sigType  : BitVec 4
  addrFmt  : BitVec 4
  h        : BitVec 8
  k        : BitVec 4
  strategy : Strategy
  idx      : Word
  skSeed   : Bytes
  skPrf    : Bytes
  pubSeed  : Bytes
  root     : Bytes
  rawSeed  : Bytes
  deriving DecidableEq, Repr

/-- One treehash instance (R58). Counts are naturals. The invariant of Safety.lean keeps them within the spec's widths. -/
structure TreehashInst where
  h          : Nat
  nextIdx    : Nat
  stackUsage : Nat
  completed  : Bool
  node       : Bytes
  deriving DecidableEq, Repr

/-- The BDS state (R56). -/
structure Bds where
  stack       : List Bytes
  stackLevels : List Nat
  stackOffset : Nat
  auth        : List Bytes
  keep        : List Bytes
  th          : List TreehashInst
  retain      : List Bytes
  deriving DecidableEq, Repr

/-- The pending-command latch (R60): the word and the operands the issue step sampled (R172). -/
structure Pending where
  word   : Word
  arg    : Args
  adrs   : Adrs
  cfg    : Word
  keycfg : Word
  deriving DecidableEq, Repr

/-- The width of a host access: 1, 2 or 4 bytes (R101, R102), or any other, which is 3 bytes or more than 4. An access of any
other width is always a bus error (R103, D5 of spec/92_eei_decisions.md). -/
inductive AccessSize where
  | byte
  | half
  | word
  | other
  deriving DecidableEq, Repr

/-- One host access to the 64 KiB window (R100). A write of 1 or 2 bytes carries its data in the low bits of `value`. -/
inductive Access where
  | read (offset : BitVec 16) (size : AccessSize)
  | write (offset : BitVec 16) (size : AccessSize) (value : Word)
  deriving DecidableEq, Repr

/-- One step of the whole system (R512): a host access (a CMD write among them is the issue step), the sequencer's turn,
which is the commit step while a command is pending, or a reset. DESIGN CHOICE (unsafe, log entry 18): an access of 2 or 4 bytes
is one step, as R101 and R109 say, although R512 item 1 speaks of one BUF byte. -/
inductive Move where
  | host (a : Access)
  | sequencer
  | reset
  deriving DecidableEq, Repr

/-- Why the machine stops with a fault. -/
inductive Fault where
  /-- Raised by a host read or a command's MemRead of the BUF byte at `offset`, which has never been written since reset
  (spec/93 U1, R105, R175). Safe: the hardware goes on with an unspecified value, and the model claims nothing of it. Which
  of several such bytes it names is the model's choice (DESIGN CHOICE, log entry 17). -/
  | unwrittenRead (offset : Nat)
  deriving DecidableEq, Repr

/-- Why a step has no meaning. -/
inductive Refusal where
  /-- An instruction that has no meaning in the model. Safe: no claim is made of it. No arm of exec answers so. -/
  | notModelled (mnemonic : String)
  deriving DecidableEq, Repr

/-- The whole state. The fields from `done` to `bdsSync` and `pending` are the spec's (R30). `build` holds the build
parameters (R8). `readData` (what the last host read returned) and `sched` (the moves still to come) are the model's own:
they hold the host's side of the bus, so that one deterministic step can run every interleaving R512 allows. STATUS.BUSY
is the occupation of the latch (R60). -/
structure State where
  build     : Build
  done      : Bool
  err       : Bool
  verifyOk  : Bool
  errCode   : Word
  intEn     : Word
  intStatus : Word
  cfg       : Word
  keycfg    : Word
  arg       : Args
  res0      : Word
  res1      : Word
  adrs      : Adrs
  cmdCount  : Word
  ks        : Lanes
  sp        : SpongeCtl
  buf       : Memory
  key       : KeyStore
  bds       : Bds
  bdsSync   : Bool
  pending   : Option Pending
  readData  : Word
  sched     : List Move
  deriving DecidableEq, Repr

/-- The state right after reset (R500), with the default build parameters (R8) and no host move queued. The BDS arrays
have the shape of R350 at KEY.h = KEY.k = 0: one stack slot and nothing else. -/
def State.reset : State :=
  { build := Build.default
    done := false
    err := false
    verifyOk := false
    errCode := 0
    intEn := 0
    intStatus := 0
    cfg := 0
    keycfg := 0
    arg := Vector.replicate 8 0
    res0 := 0
    res1 := 0
    adrs := Vector.replicate 8 0
    cmdCount := 0
    ks := Vector.replicate 25 0
    sp := { phase := .idle, rate := .rate168, pos := 0 }
    buf := { cells := [] }
    key :=
      { valid := false, hf := .sha2_256, sigType := 0, addrFmt := 0, h := 0, k := 0, strategy := .basic, idx := 0,
        skSeed := List.replicate 32 0, skPrf := List.replicate 32 0, pubSeed := List.replicate 32 0,
        root := List.replicate 32 0, rawSeed := List.replicate 48 0 }
    bds :=
      { stack := [List.replicate 32 0], stackLevels := [0], stackOffset := 0, auth := [], keep := [], th := [],
        retain := [] }
    bdsSync := false
    pending := none
    readData := 0
    sched := [] }

end Sys2Proof.Machine
end

