-- ==== Sys2Proof/Machine/Bytes.lean ====
section
/-! DEFINITION. Byte strings and the integers they encode (spec/00_scope.md R10, R12, R13). -/

namespace Sys2Proof.Machine

/-- 0^k: k zero bytes (R10). -/
def zeros (k : Nat) : Bytes := List.replicate k 0

/-- toByte(x, k): the k-byte big-endian encoding of x mod 2^(8k) (R12). -/
def toByte (x : Nat) : Nat → Bytes
  | 0 => []
  | k + 1 => toByte (x / 256) k ++ [BitVec.ofNat 8 x]

/-- fromBE(B): the integer whose big-endian encoding is B (R13). -/
def fromBE (bs : Bytes) : Nat := bs.foldl (fun x b => 256 * x + b.toNat) 0

/-- The k-byte little-endian encoding of x mod 2^(8k): byte i is bits 8i+7..8i (R101, R202). -/
def toLE (x : Nat) : Nat → Bytes
  | 0 => []
  | k + 1 => BitVec.ofNat 8 x :: toLE (x / 256) k

/-- The integer whose little-endian encoding is B (R101). -/
def fromLE : Bytes → Nat
  | [] => 0
  | b :: bs => b.toNat + 256 * fromLE bs

/-- The bytewise XOR of two byte strings of one length (R253). -/
def xorBytes (a b : Bytes) : Bytes := List.zipWith (· ^^^ ·) a b

/-- The bytes B[off .. off + len) (R10). -/
def slice (bs : Bytes) (off len : Nat) : Bytes := (bs.drop off).take len

/-- The m chunks of n bytes of a byte string, chunk 0 first (spec/43_wots.md, introduction). -/
def chunks (n : Nat) : Nat → Bytes → List Bytes
  | 0, _ => []
  | m + 1, bs => bs.take n :: chunks n m (bs.drop n)

end Sys2Proof.Machine
end

