-- ==== Sys2Proof/Machine/Flags.lean ====
section
/-! DEFINITION. Every bit the core reports: the typed errors and their codes (spec/60_exceptions.md R451, R452), STATUS
(spec/10_state.md R39), INT_STATUS and IRQ (R42, R462), and the other read-only views (R37, R43, R46 to R48). -/

namespace Sys2Proof.Machine

/-- The details of INVALID_ARGUMENT (R452). -/
inductive InvalidArg where
  | seedLength
  | height
  | paramRelation
  | lengthMismatch
  | indexRange
  | indexRewind
  | descriptorReserved
  | sigSize
  | operand
  deriving DecidableEq, Repr

/-- The details of FAILED_CONVERSION (R452). -/
inductive Conversion where
  | hashFunction
  | signatureType
  | addressFormat
  deriving DecidableEq, Repr

/-- The details of VERIFICATION_FAILURE (R452). -/
inductive VerifyFailure where
  | rootMismatch
  | indexRange
  deriving DecidableEq, Repr

/-- The details of STATE_ERROR (R452). -/
inductive StateError where
  | noKey
  | notFast
  | bdsDesync
  | spongePhase
  | bdsStackFull
  | instanceCompleted
  | keyIndexNonzero
  deriving DecidableEq, Repr

/-- The details of CAPACITY (R452). -/
inductive CapacityError where
  | height
  | bdsK
  deriving DecidableEq, Repr

/-- A typed error: a class of R451 with a detail of R452. -/
inductive CmdError where
  | invalidArgument (d : InvalidArg)
  | failedConversion (d : Conversion)
  | verificationFailure (d : VerifyFailure)
  /-- CONFIG_ERROR has the one detail HASH_N_PAIR. -/
  | configError
  | illegalCommand (d : DecodeError)
  /-- The detail is the number of the ARG register that holds the pointer (R104). -/
  | bufferRange (arg : Fin 8)
  | stateError (d : StateError)
  | capacity (d : CapacityError)
  deriving DecidableEq, Repr

/-- The class code, ERR_CODE bits 7:0 (R451). -/
def CmdError.code : CmdError → BitVec 8
  | .invalidArgument _ => 1
  | .failedConversion _ => 2
  | .verificationFailure _ => 3
  | .configError => 4
  | .illegalCommand _ => 5
  | .bufferRange _ => 6
  | .stateError _ => 7
  | .capacity _ => 8

/-- The detail code, ERR_CODE bits 23:16 (R452). -/
def CmdError.detail : CmdError → BitVec 8
  | .invalidArgument .seedLength => 0x01
  | .invalidArgument .height => 0x02
  | .invalidArgument .paramRelation => 0x03
  | .invalidArgument .lengthMismatch => 0x04
  | .invalidArgument .indexRange => 0x05
  | .invalidArgument .indexRewind => 0x06
  | .invalidArgument .descriptorReserved => 0x07
  | .invalidArgument .sigSize => 0x08
  | .invalidArgument .operand => 0x09
  | .failedConversion .hashFunction => 0x01
  | .failedConversion .signatureType => 0x02
  | .failedConversion .addressFormat => 0x03
  | .verificationFailure .rootMismatch => 0x01
  | .verificationFailure .indexRange => 0x02
  | .configError => 0x01
  | .illegalCommand .opcode => 0x01
  | .illegalCommand .reservedBits => 0x02
  | .bufferRange i => BitVec.ofNat 8 i.val
  | .stateError .noKey => 0x01
  | .stateError .notFast => 0x02
  | .stateError .bdsDesync => 0x03
  | .stateError .spongePhase => 0x04
  | .stateError .bdsStackFull => 0x05
  | .stateError .instanceCompleted => 0x06
  | .stateError .keyIndexNonzero => 0x07
  | .capacity .height => 0x01
  | .capacity .bdsK => 0x02

/-- ERR_CODE of an error under an opcode: detail << 16 | opcode << 8 | class (R40, R174, R450). -/
def errorWord (e : CmdError) (opcode : BitVec 8) : Word := 0#8 ++ e.detail ++ opcode ++ e.code

/-- INT_STATUS bit 0 (R42, R459). -/
def doneIP : Word := 0x1
/-- INT_STATUS bit 1. -/
def errIP : Word := 0x2
/-- INT_STATUS bit 2. -/
def busErrIP : Word := 0x4
/-- INT_STATUS bit 3. -/
def overrunIP : Word := 0x8

/-- The defined bits of INT_EN and INT_STATUS (R41, R42). -/
def intMask : Word := 0x0000000F
/-- The defined bits of CFG: HASH_FN and N64 (R44). -/
def cfgMask : Word := 0x0000010F
/-- The defined bits of KEYCFG (R45). -/
def keycfgMask : Word := 0x1F0FFFFF

/-- STATUS.BUSY (R39): the latch is occupied exactly while BUSY = 1 (R60). -/
def State.busy (s : State) : Bool := s.pending.isSome

/-- STATUS.FAST (R39): a key is loaded and it uses the Fast strategy. -/
def State.fastKey (s : State) : Bool := s.key.valid && s.key.strategy == .fast

/-- STATUS.EXHAUSTED (R62): a key is loaded and its index is 2^h. -/
def State.exhausted (s : State) : Bool := s.key.valid && s.key.idx.toNat == 2 ^ s.key.h.toNat

/-- STATUS (R39), bits 31:8 zero, then bits 7 down to 0. -/
def State.status (s : State) : Word :=
  0#24 ++ BitVec.ofBool s.exhausted ++ BitVec.ofBool s.bdsSync ++ BitVec.ofBool s.fastKey ++ BitVec.ofBool s.key.valid ++
    BitVec.ofBool s.verifyOk ++ BitVec.ofBool s.err ++ BitVec.ofBool s.done ++ BitVec.ofBool s.busy

/-- The interrupt output (R462): level-sensitive, a function of INT_STATUS and INT_EN. -/
def State.irq (s : State) : Bool := s.intStatus &&& s.intEn &&& intMask != 0

/-- The HASH_FN code of a hash function (R44). -/
def HashFn.code : HashFn → BitVec 4
  | .sha2_256 => 0
  | .shake128 => 1
  | .shake256 => 2

/-- The hash function of a HASH_FN code; codes 3 to 15 map to no variant (R44). -/
def HashFn.ofCode (c : BitVec 4) : Option HashFn :=
  if c = 0 then some .sha2_256 else if c = 1 then some .shake128 else if c = 2 then some .shake256 else none

/-- The STRATEGY bit (R45): 0 Basic, 1 Fast. -/
def Strategy.bit : Strategy → BitVec 1
  | .basic => 0
  | .fast => 1

/-- The PHASE code (R43). -/
def Phase.code : Phase → BitVec 2
  | .idle => 0
  | .absorb => 1
  | .squeeze => 2

/-- The RATE_SEL bit of a rate (R43). -/
def rateBit : RateSel → BitVec 1
  | .rate168 => 0
  | .rate136 => 1

/-- SPONGE (R43): POS in 23:16, RATE_SEL in 8, PHASE in 1:0. -/
def State.spongeReg (s : State) : Word :=
  0#8 ++ BitVec.ofNat 8 s.sp.pos ++ 0#7 ++ rateBit s.sp.rate ++ 0#6 ++ s.sp.phase.code

/-- CAPS (R37): log2(BUF_BYTES), K_MAX, H_MAX and six supported features. -/
def State.caps (s : State) : Word :=
  BitVec.ofNat 8 s.build.buf.log2 ++ BitVec.ofNat 8 s.build.kMax ++ BitVec.ofNat 8 s.build.hMax ++ 0x3F#8

/-- KEY_INDEX (R46). -/
def State.keyIndex (s : State) : Word := if s.key.valid then s.key.idx else 0

/-- KEY_INFO (R47): the key's parameters laid out as KEYCFG, with KEY_VALID in bit 31. -/
def State.keyInfo (s : State) : Word :=
  if s.key.valid then
    1#1 ++ 0#2 ++ s.key.strategy.bit ++ s.key.k ++ 0#4 ++ s.key.addrFmt ++ s.key.h ++ s.key.sigType ++ s.key.hf.code
  else 0

/-- SIG_SIZE (R48): 2180 + 32 KEY.h while a key is loaded. -/
def State.sigSizeReg (s : State) : Word := if s.key.valid then BitVec.ofNat 32 (2180 + 32 * s.key.h.toNat) else 0

end Sys2Proof.Machine
end

