-- ==== Sys2Proof/Machine/Ops.lean ====
section
/-! DEFINITION. The named operations over BUF and the registers: reading and writing bytes (spec/00_scope.md R11,
spec/20_memory.md R101 to R106), the issue step (spec/40_control.md R172), and the two ways a command completes: with
success (R173) and with an error (R174, R450), which is this core's form of taking an exception. R456 and R457: nothing is
saved but ERR_CODE and there is no return from an error, so there is no return operation; the next issue clears the report. -/

namespace Sys2Proof.Machine

/-- Why a command's checks or body end early: a typed error (R450), or the model fault U1 (R175). -/
inductive Stop where
  | raise (e : CmdError)
  | fault (f : Fault)
  deriving DecidableEq, Repr

/-- What a command's checks and body give: a value, or the reason they ended early. -/
abbrev Result (α : Type) := Except Stop α

/-- `check c else raise e` (R10). -/
def check (c : Prop) [Decidable c] (e : CmdError) : Result Unit := if c then .ok () else .error (.raise e)

/-- `raise e` (R10). -/
def raise {α : Type} (e : CmdError) : Result α := .error (.raise e)

/-- The canonical form: offsets strictly rising. No entry can equal what an unlisted offset reads as, because an unlisted
offset reads as no value at all. -/
abbrev Memory.wf (m : Memory) : Prop := m.cells.Pairwise fun x y => x.1 < y.1

/-- Every written offset lies in BUF (R53). -/
abbrev Memory.below (m : Memory) (size : Nat) : Prop := ∀ c ∈ m.cells, c.1 < size

/-- BUF[a], or none where that byte has never been written since reset (R53). -/
def Memory.read (m : Memory) (a : Nat) : Option Byte := m.cells.lookup a

/-- The cells of a byte string stored from offset p on. -/
def cellsFrom : Nat → Bytes → List Host.Cell
  | _, [] => []
  | p, b :: bs => (p, b) :: cellsFrom (p + 1) bs

/-- MemWrite(p, len(v), v): stores the string and marks each of its bytes as written (R11, R105). -/
def Memory.write (m : Memory) (p : Nat) (v : Bytes) : Memory :=
  { cells := m.cells.filter (fun c => c.1 < p) ++ cellsFrom p v ++ m.cells.filter (fun c => p + v.length ≤ c.1) }

/-- MemRead(p, L): the bytes BUF[p .. p+L), each of them read (R11); the fault U1 at the first never-written one (R105). -/
def Memory.readBytes (m : Memory) (p : Nat) : Nat → Result Bytes
  | 0 => .ok []
  | L + 1 =>
    match m.read p with
    | none => .error (.fault (.unwrittenRead p))
    | some b =>
      match m.readBytes (p + 1) L with
      | .ok bs => .ok (b :: bs)
      | .error e => .error e

/-- The operands as a CMD write of word c samples them (R172). -/
def State.sample (s : State) (c : Word) : Pending :=
  { word := c, arg := s.arg, adrs := s.adrs, cfg := s.cfg, keycfg := s.keycfg }

/-- The issue step (R172). -/
def State.issue (s : State) (c : Word) : State :=
  { s with
    pending := some (s.sample c)
    errCode := 0
    res0 := 0
    res1 := 0
    done := false
    err := false
    verifyOk := false }

/-- PENDING. Every commit step finds it occupied; for a state with an empty latch (no step runs exec there) the live
registers stand in, which R172 says are the same values. -/
def State.latch (s : State) : Pending := s.pending.getD (s.sample 0)

/-- Successful completion (R173), given the shadow copy that holds every write of the body. -/
def State.succeed (shadow : State) : State :=
  { shadow with
    pending := none
    done := true
    intStatus := shadow.intStatus ||| doneIP
    cmdCount := shadow.cmdCount + 1 }

/-- Error completion (R174, R450): no write of the body, only the error report. -/
def State.failWith (s : State) (e : CmdError) : State :=
  { s with
    pending := none
    errCode := errorWord e (s.latch.word.extractLsb 7 0)
    err := true
    done := true
    intStatus := s.intStatus ||| (doneIP ||| errIP)
    cmdCount := s.cmdCount + 1 }

/-- The commit step: completes a command whose checks and body gave r, in the state before it (R173 to R175). -/
def finish (s : State) (r : Result State) : Host.Outcome State Fault Refusal :=
  match r with
  | .ok shadow => .next shadow.succeed
  | .error (.raise e) => .next (s.failWith e)
  | .error (.fault f) => .fault f

/-- A write of RES0 by a command's body (R33). -/
def State.withRes0 (s : State) (v : Nat) : State := { s with res0 := BitVec.ofNat 32 v }

/-- A write of RES1 by a command's body (R33). -/
def State.withRes1 (s : State) (v : Nat) : State := { s with res1 := BitVec.ofNat 32 v }

/-- A write of BUF by a command's body or by the host. -/
def State.writeBuf (s : State) (p : Nat) (v : Bytes) : State := { s with buf := s.buf.write p v }

end Sys2Proof.Machine
end

