-- ==== Sys2Proof/Machine/Bus.lean ====
section
/-! DEFINITION. The host's accesses to the 64 KiB window (spec/20_memory.md R100 to R103, spec/10_state.md R63,
spec/40_control.md R170 to R172). -/

namespace Sys2Proof.Machine

/-- The registers of the CSR window (R63). -/
inductive Csr where
  | id
  | version
  | caps
  | cmd
  | status
  | errCode
  | intEn
  | intStatus
  | sponge
  | cfg
  | keycfg
  | arg (i : Fin 8)
  | res0
  | res1
  | keyIndex
  | keyInfo
  | sigSize
  | cmdCount
  | adrs (j : Fin 8)
  | ksLo (i : Fin 25)
  | ksHi (i : Fin 25)
  deriving DecidableEq, Repr

/-- The registers with an offset of their own (R63). -/
def csrTable : List (Nat × Csr) :=
  [ (0x000, .id), (0x004, .version), (0x008, .caps), (0x010, .cmd), (0x014, .status), (0x018, .errCode),
    (0x01C, .intEn), (0x020, .intStatus), (0x028, .sponge), (0x030, .cfg), (0x034, .keycfg),
    (0x060, .res0), (0x064, .res1), (0x070, .keyIndex), (0x074, .keyInfo), (0x078, .sigSize), (0x07C, .cmdCount) ]

/-- The register at a host offset (R63): none at a reserved or misaligned offset. -/
def csrAt (off : Nat) : Option Csr :=
  if off % 4 ≠ 0 then none
  else if 0x040 ≤ off ∧ off < 0x060 then some (.arg (Fin.ofNat 8 ((off - 0x040) / 4)))
  else if 0x0A0 ≤ off ∧ off < 0x0C0 then some (.adrs (Fin.ofNat 8 ((off - 0x0A0) / 4)))
  else if 0x100 ≤ off ∧ off < 0x1C8 then
    let i : Fin 25 := Fin.ofNat 25 ((off - 0x100) / 8)
    some (if off % 8 = 0 then .ksLo i else .ksHi i)
  else csrTable.lookup off

/-- The value of a 4-byte read of a register (R102). While BUSY = 1 these are the values before the commit (R171), because
the commit has not changed the state yet. -/
def csrRead (s : State) : Csr → Word
  | .id => 0x584D5353
  | .version => 0x00010000
  | .caps => s.caps
  | .cmd => 0
  | .status => s.status
  | .errCode => s.errCode
  | .intEn => s.intEn
  | .intStatus => s.intStatus
  | .sponge => s.spongeReg
  | .cfg => s.cfg
  | .keycfg => s.keycfg
  | .arg i => s.arg.get i
  | .res0 => s.res0
  | .res1 => s.res1
  | .keyIndex => s.keyIndex
  | .keyInfo => s.keyInfo
  | .sigSize => s.sigSizeReg
  | .cmdCount => s.cmdCount
  | .adrs j => s.adrs.get j
  | .ksLo i => (s.ks.get i).extractLsb 31 0
  | .ksHi i => (s.ks.get i).extractLsb 63 32

/-- A bus error on a write (R103): only BUSERR_IP is set. -/
def State.busErrorWrite (s : State) : State := { s with intStatus := s.intStatus ||| busErrIP }

/-- A bus error on a read (R103): the read returns 0 and BUSERR_IP is set. -/
def State.busErrorRead (s : State) : State := { s with intStatus := s.intStatus ||| busErrIP, readData := 0 }

/-- A CMD write dropped because BUSY = 1 (R171): only OVERRUN_IP is set. -/
def State.overrun (s : State) : State := { s with intStatus := s.intStatus ||| overrunIP }

/-- A write that is performed only while BUSY = 0, and is a bus error otherwise (R102, R171). -/
def State.whenIdle (s : State) (t : State) : State := if s.busy then s.busErrorWrite else t

/-- A 4-byte write of v to a register (R102, R170, R171). Reserved bits are ignored, so they stay 0. -/
def csrWrite (s : State) (v : Word) : Csr → State
  | .cmd => if s.busy then s.overrun else s.issue v
  | .intEn => { s with intEn := v &&& intMask }
  | .intStatus => { s with intStatus := s.intStatus &&& ~~~v }
  | .cfg => s.whenIdle { s with cfg := v &&& cfgMask }
  | .keycfg => s.whenIdle { s with keycfg := v &&& keycfgMask }
  | .arg i => s.whenIdle { s with arg := s.arg.set i v }
  | .adrs j => s.whenIdle { s with adrs := s.adrs.set j v }
  | .ksLo i => s.whenIdle { s with ks := s.ks.set i ((s.ks.get i).extractLsb 63 32 ++ v) }
  | .ksHi i => s.whenIdle { s with ks := s.ks.set i (v ++ (s.ks.get i).extractLsb 31 0) }
  | .id => s.busErrorWrite
  | .version => s.busErrorWrite
  | .caps => s.busErrorWrite
  | .status => s.busErrorWrite
  | .errCode => s.busErrorWrite
  | .sponge => s.busErrorWrite
  | .res0 => s.busErrorWrite
  | .res1 => s.busErrorWrite
  | .keyIndex => s.busErrorWrite
  | .keyInfo => s.busErrorWrite
  | .sigSize => s.busErrorWrite
  | .cmdCount => s.busErrorWrite

/-- The byte count of an access that the core may perform; none for one of 3 bytes or more than 4, which is a bus error
whatever its count is (R103, D5). -/
def AccessSize.bytes : AccessSize → Option Nat
  | .byte => some 1
  | .half => some 2
  | .word => some 4
  | .other => none

/-- The BUF offset and byte count of an access that R101 allows: 1, 2 or 4 bytes, naturally aligned, wholly inside BUF,
while BUSY = 0. -/
def bufTarget (s : State) (off : Nat) (size : AccessSize) : Option (Nat × Nat) :=
  match size.bytes with
  | none => none
  | some n =>
    if 0x4000 ≤ off ∧ (off - 0x4000) % n = 0 ∧ off - 0x4000 + n ≤ s.build.buf.bytes ∧ s.busy = false then
      some (off - 0x4000, n)
    else none

/-- The register a 4-byte access reaches; none for any other access (R102). -/
def csrTarget (off : Nat) (size : AccessSize) : Option Csr :=
  if size = .word then csrAt off else none

/-- A host read (R101 to R103). A BUF read of a never-written byte is the fault U1. -/
def hostRead (s : State) (off : Nat) (size : AccessSize) : Host.Outcome State Fault Refusal :=
  match csrTarget off size with
  | some r => .next { s with readData := csrRead s r }
  | none =>
    match bufTarget s off size with
    | none => .next s.busErrorRead
    | some (p, n) =>
      match s.buf.readBytes p n with
      | .ok bs => .next { s with readData := BitVec.ofNat 32 (fromLE bs) }
      | .error (.fault f) => .fault f
      | .error (.raise _) => .next s.busErrorRead

/-- A host write (R101 to R103). -/
def hostWrite (s : State) (off : Nat) (size : AccessSize) (v : Word) : State :=
  match csrTarget off size with
  | some r => csrWrite s v r
  | none =>
    match bufTarget s off size with
    | none => s.busErrorWrite
    | some (p, n) => s.writeBuf p (toLE v.toNat n)

/-- One host access (R109 item 1, R170 to R172), of whatever width in one step (DESIGN CHOICE, log entry 18: R512 item 1 says one
BUF byte). -/
def hostAccess (s : State) : Access → Host.Outcome State Fault Refusal
  | .read off size => hostRead s off.toNat size
  | .write off size v => .next (hostWrite s off.toNat size v)

end Sys2Proof.Machine
end

