-- ==== Sys2Proof/Machine/Keccak.lean ====
section
/-! DEFINITION. Keccak-f[1600] and the SHAKE sponge (spec/41_keccak_sha.md R200 to R206). -/

namespace Sys2Proof.Machine

/-- The table of R201, row by row: row r holds RC[r], RC[r + 8] and RC[r + 16], the leftmost first. -/
def keccakRCRows : List (BitVec 192) :=
  [ 0x0000000000000001_000000000000008A_8000000000008002,
    0x0000000000008082_0000000000000088_8000000000000080,
    0x800000000000808A_0000000080008009_000000000000800A,
    0x8000000080008000_000000008000000A_800000008000000A,
    0x000000000000808B_000000008000808B_8000000080008081,
    0x0000000080000001_800000000000008B_8000000000008080,
    0x8000000080008081_8000000000008089_0000000080000001,
    0x8000000000008009_8000000000008003_8000000080008008 ]

/-- The round constants RC[0..23] (R201): the columns of the table, one after the other. -/
def keccakRC : List Lane :=
  (List.range 3).flatMap fun column => keccakRCRows.map fun row => row.extractLsb' (128 - 64 * column) 64

/-- The table of R203: entry x of row y is ROT[x][y]. -/
def keccakRotRows : List (List Nat) :=
  [ [0, 1, 62, 28, 27], [36, 44, 6, 55, 20], [3, 10, 43, 25, 39], [41, 45, 15, 21, 8], [18, 2, 61, 56, 14] ]

/-- The rotation offsets, ROT[x][y] at index x + 5y (R203). -/
def keccakRot : List Nat := keccakRotRows.flatten

/-- Lane A[i] (R200). -/
def lane (A : Lanes) (i : Nat) : Lane := A.toList.getD i 0

/-- The state whose lane x + 5y is f x y, for x and y in 0..4 (R200). -/
def lanesOf (f : Nat → Nat → Lane) : Lanes := ⟨((List.range 25).map fun i => f (i % 5) (i / 5)).toArray, by simp⟩

/-- The XOR of the five lanes of column x, C[x] in θ (R204), a being the list of lanes. -/
def columnParity (a : List Lane) (x : Nat) : Lane := (List.range 5).foldl (fun c y => c ^^^ a.getD (x + 5 * y) 0) 0

/-- θ (R204): every lane of column x is XORed with D[x] = C[x-1] xor rol64(C[x+1], 1). -/
def theta (A : Lanes) : Lanes :=
  let a := A.toList
  let C := (List.range 5).map (columnParity a)
  let D := (List.range 5).map fun x => C.getD ((x + 4) % 5) 0 ^^^ (C.getD ((x + 1) % 5) 0).rotateLeft 1
  lanesOf fun x y => a.getD (x + 5 * y) 0 ^^^ D.getD x 0

/-- ρ and π (R204): B[y + 5((2x + 3y) mod 5)] = rol64(A[x + 5y], ROT[x][y]). The lane of column X and row Y of the result
comes from the lane with y = X and 2x + 3y = Y (mod 5), which is x = X + 3Y (mod 5). -/
def rhoPi (A : Lanes) : Lanes :=
  let a := A.toList
  lanesOf fun X Y =>
    let source := (X + 3 * Y) % 5 + 5 * X
    (a.getD source 0).rotateLeft (keccakRot.getD source 0)

/-- χ (R204). -/
def chi (B : Lanes) : Lanes :=
  let b := B.toList
  lanesOf fun x y => b.getD (x + 5 * y) 0 ^^^ (~~~(b.getD ((x + 1) % 5 + 5 * y) 0) &&& b.getD ((x + 2) % 5 + 5 * y) 0)

/-- ι (R204). -/
def iota (rc : Lane) (A : Lanes) : Lanes := A.set 0 (lane A 0 ^^^ rc)

/-- One round (R204). -/
def keccakRound (A : Lanes) (rc : Lane) : Lanes := iota rc (chi (rhoPi (theta A)))

/-- KeccakF: 24 rounds (R200). -/
def keccakF (A : Lanes) : Lanes := keccakRC.foldl keccakRound A

/-- The all-zero state. -/
def zeroLanes : Lanes := Vector.replicate 25 0

/-- XorByte(A, i, b): byte i of the state, in lane i div 8, is XORed with b (R202). -/
def xorByte (A : Lanes) (i : Nat) (b : Byte) : Lanes :=
  A.setIfInBounds (i / 8) (lane A (i / 8) ^^^ (b.setWidth 64 <<< (8 * (i % 8))))

/-- GetByte(A, i): byte i of the state, bits 8(i mod 8)+7..8(i mod 8) of lane i div 8 (R202). -/
def getByte (A : Lanes) (i : Nat) : Byte := (lane A (i / 8)).extractLsb' (8 * (i % 8)) 8

/-- XorByte for each byte of a string, from byte position off on (R205). -/
def xorString (A : Lanes) (off : Nat) : Bytes → Lanes
  | [] => A
  | b :: bs => xorString (xorByte A off b) (off + 1) bs

/-- The rate in bytes that a RATE_SEL value stands for (R43, R144). -/
def rateOf : RateSel → Nat
  | .rate168 => 168
  | .rate136 => 136

/-- The absorb loop of R205 over m whole blocks: the state after them and the bytes left. -/
def absorbBlocks (rate : Nat) : Nat → Lanes → Bytes → Lanes × Bytes
  | 0, A, M => (A, M)
  | m + 1, A, M => absorbBlocks rate m (keccakF (xorString A 0 (M.take rate))) (M.drop rate)

/-- The suffix byte at position r and the final bit of pad10*1 at byte rate - 1 (R205). -/
def padState (rate : Nat) (A : Lanes) (r : Nat) : Lanes := xorByte (xorByte A r 0x1F) (rate - 1) 0x80

/-- The squeeze loop of R205 over m blocks: a permutation before each block of `rate` bytes. -/
def squeezeBlocks (rate : Nat) : Nat → Lanes → Bytes
  | 0, _ => []
  | m + 1, A =>
    let A' := keccakF A
    (List.range rate).map (getByte A') ++ squeezeBlocks rate m A'

/-- Sponge(rate, M, L) (R205). -/
def sponge (sel : RateSel) (M : Bytes) (L : Nat) : Bytes :=
  let rate := rateOf sel
  let (A, rest) := absorbBlocks rate (M.length / rate) zeroLanes M
  let A := padState rate (xorString A 0 rest) rest.length
  (squeezeBlocks rate ((L + rate - 1) / rate) A).take L

/-- SHAKE128(M, L) (R206). -/
def shake128 (M : Bytes) (L : Nat) : Bytes := sponge .rate168 M L

/-- SHAKE256(M, L) (R206). -/
def shake256 (M : Bytes) (L : Nat) : Bytes := sponge .rate136 M L

/-- The byte-by-byte absorb of SPONGE_ABSORB (R216): a block is permuted as soon as it is full. -/
def absorbStream (rate : Nat) : Lanes → Nat → Bytes → Lanes × Nat
  | A, pos, [] => (A, pos)
  | A, pos, b :: bs =>
    let A := xorByte A pos b
    if pos + 1 = rate then absorbStream rate (keccakF A) 0 bs else absorbStream rate A (pos + 1) bs

/-- The byte-by-byte squeeze of SPONGE_SQUEEZE (R217): the state and position after L bytes, and the bytes. -/
def squeezeStream (rate : Nat) : Nat → Lanes → Nat → Lanes × Nat × Bytes
  | 0, A, pos => (A, pos, [])
  | L + 1, A, pos =>
    let (A, pos) := if pos = rate then (keccakF A, 0) else (A, pos)
    let (A', pos', Z) := squeezeStream rate L A (pos + 1)
    (A', pos', getByte A pos :: Z)

end Sys2Proof.Machine
end

