-- ==== Sys2Proof/Machine/Sha2.lean ====
section
/-! DEFINITION. SHA2-256 (spec/41_keccak_sha.md R230, R231). -/

namespace Sys2Proof.Machine

/-- The eight words of one line of R231, the leftmost first. -/
def sha2Line (line : BitVec 256) : List Word :=
  (List.range 8).map fun j => line.extractLsb' (224 - 32 * j) 32

/-- The initial hash value H0[0..7], as the line R231 writes it in. -/
def sha2H0 : BitVec 256 := 0x6a09e667_bb67ae85_3c6ef372_a54ff53a_510e527f_9b05688c_1f83d9ab_5be0cd19

/-- The table of round constants of R231: the line that holds K[8r .. 8r+7], r below 8. -/
def sha2Table : List (BitVec 256) :=
  [ 0x428a2f98_71374491_b5c0fbcf_e9b5dba5_3956c25b_59f111f1_923f82a4_ab1c5ed5,
    0xd807aa98_12835b01_243185be_550c7dc3_72be5d74_80deb1fe_9bdc06a7_c19bf174,
    0xe49b69c1_efbe4786_0fc19dc6_240ca1cc_2de92c6f_4a7484aa_5cb0a9dc_76f988da,
    0x983e5152_a831c66d_b00327c8_bf597fc7_c6e00bf3_d5a79147_06ca6351_14292967,
    0x27b70a85_2e1b2138_4d2c6dfc_53380d13_650a7354_766a0abb_81c2c92e_92722c85,
    0xa2bfe8a1_a81a664b_c24b8b70_c76c51a3_d192e819_d6990624_f40e3585_106aa070,
    0x19a4c116_1e376c08_2748774c_34b0bcb5_391c0cb3_4ed8aa4a_5b9cca4f_682e6ff3,
    0x748f82ee_78a5636f_84c87814_8cc70208_90befffa_a4506ceb_bef9a3f7_c67178f2 ]

/-- The round constants K[0..63] in order (R231). -/
def sha2K : List Word := sha2Table.flatMap sha2Line

/-- ror32(x, i) xor ror32(x, j): what the four functions S0, S1, s0 and s1 of R230 have in common. -/
def rorPair (i j : Nat) (x : Word) : Word := x.rotateRight i ^^^ x.rotateRight j

/-- The working variables (a, …, hh) of R230. -/
structure Sha2Vars where
  a : Word
  b : Word
  c : Word
  d : Word
  e : Word
  f : Word
  g : Word
  h : Word
  deriving DecidableEq, Repr

/-- T1 of R230, with S1(e) and Ch(e, f, g) written out, for the round constant K[t] and the schedule word W[t]. -/
def sha2T1 (v : Sha2Vars) (k w : Word) : Word :=
  let mixed := rorPair 6 11 v.e ^^^ v.e.rotateRight 25
  let chosen := (v.e &&& v.f) ^^^ (~~~v.e &&& v.g)
  v.h + mixed + chosen + k + w

/-- T2 of R230, with S0(a) and Maj(a, b, c) written out. -/
def sha2T2 (v : Sha2Vars) : Word :=
  let mixed := rorPair 2 13 v.a ^^^ v.a.rotateRight 22
  let agreed := (v.a &&& v.b) ^^^ (v.a &&& v.c) ^^^ (v.b &&& v.c)
  mixed + agreed

/-- One round of R230: every variable moves down by one place, T1 + T2 enters at a and T1 is added on the way into e. -/
def sha2Round (v : Sha2Vars) (k w : Word) : Sha2Vars :=
  let fresh := sha2T1 v k w
  { a := fresh + sha2T2 v, b := v.a, c := v.b, d := v.c, e := v.d + fresh, f := v.e, g := v.f, h := v.g }

/-- W[t+16] from the list W[t] .. W[t+15] (R230), with s0 and s1 written out. -/
def sha2Extend (W : List Word) : Word :=
  let near := W.getD 1 0
  let far := W.getD 14 0
  W.getD 0 0 + (rorPair 7 18 near ^^^ (near >>> 3)) + W.getD 9 0 + (rorPair 17 19 far ^^^ (far >>> 10))

/-- The rounds of one block. The list holds W[t] .. W[t+15]: each round uses its head and appends W[t+16] (R230). -/
def sha2Rounds : List Word → List Word → Sha2Vars → Sha2Vars
  | [], _, v => v
  | k :: ks, W, v => sha2Rounds ks (W.drop 1 ++ [sha2Extend W]) (sha2Round v k (W.getD 0 0))

/-- The sixteen big-endian words of a 64-byte block (R230). -/
def sha2Words (block : Bytes) : List Word := (chunks 4 16 block).map fun c => BitVec.ofNat 32 (fromBE c)

/-- The hash value after one block (R230). -/
def sha2Block (H : Sha2Vars) (block : Bytes) : Sha2Vars :=
  let v := sha2Rounds sha2K (sha2Words block) H
  { a := H.a + v.a, b := H.b + v.b, c := H.c + v.c, d := H.d + v.d, e := H.e + v.e, f := H.f + v.f, g := H.g + v.g,
    h := H.h + v.h }

/-- The padded message P (R230): 0x80, the least number of zero bytes that makes the length a multiple of 64, and the bit
length in 8 bytes. -/
def sha2Pad (M : Bytes) : Bytes :=
  M ++ [0x80] ++ zeros ((119 - M.length % 64) % 64) ++ toByte (8 * M.length) 8

/-- H0 as the variables a to hh before the first block (R230). -/
def sha2Start : Sha2Vars :=
  let word := fun j => (sha2Line sha2H0).getD j 0
  { a := word 0, b := word 1, c := word 2, d := word 3, e := word 4, f := word 5, g := word 6, h := word 7 }

/-- SHA256(M) (R230). -/
def sha256 (M : Bytes) : Bytes :=
  let P := sha2Pad M
  let H := (chunks 64 (P.length / 64) P).foldl sha2Block sha2Start
  ([H.a, H.b, H.c, H.d, H.e, H.f, H.g, H.h].map fun w => toByte w.toNat 4).flatten

end Sys2Proof.Machine
end

