-- ==== Sys2Proof/Machine/CoreHash.lean ====
section
/-! DEFINITION. The derived hash functions (spec/42_derived_hash.md R250 to R256). -/

namespace Sys2Proof.Machine

/-- The two output sizes n of R8. -/
inductive NSize where
  | n32
  | n64
  deriving DecidableEq, Repr

/-- n in bytes (R8). -/
def NSize.bytes : NSize → Nat
  | .n32 => 32
  | .n64 => 64

/-- A supported (hash function, n) pair (R250): SHA2-256 only with n = 32. The unsupported pair cannot be written, so the
last line of R250's CoreHash has no counterpart here; the check that rejects the pair is R455's (Operands.lean). -/
inductive Suite where
  | sha2
  | shake128 (n : NSize)
  | shake256 (n : NSize)
  deriving DecidableEq, Repr

/-- The output size n of a pair, in bytes. -/
def Suite.n : Suite → Nat
  | .sha2 => 32
  | .shake128 s => s.bytes
  | .shake256 s => s.bytes

/-- The pair of a hash function with n = 32, which every key uses (R8, D12). -/
def HashFn.suite : HashFn → Suite
  | .sha2_256 => .sha2
  | .shake128 => .shake128 .n32
  | .shake256 => .shake256 .n32

/-- CoreHash(hf, t, K, X, n) (R250). -/
def coreHash (su : Suite) (t : Nat) (K X : Bytes) : Bytes :=
  let B := toByte t su.n ++ K ++ X
  match su with
  | .sha2 => sha256 B
  | .shake128 s => shake128 B s.bytes
  | .shake256 s => shake256 B s.bytes

/-- AdrsBytes(a): the eight words, each big-endian (R251). -/
def adrsBytes (a : Adrs) : Bytes := (a.toList.map fun w => toByte w.toNat 4).flatten

/-- SetW(a, j, v): word j replaced by u32(v) (R251). -/
def setW (a : Adrs) (j : Fin 8) (v : Nat) : Adrs := a.set j (BitVec.ofNat 32 v)

/-- PRF(hf, K, X, n): domain 3 (R252). -/
def prf (su : Suite) (K X : Bytes) : Bytes := coreHash su 3 K X

/-- The chain hash F(hf, P, a, X, n): domain 0 (R253). -/
def hashF (su : Suite) (P : Bytes) (a : Adrs) (X : Bytes) : Bytes :=
  let key := prf su P (adrsBytes (setW a 7 0))
  let mask := prf su P (adrsBytes (setW a 7 1))
  coreHash su 0 key (xorBytes X mask)

/-- The tree hash H(hf, P, a, X, n) over X = L || R: domain 1 (R254). -/
def hashH (su : Suite) (P : Bytes) (a : Adrs) (X : Bytes) : Bytes :=
  let key := prf su P (adrsBytes (setW a 7 0))
  let bm0 := prf su P (adrsBytes (setW a 7 1))
  let bm1 := prf su P (adrsBytes (setW a 7 2))
  coreHash su 1 key (xorBytes X (bm0 ++ bm1))

/-- Hmsg(hf, K, M, n) with len(K) = 3n: domain 2 (R255). -/
def hMsg (su : Suite) (K M : Bytes) : Bytes := coreHash su 2 K M

end Sys2Proof.Machine
end

