-- ==== Sys2Proof/Machine/Operands.lean ====
section
/-! DEFINITION. The operands of a command (spec/30_encoding.md R143, R150) and the checks on them that several commands
share (spec/20_memory.md R104, spec/60_exceptions.md R453, R455, spec/45_bds.md "Commands"). Every operand is read from the
latch, which the issue step filled (spec/40_control.md R172). -/

namespace Sys2Proof.Machine

/-- ARG i as an unsigned number (R32, R143). -/
def argN (s : State) (i : Fin 8) : Nat := (s.latch.arg.get i).toNat

/-- The address (ADRS0, …, ADRS7) (R34, R143). -/
def adrsArg (s : State) : Adrs := s.latch.adrs

/-- CFG.HASH_FN (R44). -/
def cfgHashFn (s : State) : BitVec 4 := s.latch.cfg.extractLsb 3 0

/-- n as CFG.N64 gives it (R44, R455). -/
def cfgN (s : State) : NSize := if s.latch.cfg.getLsbD 8 then .n64 else .n32

/-- KEYCFG.HASH_FN (R45). -/
def keycfgHashFn (s : State) : BitVec 4 := s.latch.keycfg.extractLsb 3 0
/-- KEYCFG.SIG_TYPE (R45). -/
def keycfgSigType (s : State) : BitVec 4 := s.latch.keycfg.extractLsb 7 4
/-- KEYCFG.HEIGHT (R45). -/
def keycfgHeight (s : State) : Nat := (s.latch.keycfg.extractLsb 15 8).toNat
/-- KEYCFG.ADDR_FMT (R45). -/
def keycfgAddrFmt (s : State) : BitVec 4 := s.latch.keycfg.extractLsb 19 16
/-- KEYCFG.BDS_K (R45). -/
def keycfgK (s : State) : Nat := (s.latch.keycfg.extractLsb 27 24).toNat
/-- KEYCFG.STRATEGY (R45). -/
def keycfgStrategy (s : State) : Strategy := if s.latch.keycfg.getLsbD 28 then .fast else .basic

/-- Range(ARG i, L), else BUFFER_RANGE(i), computed without wrap-around (R11, R104). -/
def rangeArg (s : State) (i : Fin 8) (L : Nat) : Result Unit :=
  check (argN s i + L ≤ s.build.buf.bytes) (.bufferRange i)

/-- MemRead(ARG i, L) (R11, R105). The order in which a meaning reads its inputs decides only which never-written byte the fault
U1 names; the spec fixes none (DESIGN CHOICE, log entry 17). -/
def readArg (s : State) (i : Fin 8) (L : Nat) : Result Bytes := s.buf.readBytes (argN s i) L

/-- MemWrite(ARG i, len(v), v) into the shadow copy (R11, R176). -/
def writeArg (s : State) (i : Fin 8) (v : Bytes) : State := s.writeBuf (argN s i) v

/-- The hash function of a HASH_FN code, else FAILED_CONVERSION(HASH_FUNCTION) (R44, R455). -/
def hashFnOf (c : BitVec 4) : Result HashFn :=
  match HashFn.ofCode c with
  | some hf => .ok hf
  | none => raise (.failedConversion .hashFunction)

/-- The supported pair of a hash function and n, else CONFIG_ERROR(HASH_N_PAIR) (R250, R455). -/
def suiteOf : HashFn → NSize → Result Suite
  | .sha2_256, .n32 => .ok .sha2
  | .sha2_256, .n64 => raise .configError
  | .shake128, n => .ok (.shake128 n)
  | .shake256, n => .ok (.shake256 n)

/-- The CFG checks (R455), and the hash function and n they establish. -/
def cfgSuite (s : State) : Result Suite := do
  let hf ← hashFnOf (cfgHashFn s)
  suiteOf hf (cfgN s)

/-- KEY_VALID = 1, else STATE_ERROR(NO_KEY) (R452). -/
def needKey (s : State) : Result Unit := check (s.key.valid = true) (.stateError .noKey)

/-- KEY.strategy = Fast, else STATE_ERROR(NOT_FAST) (R452). -/
def needFast (s : State) : Result Unit := check (s.key.strategy = .fast) (.stateError .notFast)

/-- KEY.strategy = Basic or BDS_SYNC = 1, else STATE_ERROR(BDS_DESYNC) (spec/46_xmss.md R416, R417). -/
def needSync (s : State) : Result Unit :=
  check (s.key.strategy = .basic ∨ s.bdsSync = true) (.stateError .bdsDesync)

end Sys2Proof.Machine
end

