-- ==== Sys2Proof/Machine/Wots.lean ====
section
/-! DEFINITION. The WOTS+ engine: its parameters (spec/00_scope.md R7), procedures (spec/43_wots.md R281 to R288) and
commands (R300 to R307). w = 16 throughout (R8). -/

namespace Sys2Proof.Machine

/-- len1 = ceil(8n / log_w), with log_w = 4 (R7). -/
def wotsLen1 (n : Nat) : Nat := (8 * n + 3) / 4

/-- len2 = floor(log2(len1 (w - 1)) / log_w) + 1 (R7). -/
def wotsLen2 (n : Nat) : Nat := Nat.log2 (wotsLen1 n * 15) / 4 + 1

/-- len = len1 + len2 (R7). -/
def wotsLen (n : Nat) : Nat := wotsLen1 n + wotsLen2 n

/-- The two base-16 digits of a byte, most significant first. -/
def nibbles (b : Byte) : List Nat := [b.toNat / 16, b.toNat % 16]

/-- BaseW(X, out_len): the first out_len base-16 digits of X, most significant nibble first (R281). -/
def baseW (X : Bytes) (outLen : Nat) : List Nat := (X.flatMap nibbles).take outLen

/-- The checksum of message digits, Σ (15 - D1[i]) (R282). -/
def wotsChecksum (D1 : List Nat) : Nat := (D1.map fun d => 15 - d).sum

/-- Digits(M, n): the len1 message digits, then the len2 digits of the byte-aligned checksum (R282). -/
def wotsDigits (M : Bytes) (n : Nat) : List Nat :=
  let D1 := baseW M (wotsLen1 n)
  let len2 := wotsLen2 n
  let csum := wotsChecksum D1 <<< (8 - (len2 * 4) % 8)
  let C := toByte csum ((len2 * 4 + 7) / 8)
  D1 ++ baseW C len2

/-- ExpandSeed(hf, S, n): chunk i is PRF(hf, S, toByte(i, 32), n) (R283). -/
def expandSeed (su : Suite) (S : Bytes) : List Bytes :=
  (List.range (wotsLen su.n)).map fun i => prf su S (toByte i 32)

/-- GenChain(hf, X, s, t, P, a, n): one F per rung i with s ≤ i < min(s + t, 15), under hash field i (R284). -/
def genChain (su : Suite) (X : Bytes) (s t : Nat) (P : Bytes) (a : Adrs) : Bytes :=
  (List.range' s (min (s + t) 15 - s)).foldl (fun x i => hashF su P (setW a 6 i) x) X

/-- OtsSeed(hf, SK, a, n) (R285). -/
def otsSeed (su : Suite) (SK : Bytes) (a : Adrs) : Bytes :=
  prf su SK (adrsBytes (setW (setW (setW a 5 0) 6 0) 7 0))

/-- Runs chain i of each chunk from rung start(i) for steps(i), under chain index i (R286 to R288). -/
def runChains (su : Suite) (P : Bytes) (a : Adrs) (start steps : Nat → Nat) (xs : List Bytes) : List Bytes :=
  xs.mapIdx fun i x => genChain su x (start i) (steps i) P (setW a 5 i)

/-- WotsPkgen(hf, S, P, a, n): every chain from rung 0 to rung 15 (R286). -/
def wotsPkgen (su : Suite) (S P : Bytes) (a : Adrs) : List Bytes :=
  runChains su P a (fun _ => 0) (fun _ => 15) (expandSeed su S)

/-- WotsSign(hf, M, S, P, a, n): chain i from rung 0 for D[i] steps (R287). -/
def wotsSign (su : Suite) (M S P : Bytes) (a : Adrs) : List Bytes :=
  let D := wotsDigits M su.n
  runChains su P a (fun _ => 0) (fun i => D.getD i 0) (expandSeed su S)

/-- WotsPkFromSig(hf, Sig, M, P, a, n): chain i from rung D[i] for the remaining 15 - D[i] steps (R288). -/
def wotsPkFromSig (su : Suite) (Sig : List Bytes) (M P : Bytes) (a : Adrs) : List Bytes :=
  let D := wotsDigits M su.n
  runChains su P a (fun i => D.getD i 0) (fun i => 15 - D.getD i 0) Sig

/-- Digits as bytes, one digit a byte (R302, R303). -/
def digitBytes (D : List Nat) : Bytes := D.map fun d => BitVec.ofNat 8 d

/-- WOTS_EXPAND_SEED (R300). -/
def execWotsExpandSeed (s : State) : Host.Outcome State Fault Refusal := finish s do
  let su ← cfgSuite s
  rangeArg s 0 (wotsLen su.n * su.n)
  rangeArg s 4 su.n
  let S ← readArg s 4 su.n
  pure (writeArg s 0 (expandSeed su S).flatten)

/-- WOTS_GEN_CHAIN (R301). Inputs in rising ARG order, where the pseudocode names ARG2 last (DESIGN CHOICE, log entry 17). -/
def execWotsGenChain (s : State) : Host.Outcome State Fault Refusal := finish s do
  let su ← cfgSuite s
  rangeArg s 0 su.n
  rangeArg s 2 su.n
  rangeArg s 4 su.n
  let P ← readArg s 2 su.n
  let X ← readArg s 4 su.n
  pure (writeArg s 0 (genChain su X (argN s 1) (argN s 3) P (adrsArg s)))

/-- WOTS_BASE_W (R302). CFG is not read. -/
def execWotsBaseW (s : State) : Host.Outcome State Fault Refusal := finish s do
  check ((argN s 3 + 1) / 2 ≤ argN s 5) (.invalidArgument .operand)
  rangeArg s 0 (argN s 3)
  rangeArg s 4 (argN s 5)
  let X ← readArg s 4 (argN s 5)
  pure (writeArg s 0 (digitBytes (baseW X (argN s 3))))

/-- WOTS_DIGITS (R303). Only CFG.N64 is read. -/
def execWotsDigits (s : State) : Host.Outcome State Fault Refusal := finish s do
  let n := (cfgN s).bytes
  rangeArg s 0 (wotsLen n)
  rangeArg s 4 n
  let M ← readArg s 4 n
  pure (writeArg s 0 (digitBytes (wotsDigits M n)))

/-- WOTS_PKGEN (R304). Inputs in rising ARG order, where the pseudocode names ARG2 last (DESIGN CHOICE, log entry 17). -/
def execWotsPkgen (s : State) : Host.Outcome State Fault Refusal := finish s do
  let su ← cfgSuite s
  rangeArg s 0 (wotsLen su.n * su.n)
  rangeArg s 2 su.n
  rangeArg s 4 su.n
  let P ← readArg s 2 su.n
  let S ← readArg s 4 su.n
  pure (writeArg s 0 (wotsPkgen su S P (adrsArg s)).flatten)

/-- WOTS_SIGN (R305). Inputs in rising ARG order, where the pseudocode names ARG2 last (DESIGN CHOICE, log entry 17). -/
def execWotsSign (s : State) : Host.Outcome State Fault Refusal := finish s do
  let su ← cfgSuite s
  rangeArg s 0 (wotsLen su.n * su.n)
  rangeArg s 2 su.n
  rangeArg s 4 su.n
  rangeArg s 5 su.n
  let P ← readArg s 2 su.n
  let S ← readArg s 4 su.n
  let M ← readArg s 5 su.n
  pure (writeArg s 0 (wotsSign su M S P (adrsArg s)).flatten)

/-- WOTS_PK_FROM_SIG (R306). Inputs in rising ARG order, where the pseudocode names ARG2 last (DESIGN CHOICE, log entry 17). -/
def execWotsPkFromSig (s : State) : Host.Outcome State Fault Refusal := finish s do
  let su ← cfgSuite s
  let len := wotsLen su.n
  rangeArg s 0 (len * su.n)
  rangeArg s 2 su.n
  rangeArg s 4 (len * su.n)
  rangeArg s 5 su.n
  let P ← readArg s 2 su.n
  let Sig ← readArg s 4 (len * su.n)
  let M ← readArg s 5 su.n
  pure (writeArg s 0 (wotsPkFromSig su (chunks su.n len Sig) M P (adrsArg s)).flatten)

/-- OTS_SEED (R307). -/
def execOtsSeed (s : State) : Host.Outcome State Fault Refusal := finish s do
  let su ← cfgSuite s
  rangeArg s 0 su.n
  rangeArg s 4 su.n
  let SK ← readArg s 4 su.n
  pure (writeArg s 0 (otsSeed su SK (adrsArg s)))

end Sys2Proof.Machine
end

