-- ==== Sys2Proof/Machine/Tree.lean ====
section
/-! DEFINITION. The Tree Builder: L-trees, leaves, treehash, authentication paths (spec/44_tree.md R320 to R327) and its
commands (R330 to R334). -/

namespace Sys2Proof.Machine

/-- The base address of a tree: layer and the two halves of the tree number (spec/44, introduction). -/
structure TreeBase where
  layer  : Word
  treeHi : Word
  treeLo : Word
  deriving DecidableEq, Repr

/-- The base (0, 0, 0) of every key's tree. -/
def keyBase : TreeBase := { layer := 0, treeHi := 0, treeLo := 0 }

/-- The tree (hf, SK, P, base) of R325, n being the hash pair's. -/
structure TreeCtx where
  su   : Suite
  sk   : Bytes
  pub  : Bytes
  base : TreeBase
  deriving DecidableEq, Repr

/-- The address of the given type with words 4 to 7 as given (R34). -/
def treeAdrs (b : TreeBase) (type : Word) (w4 w5 w6 : Nat) : Adrs :=
  ⟨#[ b.layer, b.treeHi, b.treeLo, type, BitVec.ofNat 32 w4, BitVec.ofNat 32 w5, BitVec.ofNat 32 w6, 0 ], rfl⟩

/-- One level of an L-tree at height ht, from node index i on: neighbours are hashed, an odd last chunk is carried up
(R320). -/
def lTreeLevel (su : Suite) (P : Bytes) (a : Adrs) (ht : Nat) : Nat → List Bytes → List Bytes
  | i, x :: y :: rest => hashH su P (setW (setW a 5 ht) 6 i) (x ++ y) :: lTreeLevel su P a ht (i + 1) rest
  | _, [x] => [x]
  | _, [] => []

/-- The rounds of LTree (R320), at most `fuel` of them. -/
def lTreeRounds (su : Suite) (P : Bytes) (a : Adrs) : Nat → Nat → List Bytes → Bytes
  | 0, _, v => v.headD []
  | fuel + 1, ht, v =>
    if v.length ≤ 1 then v.headD [] else lTreeRounds su P a fuel (ht + 1) (lTreeLevel su P a ht 0 v)

/-- LTree(hf, pk, P, a, n) (R320). A round at least shortens the list by one, so len rounds reach one chunk. -/
def lTree (su : Suite) (pk : List Bytes) (P : Bytes) (a : Adrs) : Bytes := lTreeRounds su P a pk.length 0 pk

/-- GenLeaf(hf, SK, P, base, i, n) (R321). -/
def genLeaf (c : TreeCtx) (i : Nat) : Bytes :=
  let ots := treeAdrs c.base 0 i 0 0
  let lt := treeAdrs c.base 1 i 0 0
  let seed := otsSeed c.su c.sk ots
  lTree c.su (wotsPkgen c.su seed c.pub ots) c.pub lt

/-- NodeAddr(base, j, i) (R322). -/
def nodeAddr (b : TreeBase) (j i : Nat) : Adrs := treeAdrs b 2 0 j i

/-- Node(j, i) (R325). -/
def treeNode (c : TreeCtx) : Nat → Nat → Bytes
  | 0, i => genLeaf c i
  | j + 1, i => hashH c.su c.pub (nodeAddr c.base j i) (treeNode c j (2 * i) ++ treeNode c j (2 * i + 1))

/-- The inner loop of Treehash (R323): a node of height nh meets the stack, whose head is its top. -/
def treehashPush (c : TreeCtx) (idx : Nat) : Bytes → Nat → List (Bytes × Nat) → List (Bytes × Nat)
  | node, nh, [] => [(node, nh)]
  | node, nh, (top, ht) :: rest =>
    if ht = nh then
      treehashPush c idx (hashH c.su c.pub (nodeAddr c.base nh (idx >>> (nh + 1))) (top ++ node)) (nh + 1) rest
    else (node, nh) :: (top, ht) :: rest

/-- Treehash(hf, SK, P, base, ht, s, n) (R323). -/
def treehash (c : TreeCtx) (ht s : Nat) : Bytes :=
  let stack := (List.range' s (2 ^ ht)).foldl (fun st idx => treehashPush c idx (genLeaf c idx) 0 st) []
  (stack.headD ([], 0)).1

/-- AuthPath(hf, SK, P, base, h, i, n): auth[j] = Node(j, (i >> j) xor 1) (R326). -/
def authPath (c : TreeCtx) (h i : Nat) : List Bytes :=
  (List.range h).map fun j => treeNode c j ((i >>> j) ^^^ 1)

/-- The fold of RootFromAuth from level j on (R327). -/
def rootFold (su : Suite) (P : Bytes) (b : TreeBase) (i : Nat) : Nat → Bytes → List Bytes → Bytes
  | _, node, [] => node
  | j, node, sib :: auth =>
    let X := if (i >>> j) % 2 = 0 then node ++ sib else sib ++ node
    rootFold su P b i (j + 1) (hashH su P (nodeAddr b j (i >>> (j + 1))) X) auth

/-- RootFromAuth(hf, P, base, h, i, L, auth, n), h being the length of auth (R327). -/
def rootFromAuth (su : Suite) (P : Bytes) (b : TreeBase) (i : Nat) (L : Bytes) (auth : List Bytes) : Bytes :=
  rootFold su P b i 0 L auth

/-- The base of a tree command: (ADRS0, ADRS1, ADRS2). -/
def baseArg (s : State) : TreeBase :=
  { layer := (adrsArg s).get 0, treeHi := (adrsArg s).get 1, treeLo := (adrsArg s).get 2 }

/-- L_TREE (R330). Inputs in rising ARG order, where the pseudocode names ARG2 last (DESIGN CHOICE, log entry 17). -/
def execLTree (s : State) : Host.Outcome State Fault Refusal := finish s do
  let su ← cfgSuite s
  let len := wotsLen su.n
  rangeArg s 0 su.n
  rangeArg s 2 su.n
  rangeArg s 4 (len * su.n)
  let P ← readArg s 2 su.n
  let pk ← readArg s 4 (len * su.n)
  pure (writeArg s 0 (lTree su (chunks su.n len pk) P (adrsArg s)))

/-- GEN_LEAF (R331). Inputs in rising ARG order, where the pseudocode names ARG2 last (DESIGN CHOICE, log entry 17). -/
def execGenLeaf (s : State) : Host.Outcome State Fault Refusal := finish s do
  let su ← cfgSuite s
  rangeArg s 0 su.n
  rangeArg s 2 su.n
  rangeArg s 4 su.n
  let P ← readArg s 2 su.n
  let SK ← readArg s 4 su.n
  pure (writeArg s 0 (genLeaf { su := su, sk := SK, pub := P, base := baseArg s } (argN s 1)))

/-- TREEHASH (R332). Its second check is made in two parts, so that 2^ht is formed only for ht ≤ 32. Inputs in rising
ARG order, where the pseudocode names ARG2 last (DESIGN CHOICE, log entry 17). -/
def execTreehash (s : State) : Host.Outcome State Fault Refusal := finish s do
  let su ← cfgSuite s
  let start := argN s 1
  let ht := argN s 3
  check (ht ≤ 32) (.invalidArgument .operand)
  check (start % 2 ^ ht = 0) (.invalidArgument .operand)
  check (start + 2 ^ ht ≤ 2 ^ 32) (.invalidArgument .operand)
  check (ht ≤ s.build.hMax) (.capacity .height)
  rangeArg s 0 su.n
  rangeArg s 2 su.n
  rangeArg s 4 su.n
  let P ← readArg s 2 su.n
  let SK ← readArg s 4 su.n
  pure (writeArg s 0 (treehash { su := su, sk := SK, pub := P, base := baseArg s } ht start))

/-- AUTHPATH (R333): the path, then the root. -/
def execAuthpath (s : State) : Host.Outcome State Fault Refusal := finish s do
  let su ← cfgSuite s
  let i := argN s 1
  let ht := argN s 3
  check (1 ≤ ht ∧ ht ≤ 32) (.invalidArgument .height)
  check (i < 2 ^ ht) (.invalidArgument .indexRange)
  check (ht ≤ s.build.hMax) (.capacity .height)
  rangeArg s 0 ((ht + 1) * su.n)
  rangeArg s 2 su.n
  rangeArg s 4 su.n
  let P ← readArg s 2 su.n
  let SK ← readArg s 4 su.n
  let c : TreeCtx := { su := su, sk := SK, pub := P, base := baseArg s }
  pure (writeArg s 0 ((authPath c ht i).flatten ++ treeNode c ht 0))

/-- ROOT_FROM_AUTH (R334). -/
def execRootFromAuth (s : State) : Host.Outcome State Fault Refusal := finish s do
  let su ← cfgSuite s
  let i := argN s 1
  let ht := argN s 3
  check (1 ≤ ht ∧ ht ≤ 32) (.invalidArgument .height)
  check (i < 2 ^ ht) (.invalidArgument .indexRange)
  rangeArg s 0 su.n
  rangeArg s 2 su.n
  rangeArg s 4 su.n
  rangeArg s 5 (ht * su.n)
  let P ← readArg s 2 su.n
  let L ← readArg s 4 su.n
  let auth ← readArg s 5 (ht * su.n)
  pure (writeArg s 0 (rootFromAuth su P (baseArg s) i L (chunks su.n ht auth)))

end Sys2Proof.Machine
end

