-- ==== Sys2Proof/Machine/Bds.lean ====
section
/-! DEFINITION. The BDS state machine: its shape and reset (spec/10_state.md R56, R58, spec/45_bds.md R350), its procedures
(R355 to R360) and its commands (R370 to R374). Reads inside a procedure see its own earlier writes (spec/40 R176). -/

namespace Sys2Proof.Machine

/-- The reset BDS state at the shape of a key (h, k) (R56, R58, R350). -/
def freshBds (h k : Nat) : Bds :=
  { stack := List.replicate (h + 1) (zeros 32)
    stackLevels := List.replicate (h + 1) 0
    stackOffset := 0
    auth := List.replicate h (zeros 32)
    keep := List.replicate (h / 2) (zeros 32)
    th := (List.range (h - k)).map fun i =>
      { h := i, nextIdx := 0, stackUsage := 0, completed := false, node := zeros 32 }
    retain := List.replicate (2 ^ k - k - 1) (zeros 32) }

/-- What the procedures read of the key: its tree (n = 32, base (0, 0, 0)), h and k. -/
structure BdsCtx where
  tree : TreeCtx
  h    : Nat
  k    : Nat
  deriving DecidableEq, Repr

/-- The tree a key's seeds define (spec/44 R325). -/
def keyTree (key : KeyStore) : TreeCtx :=
  { su := key.hf.suite, sk := key.skSeed, pub := key.pubSeed, base := keyBase }

/-- The loaded key as the procedures of spec/45 use it. -/
def keyBds (key : KeyStore) : BdsCtx := { tree := keyTree key, h := key.h.toNat, k := key.k.toNat }

/-- NodeAddr(j, i) and H under it, at base (0, 0, 0). -/
def bdsHash (c : BdsCtx) (j i : Nat) (X : Bytes) : Bytes := hashH c.tree.su c.tree.pub (nodeAddr c.tree.base j i) X

/-- Leaf(i). -/
def bdsLeaf (c : BdsCtx) (i : Nat) : Bytes := genLeaf c.tree i

/-- A node of a list of nodes. -/
def nodeAt (xs : List Bytes) (i : Nat) : Bytes := xs.getD i []

/-- Instance th[t]. -/
def instAt (b : Bds) (t : Nat) : TreehashInst :=
  b.th.getD t { h := t, nextIdx := 0, stackUsage := 0, completed := true, node := [] }

/-- The retain slot of the node of height j and odd index i ≥ 3 (R355, R359). -/
def retainSlot (h j i : Nat) : Nat := (1 <<< (h - 1 - j)) + j - h + ((i - 3) >>> 1)

/-- What BdsSetup keeps of the node of height j and index i that a merge takes from the top of its stack (R355). -/
def setupSnapshot (c : BdsCtx) (b : Bds) (j i : Nat) (top : Bytes) : Bds :=
  if i = 1 then { b with auth := b.auth.set j top }
  else if j < c.h - c.k ∧ i = 3 then { b with th := b.th.set j { instAt b j with node := top } }
  else if c.h - c.k ≤ j then { b with retain := b.retain.set (retainSlot c.h j i) top }
  else b

/-- The inner loop of BdsSetup: the node of height nh on top of the local stack meets the entries below it (R355). -/
def setupPush (c : BdsCtx) (idx : Nat) :
    Bds → Bytes → Nat → List (Bytes × Nat) → Bds × List (Bytes × Nat)
  | b, node, nh, [] => (b, [(node, nh)])
  | b, node, nh, (below, hb) :: rest =>
    if hb = nh then
      setupPush c idx (setupSnapshot c b nh (idx >>> nh) node) (bdsHash c nh (idx >>> (nh + 1)) (below ++ node)) (nh + 1) rest
    else (b, (node, nh) :: (below, hb) :: rest)

/-- BdsSetup: the state it leaves and the root it returns (R355). -/
def bdsSetup (c : BdsCtx) (b : Bds) : Bds × Bytes :=
  let b := { b with th := b.th.mapIdx fun i t => { t with h := i, completed := true, stackUsage := 0 } }
  let r := (List.range (2 ^ c.h)).foldl (fun st idx => setupPush c idx st.1 (bdsLeaf c idx) 0 st.2) (b, [])
  (r.1, (r.2.headD ([], 0)).1)

/-- The fold loop of ThUpdate: while the instance holds a slot and the top slot has the node's height, fold it in. The four
results are the node, its height, the instance's stackusage and stackoffset (R356). -/
def thFold (c : BdsCtx) (b : Bds) (idx : Nat) : Nat → Bytes → Nat → Nat → Bytes × Nat × Nat × Nat
  | 0, node, nh, so => (node, nh, 0, so)
  | su + 1, node, nh, so =>
    if b.stackLevels.getD (so - 1) 0 = nh then
      thFold c b idx su (bdsHash c nh (idx >>> (nh + 1)) (nodeAt b.stack (so - 1) ++ node)) (nh + 1) (so - 1)
    else (node, nh, su + 1, so)

/-- ThUpdate(t) (R356). -/
def thUpdate (c : BdsCtx) (b : Bds) (t : Nat) : Result Bds :=
  let I := instAt b t
  if 2 ^ c.h ≤ I.nextIdx then raise (.stateError .bdsDesync)
  else
    let (node, nh, su, so) := thFold c b I.nextIdx I.stackUsage (bdsLeaf c I.nextIdx) 0 b.stackOffset
    if nh = I.h then
      .ok { b with th := b.th.set t { I with node := node, completed := true, stackUsage := su }, stackOffset := so }
    else if so = c.h + 1 then raise (.stateError .bdsStackFull)
    else
      .ok { b with
            stack := b.stack.set so node
            stackLevels := b.stackLevels.set so nh
            stackOffset := so + 1
            th := b.th.set t { I with stackUsage := su + 1, nextIdx := I.nextIdx + 1 } }

/-- MinHeight(t): the smallest height tag among the instance's slots, h if it holds none (R357). -/
def minHeight (c : BdsCtx) (b : Bds) (t : Nat) : Nat :=
  (List.range (instAt b t).stackUsage).foldl (fun r i => min r (b.stackLevels.getD (b.stackOffset - 1 - i) 0)) c.h

/-- The rank of an instance: h when it is completed, its level when its stack is empty, else its MinHeight (R358). -/
def thRank (c : BdsCtx) (b : Bds) (i : Nat) : Nat :=
  if (instAt b i).completed then c.h
  else if (instAt b i).stackUsage = 0 then i
  else minHeight c b i

/-- The instance of lowest rank below h, the lowest index among equals; none if every rank is h (R358). -/
def bestInst (c : BdsCtx) (b : Bds) : Option Nat :=
  ((List.range (c.h - c.k)).foldl
    (fun (best : Option Nat × Nat) i => if thRank c b i < best.2 then (some i, thRank c b i) else best) (none, c.h)).1

/-- BdsThUpdate(count), with `used` updates made so far: the state, the updates left unused and the updates made (R358). -/
def bdsThUpdate (c : BdsCtx) : Nat → Nat → Bds → Result (Bds × Nat × Nat)
  | 0, used, b => .ok (b, 0, used)
  | count + 1, used, b =>
    match bestInst c b with
    | none => .ok (b, count + 1, used)
    | some t =>
      match thUpdate c b t with
      | .error e => .error e
      | .ok b' => bdsThUpdate c count (used + 1) b'

/-- tau: the least j below h whose bit of i is 0 (R359); h itself if there is none, which i < 2^h - 1 excludes. -/
def bdsTau (h i : Nat) : Nat := ((List.range h).find? fun j => (i >>> j) % 2 == 0).getD h

/-- The path update of BdsRound for one level j < tau (R359). -/
def roundPull (c : BdsCtx) (b : Bds) (i j : Nat) : Bytes :=
  if j < c.h - c.k then (instAt b j).node
  else nodeAt b.retain ((1 <<< (c.h - 1 - j)) + j - c.h + (((i >>> j) - 1) >>> 1))

/-- The instance reset of BdsRound for one level j (R359). -/
def roundReset (c : BdsCtx) (i : Nat) (b : Bds) (j : Nat) : Bds :=
  let start := i + 1 + 3 * 2 ^ j
  if start < 2 ^ c.h then
    { b with th := b.th.set j { instAt b j with h := j, nextIdx := start, completed := false, stackUsage := 0 } }
  else b

/-- BdsRound(i), for i < 2^h - 1: the state and tau (R359). -/
def bdsRound (c : BdsCtx) (b : Bds) (i : Nat) : Bds × Nat :=
  let tau := bdsTau c.h i
  let buf := nodeAt b.auth (tau - 1) ++ nodeAt b.keep ((tau - 1) >>> 1)
  let b :=
    if (i >>> (tau + 1)) % 2 = 0 ∧ tau < c.h - 1 then
      { b with keep := b.keep.set (tau >>> 1) (nodeAt b.auth tau) }
    else b
  if tau = 0 then ({ b with auth := b.auth.set 0 (bdsLeaf c i) }, tau)
  else
    let b := { b with auth := b.auth.set tau (bdsHash c (tau - 1) (i >>> tau) buf) }
    let b := (List.range tau).foldl (fun b j => { b with auth := b.auth.set j (roundPull c b i j) }) b
    let b := (List.range (min tau (c.h - c.k))).foldl (roundReset c i) b
    (b, tau)

/-- BdsStep(i): BdsRound(i), then BdsThUpdate((h - k)/2) (R360). -/
def bdsStep (c : BdsCtx) (b : Bds) (i : Nat) : Result Bds :=
  match bdsThUpdate c ((c.h - c.k) / 2) 0 (bdsRound c b i).1 with
  | .ok r => .ok r.1
  | .error e => .error e

/-- BdsStep(t) for t = i, …, i + m - 1 in increasing order (spec/46 R416). -/
def bdsSteps (c : BdsCtx) : Nat → Nat → Bds → Result Bds
  | 0, _, b => .ok b
  | m + 1, i, b =>
    match bdsStep c b i with
    | .ok b' => bdsSteps c m (i + 1) b'
    | .error e => .error e

/-- The export size E (R372). -/
def exportSize (h k : Nat) : Nat := 5 + 121 * h + 32 * 2 ^ k - 72 * k

/-- The 40-byte record of one instance (R372). -/
def thRecord (t : TreehashInst) : Bytes :=
  toByte t.h 1 ++ [if t.completed then 1 else 0] ++ toByte t.stackUsage 1 ++ [0] ++ toByte t.nextIdx 4 ++ t.node

/-- Export(BDS): the layout of R372. -/
def bdsExport (c : BdsCtx) (sync : Bool) (b : Bds) : Bytes :=
  toByte c.h 1 ++ toByte c.k 1 ++ toByte b.stackOffset 1 ++ [if sync then 1 else 0] ++
  ((List.range (c.h + 1)).flatMap fun i => if i < b.stackOffset then toByte (b.stackLevels.getD i 0) 1 else [0]) ++
  ((List.range (c.h + 1)).flatMap fun i => if i < b.stackOffset then nodeAt b.stack i else zeros 32) ++
  ((List.range c.h).flatMap fun i => nodeAt b.auth i) ++
  ((List.range (c.h / 2)).flatMap fun i => nodeAt b.keep i) ++
  ((List.range (c.h - c.k)).flatMap fun i => thRecord (instAt b i)) ++
  ((List.range (2 ^ c.k - c.k - 1)).flatMap fun i => nodeAt b.retain i)

/-- BDS_SETUP (R370). -/
def execBdsSetup (s : State) : Host.Outcome State Fault Refusal := finish s do
  needKey s
  needFast s
  check (s.key.idx = 0) (.stateError .keyIndexNonzero)
  let c := keyBds s.key
  pure { s with bds := (bdsSetup c (freshBds c.h c.k)).1, bdsSync := true }

/-- BDS_ROUND (R371). -/
def execBdsRound (s : State) : Host.Outcome State Fault Refusal := finish s do
  needKey s
  needFast s
  let i := argN s 1
  check (i < 2 ^ s.key.h.toNat - 1) (.invalidArgument .indexRange)
  let r := bdsRound (keyBds s.key) s.bds i
  pure (State.withRes0 { s with bds := r.1, bdsSync := false } r.2)

/-- TREEHASH_UPDATE (R373). -/
def execTreehashUpdate (s : State) : Host.Outcome State Fault Refusal := finish s do
  needKey s
  needFast s
  let t := argN s 1
  check (t < s.key.h.toNat - s.key.k.toNat) (.invalidArgument .operand)
  check ((instAt s.bds t).completed = false) (.stateError .instanceCompleted)
  let b ← thUpdate (keyBds s.key) s.bds t
  pure { s with bds := b, bdsSync := false }

/-- BDS_TREEHASH_UPDATE (R374). -/
def execBdsTreehashUpdate (s : State) : Host.Outcome State Fault Refusal := finish s do
  needKey s
  needFast s
  let r ← bdsThUpdate (keyBds s.key) (argN s 3) 0 s.bds
  pure (({ s with bds := r.1, bdsSync := false }.withRes0 r.2.1).withRes1 r.2.2)

/-- BDS_EXPORT (R372). -/
def execBdsExport (s : State) : Host.Outcome State Fault Refusal := finish s do
  needKey s
  needFast s
  let c := keyBds s.key
  let size := exportSize c.h c.k
  rangeArg s 0 size
  pure ((writeArg s 0 (bdsExport c s.bdsSync s.bds)).withRes0 size)

end Sys2Proof.Machine
end

