-- ==== Sys2Proof/Machine/Control.lean ====
section
/-! DEFINITION. The control commands NOP and KEY_CLEAR (spec/40_control.md R180, R181). -/

namespace Sys2Proof.Machine

/-- The empty key store: KEY_VALID = 0 and every field 0 (R54, R181). -/
def clearedKey : KeyStore :=
  { valid := false, hf := .sha2_256, sigType := 0, addrFmt := 0, h := 0, k := 0, strategy := .basic, idx := 0,
    skSeed := zeros 32, skPrf := zeros 32, pubSeed := zeros 32, root := zeros 32, rawSeed := zeros 48 }

/-- NOP (R180). -/
def execNop (s : State) : Host.Outcome State Fault Refusal := finish s (pure s)

/-- KEY_CLEAR (R181). BUF, KS and SP are unchanged. -/
def execKeyClear (s : State) : Host.Outcome State Fault Refusal := finish s do
  pure { s with key := clearedKey, bds := freshBds 0 0, bdsSync := false }

end Sys2Proof.Machine
end

