-- ==== Sys2Proof/Machine/HashDerived.lean ====
section
/-! DEFINITION. The derived-hash commands CORE_HASH, PRF, HASH_F, HASH_H and H_MSG (spec/42_derived_hash.md R260 to R264). -/

namespace Sys2Proof.Machine

/-- CORE_HASH (R260). -/
def execCoreHash (s : State) : Host.Outcome State Fault Refusal := finish s do
  let su ← cfgSuite s
  rangeArg s 0 su.n
  rangeArg s 2 (argN s 3)
  rangeArg s 4 (argN s 5)
  let K ← readArg s 2 (argN s 3)
  let X ← readArg s 4 (argN s 5)
  pure (writeArg s 0 (coreHash su (argN s 1) K X))

/-- PRF (R261). -/
def execPrf (s : State) : Host.Outcome State Fault Refusal := finish s do
  let su ← cfgSuite s
  rangeArg s 0 su.n
  rangeArg s 2 su.n
  rangeArg s 4 32
  let K ← readArg s 2 su.n
  let X ← readArg s 4 32
  pure (writeArg s 0 (prf su K X))

/-- HASH_F (R262). -/
def execHashF (s : State) : Host.Outcome State Fault Refusal := finish s do
  let su ← cfgSuite s
  rangeArg s 0 su.n
  rangeArg s 2 su.n
  rangeArg s 4 su.n
  let P ← readArg s 2 su.n
  let X ← readArg s 4 su.n
  pure (writeArg s 0 (hashF su P (adrsArg s) X))

/-- HASH_H (R263). -/
def execHashH (s : State) : Host.Outcome State Fault Refusal := finish s do
  let su ← cfgSuite s
  rangeArg s 0 su.n
  rangeArg s 2 su.n
  rangeArg s 4 (2 * su.n)
  let P ← readArg s 2 su.n
  let X ← readArg s 4 (2 * su.n)
  pure (writeArg s 0 (hashH su P (adrsArg s) X))

/-- H_MSG (R264). -/
def execHMsg (s : State) : Host.Outcome State Fault Refusal := finish s do
  let su ← cfgSuite s
  check (argN s 3 = 3 * su.n) (.invalidArgument .lengthMismatch)
  rangeArg s 0 su.n
  rangeArg s 2 (3 * su.n)
  rangeArg s 4 (argN s 5)
  let K ← readArg s 2 (3 * su.n)
  let M ← readArg s 4 (argN s 5)
  pure (writeArg s 0 (hMsg su K M))

end Sys2Proof.Machine
end

