-- ==== Sys2Proof/Machine/HashPrim.lean ====
section
/-! DEFINITION. The Hash Core primitives: KECCAK_F, the SPONGE_* commands, SHAKE128, SHAKE256 and SHA256
(spec/41_keccak_sha.md R210 to R235). Only the first four touch KS and SP (R61). -/

namespace Sys2Proof.Machine

/-- KECCAK_F (R210). SP is unchanged. -/
def execKeccakF (s : State) : Host.Outcome State Fault Refusal := finish s do
  pure { s with ks := keccakF s.ks }

/-- SPONGE_INIT (R215). -/
def execSpongeInit (sel : RateSel) (s : State) : Host.Outcome State Fault Refusal := finish s do
  pure { s with ks := zeroLanes, sp := { phase := .absorb, rate := sel, pos := 0 } }

/-- SPONGE_ABSORB (R216). -/
def execSpongeAbsorb (s : State) : Host.Outcome State Fault Refusal := finish s do
  check (s.sp.phase = .absorb) (.stateError .spongePhase)
  rangeArg s 0 (argN s 1)
  let M ← readArg s 0 (argN s 1)
  let r := absorbStream (rateOf s.sp.rate) s.ks s.sp.pos M
  pure { s with ks := r.1, sp := { s.sp with pos := r.2 } }

/-- The first part of SPONGE_SQUEEZE (R217): in the ABSORB phase, pad and permute. The state and position squeezing starts
from. -/
def squeezeStart (ks : Lanes) (sp : SpongeCtl) : Lanes × Nat :=
  if sp.phase = .absorb then (keccakF (padState (rateOf sp.rate) ks sp.pos), 0) else (ks, sp.pos)

/-- SPONGE_SQUEEZE (R217). -/
def execSpongeSqueeze (s : State) : Host.Outcome State Fault Refusal := finish s do
  check (s.sp.phase ≠ .idle) (.stateError .spongePhase)
  rangeArg s 0 (argN s 1)
  let start := squeezeStart s.ks s.sp
  let r := squeezeStream (rateOf s.sp.rate) (argN s 1) start.1 start.2
  pure (writeArg { s with ks := r.1, sp := { s.sp with phase := .squeeze, pos := r.2.1 } } 0 r.2.2)

/-- SHAKE128 (R220). -/
def execShake128 (s : State) : Host.Outcome State Fault Refusal := finish s do
  rangeArg s 0 (argN s 1)
  rangeArg s 2 (argN s 3)
  let M ← readArg s 2 (argN s 3)
  pure (writeArg s 0 (shake128 M (argN s 1)))

/-- SHAKE256 (R221). -/
def execShake256 (s : State) : Host.Outcome State Fault Refusal := finish s do
  rangeArg s 0 (argN s 1)
  rangeArg s 2 (argN s 3)
  let M ← readArg s 2 (argN s 3)
  pure (writeArg s 0 (shake256 M (argN s 1)))

/-- SHA256 (R235). -/
def execSha256 (s : State) : Host.Outcome State Fault Refusal := finish s do
  rangeArg s 0 32
  rangeArg s 2 (argN s 3)
  let M ← readArg s 2 (argN s 3)
  pure (writeArg s 0 (sha256 M))

end Sys2Proof.Machine
end

