-- ==== Sys2Proof/Machine/Xmss.lean ====
section
/-! DEFINITION. XMSS orchestration: the data layouts and procedures (spec/46_xmss.md R400 to R409, R420) and the commands
(R410 to R421). -/

namespace Sys2Proof.Machine

/-- Desc(hf, st, h, af) (R401). -/
def descBytes (hf : HashFn) (st : BitVec 4) (h : Nat) (af : BitVec 4) : Bytes :=
  [ (st.setWidth 8 <<< 4) ||| hf.code.setWidth 8, (af.setWidth 8 <<< 4) ||| BitVec.ofNat 8 (h >>> 1), 0 ]

/-- What DecodeDesc returns: st and af are 0 when it succeeds (R402). -/
structure Descriptor where
  hf : HashFn
  h  : Nat
  deriving DecidableEq, Repr

/-- DecodeDesc(d[0..2]), with its four checks in order (R402). -/
def decodeDesc (d : Bytes) : Result Descriptor := do
  let d0 := d.getD 0 0
  let d1 := d.getD 1 0
  let hf ← hashFnOf (d0.extractLsb 3 0)
  check (d0 >>> 4 = 0) (.failedConversion .signatureType)
  check (d1 >>> 4 = 0) (.failedConversion .addressFormat)
  check (d.getD 2 0 = 0) (.invalidArgument .descriptorReserved)
  pure { hf := hf, h := 2 * (d1 &&& 0x0F).toNat }

/-- KeyDesc (R401). -/
def keyDesc (key : KeyStore) : Bytes := descBytes key.hf key.sigType key.h.toNat key.addrFmt

/-- PK (R403). -/
def publicKey (key : KeyStore) : Bytes := keyDesc key ++ key.root ++ key.pubSeed

/-- SKB (R404). -/
def secretKey (key : KeyStore) : Bytes :=
  toByte key.idx.toNat 4 ++ key.skSeed ++ key.skPrf ++ key.pubSeed ++ key.root

/-- XS (R406). -/
def extendedSeed (key : KeyStore) : Bytes := keyDesc key ++ key.rawSeed

/-- Expand(S48): SHAKE256(S48, 96), whatever the key's hash function (R405). -/
def expandKeySeed (S : Bytes) : Bytes := shake256 S 96

/-- SigSize(h) (R408). -/
def sigSize (h : Nat) : Nat := 2180 + 32 * h

/-- SignCore(i, M, auth) (R409), in the layout of R407. -/
def signCore (key : KeyStore) (i : Nat) (M : Bytes) (auth : List Bytes) : Bytes :=
  let su := key.hf.suite
  let R := prf su key.skPrf (toByte i 32)
  let mh := hMsg su (R ++ key.root ++ toByte i 32) M
  let ots := treeAdrs keyBase 0 i 0 0
  let ws := wotsSign su mh (otsSeed su key.skSeed ots) key.pubSeed ots
  toByte i 4 ++ R ++ ws.flatten ++ auth.flatten

/-- The candidate root of VerifyCore (R420), for a signature whose index i is below 2^h. -/
def candidateRoot (hf : HashFn) (h : Nat) (M Sig root P : Bytes) : Bytes :=
  let su := hf.suite
  let i := fromBE (slice Sig 0 4)
  let R := slice Sig 4 32
  let mh := hMsg su (R ++ root ++ toByte i 32) M
  let ots := treeAdrs keyBase 0 i 0 0
  let lt := treeAdrs keyBase 1 i 0 0
  let pk := wotsPkFromSig su (chunks 32 67 (slice Sig 36 2144)) mh P ots
  let leaf := lTree su pk P lt
  rootFromAuth su P keyBase i leaf (chunks 32 h (slice Sig 2180 (32 * h)))

/-- VerifyCore(hf, h, M, Sig, root, P): the index of a signature that verifies, or the VERIFICATION_FAILURE it raises
(R418, R420). -/
def verifyCore (hf : HashFn) (h : Nat) (M Sig root P : Bytes) : Result Nat :=
  let i := fromBE (slice Sig 0 4)
  if 2 ^ h ≤ i then raise (.verificationFailure .indexRange)
  else if candidateRoot hf h M Sig root P = root then .ok i
  else raise (.verificationFailure .rootMismatch)

/-- The enum checks of key generation (R400 items 1 to 3). -/
def keyEnums (s : State) : Result HashFn := do
  let hf ← hashFnOf (keycfgHashFn s)
  check (keycfgSigType s = 0) (.failedConversion .signatureType)
  check (keycfgAddrFmt s = 0) (.failedConversion .addressFormat)
  pure hf

/-- The relation of h and k (R400 item 5). -/
def keyRelation (h k : Nat) : Result Unit :=
  check (2 ≤ k ∧ k < h ∧ (h - k) % 2 = 0) (.invalidArgument .paramRelation)

/-- h ≤ H_MAX (R400 item 6). -/
def keyHeightCap (s : State) (h : Nat) : Result Unit := check (h ≤ s.build.hMax) (.capacity .height)

/-- strat = Basic or k ≤ K_MAX (R400 item 7). -/
def keyKCap (s : State) (k : Nat) (strat : Strategy) : Result Unit :=
  check (strat = .basic ∨ k ≤ s.build.kMax) (.capacity .bdsK)

/-- The body of KEYGEN (R410) for validated parameters and the 48-byte seed S. -/
def loadKey (s : State) (hf : HashFn) (h k : Nat) (strat : Strategy) (S : Bytes) : State :=
  let E := expandKeySeed S
  let key : KeyStore :=
    { valid := true, hf := hf, sigType := 0, addrFmt := 0, h := BitVec.ofNat 8 h, k := BitVec.ofNat 4 k, strategy := strat,
      idx := 0, skSeed := slice E 0 32, skPrf := slice E 32 32, pubSeed := slice E 64 32, root := zeros 32, rawSeed := S }
  match strat with
  | .fast =>
    let r := bdsSetup { tree := keyTree key, h := h, k := k } (freshBds h k)
    { s with key := { key with root := r.2 }, bds := r.1, bdsSync := true }
  | .basic => { s with key := { key with root := treeNode (keyTree key) h 0 }, bds := freshBds h k, bdsSync := false }

/-- KEYGEN (R410). -/
def execKeygen (s : State) : Host.Outcome State Fault Refusal := finish s do
  let hf ← keyEnums s
  let h := keycfgHeight s
  let k := keycfgK s
  let strat := keycfgStrategy s
  check (argN s 1 = 48) (.invalidArgument .seedLength)
  check (h % 2 = 0 ∧ h ≤ 30) (.invalidArgument .height)
  keyRelation h k
  keyHeightCap s h
  keyKCap s k strat
  rangeArg s 0 48
  let S ← readArg s 0 48
  pure (loadKey s hf h k strat S)

/-- KEYGEN_XSEED (R411). -/
def execKeygenXseed (s : State) : Host.Outcome State Fault Refusal := finish s do
  let k := keycfgK s
  let strat := keycfgStrategy s
  check (argN s 1 = 51) (.invalidArgument .seedLength)
  keyKCap s k strat
  rangeArg s 0 51
  let head ← readArg s 0 3
  let d ← decodeDesc head
  keyRelation d.h k
  keyHeightCap s d.h
  let S ← s.buf.readBytes (argN s 0 + 3) 48
  pure (loadKey s d.hf d.h k strat S)

/-- GET_PK (R412). -/
def execGetPk (s : State) : Host.Outcome State Fault Refusal := finish s do
  needKey s
  rangeArg s 0 67
  pure ((writeArg s 0 (publicKey s.key)).withRes0 67)

/-- GET_SK (R413). -/
def execGetSk (s : State) : Host.Outcome State Fault Refusal := finish s do
  needKey s
  rangeArg s 0 132
  pure ((writeArg s 0 (secretKey s.key)).withRes0 132)

/-- GET_XSEED (R414). -/
def execGetXseed (s : State) : Host.Outcome State Fault Refusal := finish s do
  needKey s
  rangeArg s 0 51
  pure ((writeArg s 0 (extendedSeed s.key)).withRes0 51)

/-- A key with its index moved to j. -/
def keyAt (key : KeyStore) (j : Nat) : KeyStore := { key with idx := BitVec.ofNat 32 j }

/-- SET_INDEX (R416). DESIGN CHOICE (unsafe, log entry 16): on an exhausted key R416's corner case names check 3, INDEX_RANGE, for
every j, while its numbered checks and D20 give check 4, INDEX_REWIND, for j < 2^h; the numbered checks are taken. -/
def execSetIndex (s : State) : Host.Outcome State Fault Refusal := finish s do
  needKey s
  needSync s
  let j := argN s 1
  let i := s.key.idx.toNat
  check (j < 2 ^ s.key.h.toNat) (.invalidArgument .indexRange)
  check (i ≤ j) (.invalidArgument .indexRewind)
  let b ← if s.key.strategy = .fast then bdsSteps (keyBds s.key) (j - i) i s.bds else pure s.bds
  pure (State.withRes0 { s with bds := b, key := keyAt s.key j } j)

/-- The path SIGN uses for index i: BDS.auth for a Fast key, the full recomputation for a Basic one (R417). -/
def signPath (s : State) (i : Nat) : List Bytes :=
  match s.key.strategy with
  | .fast => s.bds.auth
  | .basic => authPath (keyTree s.key) s.key.h.toNat i

/-- The BDS state after SIGN at index i: one BdsStep for a Fast key below its last index (R417). -/
def signStep (s : State) (i : Nat) : Result Bds :=
  if s.key.strategy = .fast ∧ i < 2 ^ s.key.h.toNat - 1 then bdsStep (keyBds s.key) s.bds i else pure s.bds

/-- SIGN (R417). -/
def execSign (s : State) : Host.Outcome State Fault Refusal := finish s do
  needKey s
  needSync s
  let i := s.key.idx.toNat
  let h := s.key.h.toNat
  check (i < 2 ^ h) (.invalidArgument .indexRange)
  rangeArg s 0 (sigSize h)
  rangeArg s 2 (argN s 3)
  let M ← readArg s 2 (argN s 3)
  let sig := signCore s.key i M (signPath s i)
  let b ← signStep s i
  pure (((writeArg { s with bds := b, key := keyAt s.key (i + 1) } 0 sig).withRes0 (sigSize h)).withRes1 i)

/-- VERIFY (R418). -/
def execVerify (s : State) : Host.Outcome State Fault Refusal := finish s do
  check (argN s 5 = 67) (.invalidArgument .lengthMismatch)
  rangeArg s 0 (argN s 1)
  rangeArg s 2 (argN s 3)
  rangeArg s 4 67
  let head ← readArg s 4 3
  let d ← decodeDesc head
  check (4 ≤ d.h) (.invalidArgument .paramRelation)
  check (argN s 1 = sigSize d.h) (.invalidArgument .sigSize)
  let PK ← readArg s 4 67
  let Sig ← readArg s 0 (argN s 1)
  let M ← readArg s 2 (argN s 3)
  let i ← verifyCore d.hf d.h M Sig (slice PK 3 32) (slice PK 35 32)
  pure ((State.withRes0 { s with verifyOk := true } 1).withRes1 i)

/-- SIG_SIZE (R419). -/
def execSigSize (s : State) : Host.Outcome State Fault Refusal := finish s do
  check (argN s 3 ≤ 254) (.invalidArgument .height)
  pure (s.withRes0 (sigSize (argN s 3)))

/-- HEIGHT_FROM_SIG_SIZE (R421). -/
def execHeightFromSigSize (s : State) : Host.Outcome State Fault Refusal := finish s do
  let L := argN s 1
  check (2180 ≤ L) (.invalidArgument .sigSize)
  check ((L - 4) % 32 = 0) (.invalidArgument .sigSize)
  check ((L - 2180) / 32 ≤ 254) (.invalidArgument .sigSize)
  pure (s.withRes0 ((L - 2180) / 32))

end Sys2Proof.Machine
end

