-- ==== Sys2Proof/Machine/Dispatch.lean ====
section
/-! DEFINITION. The meaning of each command, one arm per constructor of Instr (spec/30_encoding.md R146). -/

namespace Sys2Proof.Machine

def exec (i : Instr) (s : State) : Host.Outcome State Fault Refusal :=
  match i with
  | .nop => Sys2Proof.Machine.execNop s
  | .keyClear => Sys2Proof.Machine.execKeyClear s
  | .keccakF => Sys2Proof.Machine.execKeccakF s
  | .spongeInit sel => Sys2Proof.Machine.execSpongeInit sel s
  | .spongeAbsorb => Sys2Proof.Machine.execSpongeAbsorb s
  | .spongeSqueeze => Sys2Proof.Machine.execSpongeSqueeze s
  | .shake128 => Sys2Proof.Machine.execShake128 s
  | .shake256 => Sys2Proof.Machine.execShake256 s
  | .sha256 => Sys2Proof.Machine.execSha256 s
  | .coreHash => Sys2Proof.Machine.execCoreHash s
  | .prf => Sys2Proof.Machine.execPrf s
  | .hashF => Sys2Proof.Machine.execHashF s
  | .hashH => Sys2Proof.Machine.execHashH s
  | .hMsg => Sys2Proof.Machine.execHMsg s
  | .wotsExpandSeed => Sys2Proof.Machine.execWotsExpandSeed s
  | .wotsGenChain => Sys2Proof.Machine.execWotsGenChain s
  | .wotsBaseW => Sys2Proof.Machine.execWotsBaseW s
  | .wotsDigits => Sys2Proof.Machine.execWotsDigits s
  | .wotsPkgen => Sys2Proof.Machine.execWotsPkgen s
  | .wotsSign => Sys2Proof.Machine.execWotsSign s
  | .wotsPkFromSig => Sys2Proof.Machine.execWotsPkFromSig s
  | .otsSeed => Sys2Proof.Machine.execOtsSeed s
  | .lTree => Sys2Proof.Machine.execLTree s
  | .genLeaf => Sys2Proof.Machine.execGenLeaf s
  | .treehash => Sys2Proof.Machine.execTreehash s
  | .authpath => Sys2Proof.Machine.execAuthpath s
  | .rootFromAuth => Sys2Proof.Machine.execRootFromAuth s
  | .bdsSetup => Sys2Proof.Machine.execBdsSetup s
  | .bdsRound => Sys2Proof.Machine.execBdsRound s
  | .treehashUpdate => Sys2Proof.Machine.execTreehashUpdate s
  | .bdsTreehashUpdate => Sys2Proof.Machine.execBdsTreehashUpdate s
  | .bdsExport => Sys2Proof.Machine.execBdsExport s
  | .keygen => Sys2Proof.Machine.execKeygen s
  | .keygenXseed => Sys2Proof.Machine.execKeygenXseed s
  | .getPk => Sys2Proof.Machine.execGetPk s
  | .getSk => Sys2Proof.Machine.execGetSk s
  | .getXseed => Sys2Proof.Machine.execGetXseed s
  | .setIndex => Sys2Proof.Machine.execSetIndex s
  | .sign => Sys2Proof.Machine.execSign s
  | .verify => Sys2Proof.Machine.execVerify s
  | .sigSize => Sys2Proof.Machine.execSigSize s
  | .heightFromSigSize => Sys2Proof.Machine.execHeightFromSigSize s

end Sys2Proof.Machine
end

