-- ==== Sys2Proof/Machine/Sequencer.lean ====
section
/-! DEFINITION. The sequencer's turn, reset as a move, and the place a command word is fetched from (spec/40_control.md R172
to R174, spec/70_reset_and_hazards.md R500, R502, R512, R513). -/

namespace Sys2Proof.Machine

/-- The ILLEGAL_COMMAND completion of a word that does not decode (spec/30 R141, spec/60 R453 stage P1). -/
def illegalCommand (s : State) (e : DecodeError) : Host.Outcome State Fault Refusal :=
  finish s (raise (.illegalCommand e))

/-- The commit step of the pending word (R173, R174): decode comes before every other check. -/
def commitWord (s : State) (word : Word) : Host.Outcome State Fault Refusal :=
  match decode word with
  | .ok i => exec i s
  | .error e => illegalCommand s e

/-- The sequencer's turn: the commit step while a command is pending, nothing while the core is idle (R504, R512). -/
def sequencerTurn (s : State) : Host.Outcome State Fault Refusal :=
  match s.pending with
  | some p => commitWord s p.word
  | none => .next s

/-- A reset (R500, R502): the reset state of the same build. A pending command is abandoned. -/
def resetMove (s : State) : State := { State.reset with build := s.build, sched := s.sched }

/-- One move of the system (R512). -/
def takeMove (s : State) : Move → Host.Outcome State Fault Refusal
  | .host a => hostAccess s a
  | .sequencer => sequencerTurn s
  | .reset => .next (resetMove s)

/-- The state in which the command word w (its low nbits bits) has just been issued (R172) and the sequencer is next to
move. -/
def fetchPlace (s : State) (nbits w : Nat) : State :=
  let t := s.issue (BitVec.ofNat 32 (w % 2 ^ nbits))
  { t with sched := .sequencer :: t.sched }

end Sys2Proof.Machine
end

