-- ==== Sys2Proof/Machine/Step.lean ====
section
/-! DEFINITION. One step of the whole system (spec/70_reset_and_hazards.md R512): the next move of the list is taken. When
the list is empty the sequencer moves, so every issued command commits (R513). -/

namespace Sys2Proof.Machine

/-- One step: the next move of the list, or the sequencer's turn when the list is empty (R512, R513). -/
def step (s : State) : Host.Outcome State Fault Refusal :=
  match s.sched with
  | [] => sequencerTurn s
  | m :: rest => takeMove { s with sched := rest } m

/-- The state whose next step runs the command with the given word: the host has written it to CMD (R172). -/
def State.withFetchWord (s : State) (nbits w : Nat) : State := fetchPlace s nbits w

end Sys2Proof.Machine
end

