-- ==== Sys2Proof/Safety.lean ====
section
/-! DEFINITION. The terms the claims are made in: the invariant of every step, what the key store and the BDS state mean, the
check list of each command restated from the spec's numbered lists, where a command stores its output, and when a host
access is a bus error. Nothing here is used by the machine. -/

namespace Sys2Proof.Machine

/-! ### Invariants -/

/-- Reserved register bits read 0 (spec/10_state.md R40 to R45, R63). -/
structure ReservedClear (s : State) : Prop where
  intEn     : s.intEn &&& ~~~intMask = 0
  intStatus : s.intStatus &&& ~~~intMask = 0
  cfg       : s.cfg &&& ~~~cfgMask = 0
  keycfg    : s.keycfg &&& ~~~keycfgMask = 0
  errCode   : s.errCode.extractLsb 31 24 = 0

/-- The sponge position stays in its block (R52), below the rate while absorbing (spec/41 R216). -/
structure SpongeOk (sp : SpongeCtl) : Prop where
  pos    : sp.pos ≤ rateOf sp.rate
  absorb : sp.phase = .absorb → sp.pos < rateOf sp.rate
  idle   : sp.phase = .idle → sp.pos = 0 ∧ sp.rate = .rate168

/-- Items 1 to 4 of R55, for the parameters of a loaded key. -/
structure KeyParamsOk (b : Build) (key : KeyStore) : Prop where
  even     : key.h.toNat % 2 = 0
  low      : 4 ≤ key.h.toNat
  high     : key.h.toNat ≤ 30
  cap      : key.h.toNat ≤ b.hMax
  kLow     : 2 ≤ key.k.toNat
  kHigh    : key.k.toNat < key.h.toNat
  kEven    : (key.h.toNat - key.k.toNat) % 2 = 0
  kCap     : key.strategy = .fast → key.k.toNat ≤ b.kMax
  idx      : key.idx.toNat ≤ 2 ^ key.h.toNat

/-- The key store (R54, R55): the byte fields have their widths, a loaded key has legal parameters, and with no key loaded
every field is 0. -/
structure KeyOk (b : Build) (key : KeyStore) : Prop where
  sigType : key.sigType = 0
  addrFmt : key.addrFmt = 0
  skSeed  : key.skSeed.length = 32
  skPrf   : key.skPrf.length = 32
  pubSeed : key.pubSeed.length = 32
  root    : key.root.length = 32
  rawSeed : key.rawSeed.length = 48
  loaded  : key.valid = true → KeyParamsOk b key
  empty   : key.valid = false → key = clearedKey

/-- Every node of a list is 32 bytes (R57). -/
def NodesOk (xs : List Bytes) : Prop := ∀ x ∈ xs, x.length = 32

/-- The BDS state has the shape of R350 for (h, k), and its counts stay in the ranges of R56 and R58. `levels` says that the
height tag of slot p is at most h + 1 - p, so a tag never outgrows its 8 bits. -/
structure BdsOk (h k : Nat) (b : Bds) : Prop where
  stack       : b.stack.length = h + 1 ∧ NodesOk b.stack
  stackLevels : b.stackLevels.length = h + 1
  stackOffset : b.stackOffset ≤ h + 1
  auth        : b.auth.length = h ∧ NodesOk b.auth
  keep        : b.keep.length = h / 2 ∧ NodesOk b.keep
  th          : b.th.map TreehashInst.h = List.range (h - k)
  thNodes     : ∀ t ∈ b.th, t.node.length = 32 ∧ t.nextIdx ≤ 2 ^ h
  retain      : b.retain.length = 2 ^ k - k - 1 ∧ NodesOk b.retain
  usage       : (b.th.map TreehashInst.stackUsage).sum ≤ b.stackOffset
  levels      : ∀ p, p < h + 1 → b.stackLevels.getD p 0 + p ≤ h + 1

/-- The status and result registers agree (R33, R39, R60): while a command is pending its report is clear and the latch
holds the live operand registers (spec/40 R172); an error leaves no result. -/
structure ReportOk (s : State) : Prop where
  pending : ∀ p, s.pending = some p →
    s.done = false ∧ s.err = false ∧ s.verifyOk = false ∧ s.errCode = 0 ∧ s.res0 = 0 ∧ s.res1 = 0 ∧
    p.arg = s.arg ∧ p.adrs = s.adrs ∧ p.cfg = s.cfg ∧ p.keycfg = s.keycfg
  err     : s.err = true → s.done = true ∧ s.verifyOk = false ∧ s.res0 = 0 ∧ s.res1 = 0
  noErr   : s.err = false → s.errCode = 0

/-- The invariant every step keeps. -/
structure State.Inv (s : State) : Prop where
  build    : s.build.Legal
  reserved : ReservedClear s
  sponge   : SpongeOk s.sp
  bufForm  : s.buf.wf
  bufRange : s.buf.below s.build.buf.bytes
  key      : KeyOk s.build s.key
  bds      : BdsOk s.key.h.toNat s.key.k.toNat s.bds
  sync     : s.bdsSync = true → s.key.valid = true ∧ s.key.strategy = .fast
  report   : ReportOk s

/-- Items 5 and 6 of R55: a loaded key's seeds are the expansion of its raw seed (R405), and its root is the root of the
tree they define (R325). -/
def State.KeySound (s : State) : Prop :=
  s.key.valid = true →
    s.key.skSeed ++ s.key.skPrf ++ s.key.pubSeed = shake256 s.key.rawSeed 96 ∧
    s.key.root = treeNode (keyTree s.key) s.key.h.toNat 0

/-- What BDS_SYNC = 1 promises (R59): the BDS state is the one setup at index 0 leaves, followed by BdsStep(t) for each
t < KEY.idx with t < 2^h - 1, in order. -/
def State.LockStep (s : State) : Prop :=
  s.bdsSync = true →
    bdsSteps (keyBds s.key) (min s.key.idx.toNat (2 ^ s.key.h.toNat - 1)) 0
      (bdsSetup (keyBds s.key) (freshBds s.key.h.toNat s.key.k.toNat)).1 = .ok s.bds

/-! ### Check lists -/

/-- The error of the first check that fails (spec/40 R177). -/
def firstError : List (Bool × CmdError) → Option CmdError
  | [] => none
  | (holds, e) :: rest => if holds then firstError rest else some e

/-- Range(ARG i, L) (spec/00 R11). -/
def fits (s : State) (i : Fin 8) (L : Nat) : Bool × CmdError :=
  (decide (argN s i + L ≤ s.build.buf.bytes), .bufferRange i)

/-- n as CFG gives it. -/
def cfgBytes (s : State) : Nat := (cfgN s).bytes

/-- The CFG checks (spec/60 R455). -/
def cfgChecks (s : State) : List (Bool × CmdError) :=
  [ (decide ((cfgHashFn s).toNat ≤ 2), .failedConversion .hashFunction),
    (!(decide ((cfgHashFn s).toNat = 0) && decide (cfgBytes s = 64)), .configError) ]

/-- KEY_VALID = 1, else STATE_ERROR(NO_KEY). -/
def keyCheck (s : State) : Bool × CmdError := (s.key.valid, .stateError .noKey)

/-- KEY.strategy = Fast, else STATE_ERROR(NOT_FAST). -/
def fastCheck (s : State) : Bool × CmdError := (s.key.strategy == .fast, .stateError .notFast)

/-- KEY.strategy = Basic or BDS_SYNC = 1, else STATE_ERROR(BDS_DESYNC). -/
def syncCheck (s : State) : Bool × CmdError := (s.key.strategy == .basic || s.bdsSync, .stateError .bdsDesync)

/-- The numbered checks of each command's rule, in its order, down to those that read BUF: checks 4 to 6 of KEYGEN_XSEED
(R411) and 5 to 7 of VERIFY (R418) come after these. Those of SET_INDEX are R416's numbered ones, which on an exhausted key
disagree with its corner case (DESIGN CHOICE, log entry 16). -/
def checks (s : State) : Instr → List (Bool × CmdError)
  | .nop => []
  | .keyClear => []
  | .keccakF => []
  | .spongeInit _ => []
  | .spongeAbsorb => [(s.sp.phase == .absorb, .stateError .spongePhase), fits s 0 (argN s 1)]
  | .spongeSqueeze => [(s.sp.phase != .idle, .stateError .spongePhase), fits s 0 (argN s 1)]
  | .shake128 => [fits s 0 (argN s 1), fits s 2 (argN s 3)]
  | .shake256 => [fits s 0 (argN s 1), fits s 2 (argN s 3)]
  | .sha256 => [fits s 0 32, fits s 2 (argN s 3)]
  | .coreHash => cfgChecks s ++ [fits s 0 (cfgBytes s), fits s 2 (argN s 3), fits s 4 (argN s 5)]
  | .prf => cfgChecks s ++ [fits s 0 (cfgBytes s), fits s 2 (cfgBytes s), fits s 4 32]
  | .hashF => cfgChecks s ++ [fits s 0 (cfgBytes s), fits s 2 (cfgBytes s), fits s 4 (cfgBytes s)]
  | .hashH => cfgChecks s ++ [fits s 0 (cfgBytes s), fits s 2 (cfgBytes s), fits s 4 (2 * cfgBytes s)]
  | .hMsg =>
    cfgChecks s ++
      [ (argN s 3 == 3 * cfgBytes s, .invalidArgument .lengthMismatch),
        fits s 0 (cfgBytes s), fits s 2 (3 * cfgBytes s), fits s 4 (argN s 5) ]
  | .wotsExpandSeed => cfgChecks s ++ [fits s 0 (wotsLen (cfgBytes s) * cfgBytes s), fits s 4 (cfgBytes s)]
  | .wotsGenChain => cfgChecks s ++ [fits s 0 (cfgBytes s), fits s 2 (cfgBytes s), fits s 4 (cfgBytes s)]
  | .wotsBaseW =>
    [ (decide ((argN s 3 + 1) / 2 ≤ argN s 5), .invalidArgument .operand), fits s 0 (argN s 3), fits s 4 (argN s 5) ]
  | .wotsDigits => [fits s 0 (wotsLen (cfgBytes s)), fits s 4 (cfgBytes s)]
  | .wotsPkgen =>
    cfgChecks s ++ [fits s 0 (wotsLen (cfgBytes s) * cfgBytes s), fits s 2 (cfgBytes s), fits s 4 (cfgBytes s)]
  | .wotsSign =>
    cfgChecks s ++
      [ fits s 0 (wotsLen (cfgBytes s) * cfgBytes s), fits s 2 (cfgBytes s), fits s 4 (cfgBytes s),
        fits s 5 (cfgBytes s) ]
  | .wotsPkFromSig =>
    cfgChecks s ++
      [ fits s 0 (wotsLen (cfgBytes s) * cfgBytes s), fits s 2 (cfgBytes s),
        fits s 4 (wotsLen (cfgBytes s) * cfgBytes s), fits s 5 (cfgBytes s) ]
  | .otsSeed => cfgChecks s ++ [fits s 0 (cfgBytes s), fits s 4 (cfgBytes s)]
  | .lTree =>
    cfgChecks s ++ [fits s 0 (cfgBytes s), fits s 2 (cfgBytes s), fits s 4 (wotsLen (cfgBytes s) * cfgBytes s)]
  | .genLeaf => cfgChecks s ++ [fits s 0 (cfgBytes s), fits s 2 (cfgBytes s), fits s 4 (cfgBytes s)]
  | .treehash =>
    cfgChecks s ++
      [ (decide (argN s 3 ≤ 32 ∧ argN s 1 % 2 ^ argN s 3 = 0), .invalidArgument .operand),
        (decide (argN s 1 + 2 ^ argN s 3 ≤ 2 ^ 32), .invalidArgument .operand),
        (decide (argN s 3 ≤ s.build.hMax), .capacity .height),
        fits s 0 (cfgBytes s), fits s 2 (cfgBytes s), fits s 4 (cfgBytes s) ]
  | .authpath =>
    cfgChecks s ++
      [ (decide (1 ≤ argN s 3 ∧ argN s 3 ≤ 32), .invalidArgument .height),
        (decide (argN s 1 < 2 ^ argN s 3), .invalidArgument .indexRange),
        (decide (argN s 3 ≤ s.build.hMax), .capacity .height),
        fits s 0 ((argN s 3 + 1) * cfgBytes s), fits s 2 (cfgBytes s), fits s 4 (cfgBytes s) ]
  | .rootFromAuth =>
    cfgChecks s ++
      [ (decide (1 ≤ argN s 3 ∧ argN s 3 ≤ 32), .invalidArgument .height),
        (decide (argN s 1 < 2 ^ argN s 3), .invalidArgument .indexRange),
        fits s 0 (cfgBytes s), fits s 2 (cfgBytes s), fits s 4 (cfgBytes s), fits s 5 (argN s 3 * cfgBytes s) ]
  | .bdsSetup => [keyCheck s, fastCheck s, (s.key.idx == 0, .stateError .keyIndexNonzero)]
  | .bdsRound =>
    [keyCheck s, fastCheck s, (decide (argN s 1 < 2 ^ s.key.h.toNat - 1), .invalidArgument .indexRange)]
  | .treehashUpdate =>
    [ keyCheck s, fastCheck s, (decide (argN s 1 < s.key.h.toNat - s.key.k.toNat), .invalidArgument .operand),
      (!(instAt s.bds (argN s 1)).completed, .stateError .instanceCompleted) ]
  | .bdsTreehashUpdate => [keyCheck s, fastCheck s]
  | .bdsExport => [keyCheck s, fastCheck s, fits s 0 (exportSize s.key.h.toNat s.key.k.toNat)]
  | .keygen =>
    [ (decide ((keycfgHashFn s).toNat ≤ 2), .failedConversion .hashFunction),
      (keycfgSigType s == 0, .failedConversion .signatureType),
      (keycfgAddrFmt s == 0, .failedConversion .addressFormat),
      (argN s 1 == 48, .invalidArgument .seedLength),
      (decide (keycfgHeight s % 2 = 0 ∧ keycfgHeight s ≤ 30), .invalidArgument .height),
      (decide (2 ≤ keycfgK s ∧ keycfgK s < keycfgHeight s ∧ (keycfgHeight s - keycfgK s) % 2 = 0),
        .invalidArgument .paramRelation),
      (decide (keycfgHeight s ≤ s.build.hMax), .capacity .height),
      (keycfgStrategy s == .basic || decide (keycfgK s ≤ s.build.kMax), .capacity .bdsK),
      fits s 0 48 ]
  | .keygenXseed =>
    [ (argN s 1 == 51, .invalidArgument .seedLength),
      (keycfgStrategy s == .basic || decide (keycfgK s ≤ s.build.kMax), .capacity .bdsK),
      fits s 0 51 ]
  | .getPk => [keyCheck s, fits s 0 67]
  | .getSk => [keyCheck s, fits s 0 132]
  | .getXseed => [keyCheck s, fits s 0 51]
  | .setIndex =>
    [ keyCheck s, syncCheck s, (decide (argN s 1 < 2 ^ s.key.h.toNat), .invalidArgument .indexRange),
      (decide (s.key.idx.toNat ≤ argN s 1), .invalidArgument .indexRewind) ]
  | .sign =>
    [ keyCheck s, syncCheck s, (decide (s.key.idx.toNat < 2 ^ s.key.h.toNat), .invalidArgument .indexRange),
      fits s 0 (2180 + 32 * s.key.h.toNat), fits s 2 (argN s 3) ]
  | .verify =>
    [(argN s 5 == 67, .invalidArgument .lengthMismatch), fits s 0 (argN s 1), fits s 2 (argN s 3), fits s 4 67]
  | .sigSize => [(decide (argN s 3 ≤ 254), .invalidArgument .height)]
  | .heightFromSigSize =>
    [ (decide (2180 ≤ argN s 1), .invalidArgument .sigSize),
      (decide ((argN s 1 - 4) % 32 = 0), .invalidArgument .sigSize),
      (decide ((argN s 1 - 2180) / 32 ≤ 254), .invalidArgument .sigSize) ]

/-- Every check that stands before the reads of BUF holds. -/
def passes (s : State) (i : Instr) : Prop := firstError (checks s i) = none

/-- The checks of DecodeDesc on the three bytes of a descriptor (spec/46 R402), in its order. -/
def descChecks (d : Bytes) : List (Bool × CmdError) :=
  let b := fun j => (d.getD j 0).toNat
  [ (decide (b 0 % 16 ≤ 2), .failedConversion .hashFunction),
    (b 0 / 16 == 0, .failedConversion .signatureType),
    (b 1 / 16 == 0, .failedConversion .addressFormat),
    (b 2 == 0, .invalidArgument .descriptorReserved) ]

/-- The height a descriptor holds (R402). -/
def descHeight (d : Bytes) : Nat := 2 * ((d.getD 1 0).toNat % 16)

/-- The hash-function code a descriptor holds (R402). -/
def descHash (d : Bytes) : Nat := (d.getD 0 0).toNat % 16

/-- The checks that follow the descriptor's in KEYGEN_XSEED (R411 items 5 and 6) and VERIFY (R418 items 6 and 7). -/
def descFollowUp (s : State) (i : Instr) (h : Nat) : List (Bool × CmdError) :=
  match i with
  | .keygenXseed =>
    [ (decide (2 ≤ keycfgK s ∧ keycfgK s < h ∧ (h - keycfgK s) % 2 = 0), .invalidArgument .paramRelation),
      (decide (h ≤ s.build.hMax), .capacity .height) ]
  | .verify =>
    [(decide (4 ≤ h), .invalidArgument .paramRelation), (argN s 1 == 2180 + 32 * h, .invalidArgument .sigSize)]
  | _ => []

/-! ### Inputs -/

/-- The BUF operands a command reads, as (pointer, length) pairs (spec/30 R150). -/
def inputs (s : State) : Instr → List (Nat × Nat)
  | .nop => []
  | .keyClear => []
  | .keccakF => []
  | .spongeInit _ => []
  | .spongeAbsorb => [(argN s 0, argN s 1)]
  | .spongeSqueeze => []
  | .shake128 => [(argN s 2, argN s 3)]
  | .shake256 => [(argN s 2, argN s 3)]
  | .sha256 => [(argN s 2, argN s 3)]
  | .coreHash => [(argN s 2, argN s 3), (argN s 4, argN s 5)]
  | .prf => [(argN s 2, cfgBytes s), (argN s 4, 32)]
  | .hashF => [(argN s 2, cfgBytes s), (argN s 4, cfgBytes s)]
  | .hashH => [(argN s 2, cfgBytes s), (argN s 4, 2 * cfgBytes s)]
  | .hMsg => [(argN s 2, 3 * cfgBytes s), (argN s 4, argN s 5)]
  | .wotsExpandSeed => [(argN s 4, cfgBytes s)]
  | .wotsGenChain => [(argN s 2, cfgBytes s), (argN s 4, cfgBytes s)]
  | .wotsBaseW => [(argN s 4, argN s 5)]
  | .wotsDigits => [(argN s 4, cfgBytes s)]
  | .wotsPkgen => [(argN s 2, cfgBytes s), (argN s 4, cfgBytes s)]
  | .wotsSign => [(argN s 2, cfgBytes s), (argN s 4, cfgBytes s), (argN s 5, cfgBytes s)]
  | .wotsPkFromSig =>
    [(argN s 2, cfgBytes s), (argN s 4, wotsLen (cfgBytes s) * cfgBytes s), (argN s 5, cfgBytes s)]
  | .otsSeed => [(argN s 4, cfgBytes s)]
  | .lTree => [(argN s 2, cfgBytes s), (argN s 4, wotsLen (cfgBytes s) * cfgBytes s)]
  | .genLeaf => [(argN s 2, cfgBytes s), (argN s 4, cfgBytes s)]
  | .treehash => [(argN s 2, cfgBytes s), (argN s 4, cfgBytes s)]
  | .authpath => [(argN s 2, cfgBytes s), (argN s 4, cfgBytes s)]
  | .rootFromAuth => [(argN s 2, cfgBytes s), (argN s 4, cfgBytes s), (argN s 5, argN s 3 * cfgBytes s)]
  | .bdsSetup => []
  | .bdsRound => []
  | .treehashUpdate => []
  | .bdsTreehashUpdate => []
  | .bdsExport => []
  | .keygen => [(argN s 0, 48)]
  | .keygenXseed => [(argN s 0, 51)]
  | .getPk => []
  | .getSk => []
  | .getXseed => []
  | .setIndex => []
  | .sign => [(argN s 2, argN s 3)]
  | .verify => [(argN s 4, 67), (argN s 0, argN s 1), (argN s 2, argN s 3)]
  | .sigSize => []
  | .heightFromSigSize => []

/-- The byte at offset a is one of the command's input bytes and has never been written since reset (spec/20 R105). -/
def unwrittenInput (s : State) (i : Instr) (a : Nat) : Prop :=
  (∃ r ∈ inputs s i, r.1 ≤ a ∧ a < r.1 + r.2) ∧ s.buf.read a = none

/-! ### Outputs -/

/-- How many bytes a successful command stores at ARG0 (spec/30 R150); 0 for a command with no BUF output. -/
def outLen (s : State) : Instr → Nat
  | .nop => 0
  | .keyClear => 0
  | .keccakF => 0
  | .spongeInit _ => 0
  | .spongeAbsorb => 0
  | .spongeSqueeze => argN s 1
  | .shake128 => argN s 1
  | .shake256 => argN s 1
  | .sha256 => 32
  | .coreHash => cfgBytes s
  | .prf => cfgBytes s
  | .hashF => cfgBytes s
  | .hashH => cfgBytes s
  | .hMsg => cfgBytes s
  | .wotsExpandSeed => wotsLen (cfgBytes s) * cfgBytes s
  | .wotsGenChain => cfgBytes s
  | .wotsBaseW => argN s 3
  | .wotsDigits => wotsLen (cfgBytes s)
  | .wotsPkgen => wotsLen (cfgBytes s) * cfgBytes s
  | .wotsSign => wotsLen (cfgBytes s) * cfgBytes s
  | .wotsPkFromSig => wotsLen (cfgBytes s) * cfgBytes s
  | .otsSeed => cfgBytes s
  | .lTree => cfgBytes s
  | .genLeaf => cfgBytes s
  | .treehash => cfgBytes s
  | .authpath => (argN s 3 + 1) * cfgBytes s
  | .rootFromAuth => cfgBytes s
  | .bdsSetup => 0
  | .bdsRound => 0
  | .treehashUpdate => 0
  | .bdsTreehashUpdate => 0
  | .bdsExport => exportSize s.key.h.toNat s.key.k.toNat
  | .keygen => 0
  | .keygenXseed => 0
  | .getPk => 67
  | .getSk => 132
  | .getXseed => 51
  | .setIndex => 0
  | .sign => 2180 + 32 * s.key.h.toNat
  | .verify => 0
  | .sigSize => 0
  | .heightFromSigSize => 0

end Sys2Proof.Machine

namespace Sys2Proof

/-- The commands that may change KS and SP (R50, R52, R61). -/
def Instr.usesSponge : Instr → Bool
  | .keccakF => true
  | .spongeInit _ => true
  | .spongeAbsorb => true
  | .spongeSqueeze => true
  | _ => false

/-- The commands that may change the key store, the BDS state or BDS_SYNC (R55, R59). -/
def Instr.writesKey : Instr → Bool
  | .keyClear => true
  | .bdsSetup => true
  | .bdsRound => true
  | .treehashUpdate => true
  | .bdsTreehashUpdate => true
  | .keygen => true
  | .keygenXseed => true
  | .setIndex => true
  | .sign => true
  | _ => false

/-- The commands that replace or erase the key (R55). -/
def Instr.replacesKey : Instr → Bool
  | .keyClear => true
  | .keygen => true
  | .keygenXseed => true
  | _ => false

/-- The commands that read the key store, the BDS state or BDS_SYNC, or replace them (the "key" rows of spec/30 R150, and
KEY_CLEAR, KEYGEN and KEYGEN_XSEED). -/
def Instr.usesKey : Instr → Bool
  | .keyClear => true
  | .bdsSetup => true
  | .bdsRound => true
  | .treehashUpdate => true
  | .bdsTreehashUpdate => true
  | .bdsExport => true
  | .keygen => true
  | .keygenXseed => true
  | .getPk => true
  | .getSk => true
  | .getXseed => true
  | .setIndex => true
  | .sign => true
  | _ => false

/-- The commands that write RES0 on success (spec/30 R150). -/
def Instr.writesRes0 : Instr → Bool
  | .bdsRound => true
  | .bdsTreehashUpdate => true
  | .bdsExport => true
  | .getPk => true
  | .getSk => true
  | .getXseed => true
  | .setIndex => true
  | .sign => true
  | .verify => true
  | .sigSize => true
  | .heightFromSigSize => true
  | _ => false

/-- The commands that write RES1 on success (spec/30 R150). -/
def Instr.writesRes1 : Instr → Bool
  | .bdsTreehashUpdate => true
  | .sign => true
  | .verify => true
  | _ => false

end Sys2Proof

namespace Sys2Proof.Machine

/-! ### The spec's procedures, restated -/

/-- The hash function and output size of a supported pair, on a whole byte string (spec/42 R250). -/
def digest : Suite → Bytes → Bytes
  | .sha2, B => sha256 B
  | .shake128 n, B => shake128 B n.bytes
  | .shake256 n, B => shake256 B n.bytes

/-- The 32 bytes of the address with its last word replaced (spec/42 R251). -/
def adrsTail (a : Adrs) (w7 : Nat) : Bytes :=
  toByte (a.get 0).toNat 4 ++ toByte (a.get 1).toNat 4 ++ toByte (a.get 2).toNat 4 ++ toByte (a.get 3).toNat 4 ++
    toByte (a.get 4).toNat 4 ++ toByte (a.get 5).toNat 4 ++ toByte (a.get 6).toNat 4 ++ toByte w7 4

/-- PRF with the address whose word 7 is m as its input (spec/42 R252). -/
def adrsPrf (su : Suite) (P : Bytes) (a : Adrs) (m : Nat) : Bytes := digest su (toByte 3 su.n ++ P ++ adrsTail a m)

/-- u is one round of LTree at height ht over v (spec/44 R320): entry i < len(v) div 2 is H of entries 2i and 2i+1 of v, and
an odd last entry is carried up. -/
def lTreeRound (su : Suite) (P : Bytes) (a : Adrs) (ht : Nat) (v u : List Bytes) : Prop :=
  u.length = (v.length + 1) / 2 ∧
    (∀ i, i < v.length / 2 →
      u.getD i [] = hashH su P (setW (setW a 5 ht) 6 i) (v.getD (2 * i) [] ++ v.getD (2 * i + 1) [])) ∧
    (v.length % 2 = 1 → u.getD (v.length / 2) [] = v.getD (v.length - 1) [])

/-- The loop of LTree from height ht on, with its result (spec/44 R320). -/
inductive LTreeRun (su : Suite) (P : Bytes) (a : Adrs) : Nat → List Bytes → Bytes → Prop
  | leaf (ht : Nat) (x : Bytes) : LTreeRun su P a ht [x] x
  | round (ht : Nat) (v u : List Bytes) (x : Bytes) (more : 1 < v.length) (r : lTreeRound su P a ht v u)
      (rest : LTreeRun su P a (ht + 1) u x) : LTreeRun su P a ht v x

/-- The fold loop of ThUpdate on the leaf idx (spec/45 R356). From a node of height nh, with su slots of the instance and so
slots of the shared stack occupied, it ends with the last four values: while the instance holds a slot and the top slot's
height is the node's, that slot is popped and hashed with the node. -/
inductive ThFoldRun (c : BdsCtx) (b : Bds) (idx : Nat) : Bytes → Nat → Nat → Nat → Bytes → Nat → Nat → Nat → Prop
  | stop (node : Bytes) (nh su so : Nat) (done : su = 0 ∨ b.stackLevels.getD (so - 1) 0 ≠ nh) :
      ThFoldRun c b idx node nh su so node nh su so
  | fold (node : Bytes) (nh su so : Nat) (node' : Bytes) (nh' su' so' : Nat) (top : b.stackLevels.getD (so - 1) 0 = nh)
      (rest : ThFoldRun c b idx
        (hashH c.tree.su c.tree.pub (nodeAddr c.tree.base nh (idx >>> (nh + 1))) (b.stack.getD (so - 1) [] ++ node))
        (nh + 1) su (so - 1) node' nh' su' so') :
      ThFoldRun c b idx node nh (su + 1) so node' nh' su' so'

/-- What BdsRound(i) makes of b, field by field, and the tau it returns (spec/45 R359): every right-hand side reads b as it
was. -/
structure RoundWrites (c : BdsCtx) (b b' : Bds) (i tau : Nat) : Prop where
  lowest  : tau < c.h ∧ i.testBit tau = false ∧ ∀ j, j < tau → i.testBit j = true
  keep    : ∀ m, b'.keep[m]? =
    if m = tau / 2 ∧ i.testBit (tau + 1) = false ∧ tau < c.h - 1 then some (b.auth.getD tau []) else b.keep[m]?
  leaf    : tau = 0 → b'.auth[0]? = some (genLeaf c.tree i)
  hashed  : 0 < tau → b'.auth[tau]? =
    some (hashH c.tree.su c.tree.pub (nodeAddr c.tree.base (tau - 1) (i >>> tau))
      (b.auth.getD (tau - 1) [] ++ b.keep.getD ((tau - 1) / 2) []))
  pulled  : ∀ j, j < tau → j < c.h - c.k → b'.auth[j]? = some (instAt b j).node
  kept    : ∀ j, j < tau → c.h - c.k ≤ j → b'.auth[j]? =
    some (b.retain.getD (2 ^ (c.h - 1 - j) + j - c.h + (i / 2 ^ j - 1) / 2) [])
  above   : ∀ j, tau < j → b'.auth[j]? = b.auth[j]?
  started : ∀ j, b'.th[j]? =
    if j < tau ∧ j < c.h - c.k ∧ i + 1 + 3 * 2 ^ j < 2 ^ c.h then
      some { h := j, nextIdx := i + 1 + 3 * 2 ^ j, stackUsage := 0, completed := false, node := (instAt b j).node }
    else b.th[j]?
  rest    : b'.stack = b.stack ∧ b'.stackLevels = b.stackLevels ∧ b'.stackOffset = b.stackOffset ∧ b'.retain = b.retain

/-- The key that KEYGEN makes of the seed S (spec/46 R405, R410), its root being the root of its tree (spec/44 R325). -/
def seedKey (hf : HashFn) (h k : Nat) (strat : Strategy) (S : Bytes) : KeyStore :=
  let E := shake256 S 96
  let tree : TreeCtx := { su := hf.suite, sk := E.take 32, pub := E.drop 64, base := keyBase }
  { valid := true, hf := hf, sigType := 0, addrFmt := 0, h := BitVec.ofNat 8 h, k := BitVec.ofNat 4 k, strategy := strat,
    idx := 0, skSeed := E.take 32, skPrf := (E.drop 32).take 32, pubSeed := E.drop 64, root := treeNode tree h 0,
    rawSeed := S }

/-- The state a successful KEYGEN commits from s for the key made of S (spec/46 R410). -/
def keygenResult (s : State) (hf : HashFn) (h k : Nat) (strat : Strategy) (S : Bytes) : State :=
  let key := seedKey hf h k strat S
  match strat with
  | .fast => { s with key := key, bds := (bdsSetup (keyBds key) (freshBds h k)).1, bdsSync := true }.succeed
  | .basic => { s with key := key, bds := freshBds h k, bdsSync := false }.succeed

/-- An outcome with its next state changed by f. -/
def mapNext (f : State → State) : Host.Outcome State Fault Refusal → Host.Outcome State Fault Refusal
  | .next s => .next (f s)
  | .fault r => .fault r
  | .refused r => .refused r

/-! ### Host accesses -/

/-- The offset of an access. -/
def Access.offset : Access → Nat
  | .read off _ => off.toNat
  | .write off _ _ => off.toNat

/-- The width of an access. -/
def Access.size : Access → AccessSize
  | .read _ size => size
  | .write _ size _ => size

/-- An offset inside BUF (spec/20 R100). -/
def inBuf (s : State) (off : Nat) : Prop := 0x4000 ≤ off ∧ off < 0x4000 + s.build.buf.bytes

/-- The register whose four bytes hold an offset (R63). -/
def regOf (off : Nat) : Option Csr := csrAt (off - off % 4)

/-- A reserved offset: neither a register's nor BUF's (R63). -/
def reservedOffset (s : State) (off : Nat) : Prop := regOf off = none ∧ ¬ inBuf s off

/-- The read-only registers (R63). -/
def Csr.readOnly : Csr → Bool
  | .id => true
  | .version => true
  | .caps => true
  | .status => true
  | .errCode => true
  | .sponge => true
  | .res0 => true
  | .res1 => true
  | .keyIndex => true
  | .keyInfo => true
  | .sigSize => true
  | .cmdCount => true
  | _ => false

/-- The registers the host may write while BUSY = 1 (R102, spec/40 R171). -/
def Csr.writableBusy : Csr → Bool
  | .cmd => true
  | .intEn => true
  | .intStatus => true
  | _ => false

/-- The eight conditions of spec/20 R103, in its order. The fourth takes in every width but 1, 2 and 4 bytes: more than 4 by
its own words, and 3 by D5 of spec/92_eei_decisions.md (every other access is a bus error). -/
def busErrorCase (s : State) (a : Access) : Prop :=
  reservedOffset s a.offset ∨
  (a.offset < 0x200 ∧ (a.size = .byte ∨ a.size = .half)) ∨
  (∃ n, a.size.bytes = some n ∧ a.offset % n ≠ 0) ∨
  a.size = .other ∨
  (∃ n, a.size.bytes = some n ∧ inBuf s a.offset ∧ 0x4000 + s.build.buf.bytes < a.offset + n) ∨
  (∃ off size v r, a = .write off size v ∧ regOf off.toNat = some r ∧ r.readOnly = true) ∨
  (inBuf s a.offset ∧ s.busy = true) ∨
  (∃ off size v r, a = .write off size v ∧ regOf off.toNat = some r ∧ r.writableBusy = false ∧ s.busy = true)

end Sys2Proof.Machine
end

