-- ==== Sys2Proof/Certificates/Slice0/Obligations.lean ====
section
/-! DEFINITION. The statements for the provers. Each docstring cites the rules of spec/ that the statement rests on. -/

open Sys2Proof Sys2Proof.Machine

/-! ### Encoding and decoding -/

/-- Decoding and encoding are inverse to each other, on every word and every command (spec/30 R140, R141, R146). -/
def Obligations.DecodeEncode : Prop :=
  ∀ (w : Word) (i : Instr), decode w = .ok i ↔ encode i = w

/-- R141: the sequencer's turn on a pending word is exec of a command when the word is legal, and the ILLEGAL_COMMAND
completion with the detail R141 gives when it is not; and the match/mask pairs of R141. -/
def Obligations.CommandWordLegality : Prop :=
  ∀ (s : State) (p : Pending), s.pending = some p →
    ((fieldsOf p.word).opcodeDefined = false → sequencerTurn s = .next (s.failWith (.illegalCommand .opcode))) ∧
    ((fieldsOf p.word).opcodeDefined = true → ((fieldsOf p.word).rsvdZero && (fieldsOf p.word).flagsAllowed) = false →
      sequencerTurn s = .next (s.failWith (.illegalCommand .reservedBits))) ∧
    ((fieldsOf p.word).legal = true → ∃ i, decode p.word = .ok i ∧ sequencerTurn s = exec i s) ∧
    ((∃ sel, decode p.word = .ok (.spongeInit sel)) ↔ p.word &&& 0xFFFFFEFF = 0x00000011) ∧
    (∀ i, (∀ sel, i ≠ .spongeInit sel) → (decode p.word = .ok i ↔ p.word = i.opcode.setWidth 32))

/-- A few command words, written out from R140 and R146. -/
def Obligations.SampleWords : Prop :=
  decode 0x00000000 = .ok .nop ∧
  decode 0x00000011 = .ok (.spongeInit .rate168) ∧
  decode 0x00000111 = .ok (.spongeInit .rate136) ∧
  decode 0x00000016 = .ok .sha256 ∧
  decode 0x00000024 = .ok .hMsg ∧
  decode 0x00000036 = .ok .wotsPkFromSig ∧
  decode 0x00000043 = .ok .authpath ∧
  decode 0x00000053 = .ok .bdsTreehashUpdate ∧
  decode 0x00000054 = .ok .bdsExport ∧
  decode 0x00000066 = .ok .sign ∧
  decode 0x00000067 = .ok .verify ∧
  decode 0x00000002 = .error .opcode ∧
  decode 0x00000166 = .error .reservedBits ∧
  decode 0x00001000 = .error .reservedBits

/-! ### The step -/

/-- One step takes the next move (spec/70 R512): a host access, the sequencer's turn or a reset; with no move left the
sequencer moves, and an idle sequencer changes nothing (R504). The sequencer's turn on a legal pending word is exec of the
decoded command, in the state whose list of moves is one shorter (spec/40 R173); and the step from the state withFetchWord makes
is exec of the word's command right after its issue (R172). The list of moves is the model's (log entry 1), and so is taking a
host access of 2 or 4 bytes as one step (log entry 18: R512 item 1 says one BUF byte). -/
def Obligations.StepRunsDecodedCommand : Prop :=
  (∀ (s : State) (rest : List Move),
    (∀ a, step { s with sched := .host a :: rest } = hostAccess { s with sched := rest } a) ∧
    step { s with sched := .reset :: rest } = .next (resetMove { s with sched := rest }) ∧
    (s.pending = none → step { s with sched := .sequencer :: rest } = .next { s with sched := rest }) ∧
    (s.pending = none → step { s with sched := [] } = .next { s with sched := [] }) ∧
    (∀ p i, s.pending = some p → decode p.word = .ok i →
      step { s with sched := .sequencer :: rest } = exec i { s with sched := rest } ∧
      step { s with sched := [] } = exec i { s with sched := [] })) ∧
  (∀ (s : State) (nbits w : Nat) (i : Instr), decodeTableWord nbits w = some i →
    step (s.withFetchWord nbits w) = exec i (s.issue (BitVec.ofNat 32 (w % 2 ^ nbits))))

/-! ### Reset -/

/-- R500: the state after a reset, whatever the state before it, row by row of R500's table. The size of the BDS arrays while
no key is loaded is the model's choice (log entry 6), which R500 leaves to a model. -/
def Obligations.ResetState : Prop :=
  (∀ s : State, step { s with sched := .reset :: s.sched } = .next (resetMove s)) ∧
  csrRead State.reset .caps = 0x0E08143F ∧
  ∀ s : State, ∃ r, r = resetMove s ∧
    csrRead r .id = 0x584D5353 ∧ csrRead r .version = 0x00010000 ∧ csrRead r .caps = csrRead s .caps ∧
    csrRead r .cmd = 0 ∧ csrRead r .status = 0 ∧ csrRead r .errCode = 0 ∧ csrRead r .intEn = 0 ∧
    csrRead r .intStatus = 0 ∧ r.irq = false ∧ csrRead r .sponge = 0 ∧ csrRead r .cfg = 0 ∧ csrRead r .keycfg = 0 ∧
    (∀ i, csrRead r (.arg i) = 0) ∧ csrRead r .res0 = 0 ∧ csrRead r .res1 = 0 ∧ (∀ j, csrRead r (.adrs j) = 0) ∧
    csrRead r .keyIndex = 0 ∧ csrRead r .keyInfo = 0 ∧ csrRead r .sigSize = 0 ∧ csrRead r .cmdCount = 0 ∧
    (∀ i, csrRead r (.ksLo i) = 0 ∧ csrRead r (.ksHi i) = 0) ∧
    r.sp.phase = .idle ∧ rateOf r.sp.rate = 168 ∧ r.sp.pos = 0 ∧
    (∀ a, r.buf.read a = none) ∧
    r.key.valid = false ∧ r.key.hf.code = 0 ∧ r.key.sigType = 0 ∧ r.key.addrFmt = 0 ∧ r.key.h = 0 ∧ r.key.k = 0 ∧
    r.key.strategy = .basic ∧ r.key.idx = 0 ∧ r.key.skSeed = zeros 32 ∧ r.key.skPrf = zeros 32 ∧
    r.key.pubSeed = zeros 32 ∧ r.key.root = zeros 32 ∧ r.key.rawSeed = zeros 48 ∧
    (∀ x ∈ r.bds.stack, x = zeros 32) ∧ (∀ l ∈ r.bds.stackLevels, l = 0) ∧ r.bds.stackOffset = 0 ∧
    (∀ x ∈ r.bds.auth, x = zeros 32) ∧ (∀ x ∈ r.bds.keep, x = zeros 32) ∧ (∀ x ∈ r.bds.retain, x = zeros 32) ∧
    (∀ (i : Nat) (t : TreehashInst), r.bds.th[i]? = some t →
      t.h = i ∧ t.nextIdx = 0 ∧ t.stackUsage = 0 ∧ t.completed = false ∧ t.node = zeros 32) ∧
    r.bdsSync = false ∧ r.pending = none

/-! ### Invariants -/

/-- The invariants hold at reset. State.reset has the model's reset values for the fields that are the model's own
(log entries 1 to 3 and 6). -/
def Obligations.InvariantsAtReset : Prop :=
  State.reset.Inv ∧ State.reset.KeySound ∧ State.reset.LockStep

/-- Every step keeps the invariant: reserved bits read 0 (spec/10 R40 to R45), SP.pos stays in its block (R52), BUF keeps its
canonical form inside BUF_BYTES (R53), the key store keeps R55 items 1 to 4, the BDS state keeps the shape of R56 and R58, and
the report registers agree (R33, R39, R60). -/
def Obligations.StepKeepsInvariant : Prop :=
  ∀ s t : State, s.Inv → step s = .next t → t.Inv

/-- Every step keeps items 5 and 6 of R55: the key's seeds are the expansion of its raw seed, and its root is the root of its
tree. -/
def Obligations.StepKeepsKeySound : Prop :=
  ∀ s t : State, s.Inv → s.KeySound → step s = .next t → t.KeySound

/-- Every step keeps what BDS_SYNC = 1 promises (R59): the BDS state is that of the scheduling contract for KEY.idx. -/
def Obligations.StepKeepsLockStep : Prop :=
  ∀ s t : State, s.Inv → s.LockStep → step s = .next t → t.LockStep

/-! ### What every command does -/

/-- Every command is defined in every state (spec/70 R520): it is never refused, its only fault is the never-written fault of
one of its input bytes (spec/20 R105), and where the checks that need no BUF byte pass it faults exactly if some input byte was
never written. Which of several such bytes the fault names is left open here (log entry 17). KEYGEN_XSEED and VERIFY check the
descriptor before they read the rest (log entry 7). -/
def Obligations.CommandsFaultOnlyOnUnwrittenInputs : Prop :=
  ∀ (i : Instr) (s : State),
    (∀ r, exec i s ≠ .refused r) ∧
    (∀ f, exec i s = .fault f → passes s i ∧ ∃ a, f = .unwrittenRead a ∧ unwrittenInput s i a) ∧
    (passes s i → i ≠ .keygenXseed → i ≠ .verify → (∃ a, unwrittenInput s i a) →
      ∃ a, exec i s = .fault (.unwrittenRead a) ∧ unwrittenInput s i a)

/-- A command whose checks fail completes with the error of the first one that fails, in its rule's order (spec/40 R177,
spec/60 R453), and commits nothing else (R174). For SET_INDEX on an exhausted key the order is that of R416's numbered checks,
not of its corner case, which is the model's choice (log entry 16, DESIGN CHOICE). -/
def Obligations.FirstFailingCheckIsReported : Prop :=
  ∀ (i : Instr) (s : State) (e : CmdError), firstError (checks s i) = some e → exec i s = .next (s.failWith e)

/-- The checks of stage P8 that read a descriptor, in KEYGEN_XSEED (R411 items 4 to 6) and VERIFY (R418 items 5 to 7): the
first that fails is reported. It needs only the 3 descriptor bytes to be written. That this error comes before the
never-written fault of another input byte, with which R175 and R105 say a command does not complete, is the model's deduction
(log entry 7, DEDUCED), not a rule of the spec. -/
def Obligations.DescriptorChecksAreReported : Prop :=
  ∀ (s : State) (d : Bytes) (e : CmdError),
    (passes s .keygenXseed → readArg s 0 3 = .ok d →
      firstError (descChecks d ++ descFollowUp s .keygenXseed (descHeight d)) = some e →
      exec .keygenXseed s = .next (s.failWith e)) ∧
    (passes s .verify → readArg s 4 3 = .ok d →
      firstError (descChecks d ++ descFollowUp s .verify (descHeight d)) = some e →
      exec .verify s = .next (s.failWith e))

/-- The frame of a completion, for all 42 commands: what no command writes (spec/10 R32, R34, spec/40 R173, R174), and which
commands write KS, SP, the key store, the BDS state, VERIFY_OK, RES0 and RES1 (R50, R52, R55, R59, R61, spec/30 R150). -/
def Obligations.CompletionFrame : Prop :=
  ∀ (i : Instr) (s t : State), exec i s = .next t →
    t.pending = none ∧ t.done = true ∧ t.cmdCount = s.cmdCount + 1 ∧
    (t.intStatus = s.intStatus ||| 0x1 ∨ t.intStatus = s.intStatus ||| 0x3) ∧
    t.build = s.build ∧ t.intEn = s.intEn ∧ t.cfg = s.cfg ∧ t.keycfg = s.keycfg ∧ t.arg = s.arg ∧ t.adrs = s.adrs ∧
    t.readData = s.readData ∧ t.sched = s.sched ∧
    (i.usesSponge = false → t.ks = s.ks ∧ t.sp = s.sp) ∧
    (i.writesKey = false → t.key = s.key ∧ t.bds = s.bds ∧ t.bdsSync = s.bdsSync) ∧
    (i ≠ .verify → t.verifyOk = s.verifyOk) ∧
    (i.writesRes0 = false → t.res0 = s.res0) ∧
    (i.writesRes1 = false → t.res1 = s.res1)

/-- The frame of BUF, for all 42 commands: every byte outside the outLen bytes at ARG0 reads as before; a command with no BUF
output leaves every byte as it was (spec/20 R104, R114, spec/30 R150). -/
def Obligations.BufFrame : Prop :=
  ∀ (i : Instr) (s t : State), s.Inv → exec i s = .next t →
    ∀ a, (a < argN s 0 ∨ argN s 0 + outLen s i ≤ a) → t.buf.read a = s.buf.read a

/-- R174: an error completion changes nothing but the error report, and ERR_CODE is detail, opcode and class in their
places. -/
def Obligations.ErrorsCommitNothing : Prop :=
  (∀ (i : Instr) (s t : State), s.err = false → exec i s = .next t → t.err = true →
    ∃ e : CmdError,
      t.errCode.toNat = e.detail.toNat * 65536 + (s.latch.word.toNat % 256) * 256 + e.code.toNat ∧
      t = { s with
            errCode := t.errCode
            err := true
            done := true
            intStatus := s.intStatus ||| 0x3
            cmdCount := s.cmdCount + 1
            pending := none }) ∧
  (∀ (i : Instr) (s t : State), exec i s = .next t → t.err = s.err → s.err = false → t.errCode = s.errCode)

/-- R61: every command but the four that own KS and SP runs the same whatever KS and SP hold, and leaves them as they are. -/
def Obligations.PrivateHashContexts : Prop :=
  ∀ (i : Instr) (s : State) (ks : Lanes) (sp : SpongeCtl), i.usesSponge = false →
    exec i { s with ks := ks, sp := sp } = mapNext (fun t => { t with ks := ks, sp := sp }) (exec i s)

/-- Every command outside the key rows of spec/30 R150, VERIFY among them (spec/46 R418), runs the same whatever the key store
and the BDS state hold, and leaves them as they are. -/
def Obligations.KeyIndependence : Prop :=
  ∀ (i : Instr) (s : State) (key : KeyStore) (bds : Bds) (sync : Bool), i.usesKey = false →
    exec i { s with key := key, bds := bds, bdsSync := sync } =
      mapNext (fun t => { t with key := key, bds := bds, bdsSync := sync }) (exec i s)

/-- R423: no command but the three that replace or erase the key lowers its index or changes anything else of it; a successful
SIGN raises the index by exactly 1, a successful SET_INDEX sets it to its operand, and a failed command leaves it. -/
def Obligations.IndexMonotone : Prop :=
  ∀ (i : Instr) (s t : State), s.Inv → s.err = false → exec i s = .next t →
    (i.replacesKey = false → s.key.idx.toNat ≤ t.key.idx.toNat ∧ { t.key with idx := s.key.idx } = s.key) ∧
    (i = .sign → t.err = false → t.key.idx.toNat = s.key.idx.toNat + 1) ∧
    (i = .setIndex → t.err = false → t.key.idx.toNat = argN s 1) ∧
    (t.err = true → t.key = s.key)

/-- R171 and R513: any number of host accesses between the issue and the commit leaves the command's result as it is; only
INT_EN, INT_STATUS and the host's last read value can differ. An access of any width is one step (log entry 18). -/
def Obligations.LatencyIndependence : Prop :=
  ∀ (s t : State) (p : Pending) (as : List Access) (rest : List Move), s.pending = some p →
    step { s with sched := .sequencer :: rest } = .next t →
    ∃ t', Sys2Proof.core.run (as.length + 1) { s with sched := as.map .host ++ .sequencer :: rest } = .next t' ∧
      { t' with intEn := t.intEn, intStatus := t.intStatus, readData := t.readData } = t

/-! ### Host accesses -/

/-- R103: each of the eight conditions makes an access a bus error, which sets BUSERR_IP and does nothing else; a read then
returns 0. That an access of 3 bytes is one too is not in R103's list: it is the model's deduction from D5 of spec/92 (log entry
11, DEDUCED), and it stands with the accesses wider than 4 bytes. The registers and so the reserved offsets are those of R63
and the widths those of R101 and R102; reservedOffset takes R63's map as the model's csrAt has it. -/
def Obligations.BusErrors : Prop :=
  ∀ (s : State) (a : Access), busErrorCase s a →
    match a with
    | .read _ _ => hostAccess s a = .next { s with intStatus := s.intStatus ||| 0x4, readData := 0 }
    | .write _ _ _ => hostAccess s a = .next { s with intStatus := s.intStatus ||| 0x4 }

/-- The register map (R63, R102): what a 4-byte read of each register's offset returns, whether or not a command is pending;
the read changes nothing else. The value of STATUS is the one whose bits StatusAndInterruptLine gives (R39). -/
def Obligations.RegisterReads : Prop :=
  ∀ (s : State), ∃ rd : Nat → Word,
    (∀ off, off ∈ [0x000, 0x004, 0x008, 0x010, 0x014, 0x018, 0x01C, 0x020, 0x028, 0x030, 0x034, 0x060, 0x064, 0x070, 0x074,
        0x078, 0x07C] ++ (List.range 8).map (fun i => 0x040 + 4 * i) ++ (List.range 8).map (fun j => 0x0A0 + 4 * j) ++
        (List.range 50).map (fun i => 0x100 + 4 * i) →
      hostAccess s (.read (BitVec.ofNat 16 off) .word) = .next { s with readData := rd off }) ∧
    rd 0x000 = 0x584D5353 ∧ rd 0x004 = 0x00010000 ∧ rd 0x010 = 0 ∧ rd 0x014 = csrRead s .status ∧ rd 0x018 = s.errCode ∧ rd 0x01C = s.intEn ∧
    rd 0x020 = s.intStatus ∧ rd 0x030 = s.cfg ∧ rd 0x034 = s.keycfg ∧ rd 0x060 = s.res0 ∧ rd 0x064 = s.res1 ∧
    rd 0x07C = s.cmdCount ∧
    (∀ i : Fin 8, rd (0x040 + 4 * i.val) = s.arg.get i) ∧ (∀ j : Fin 8, rd (0x0A0 + 4 * j.val) = s.adrs.get j) ∧
    (∀ i : Fin 25, (s.ks.get i) = rd (0x104 + 8 * i.val) ++ rd (0x100 + 8 * i.val)) ∧
    (rd 0x008).toNat = s.build.buf.log2 * 2 ^ 24 + (s.build.kMax % 256) * 2 ^ 16 + (s.build.hMax % 256) * 2 ^ 8 + 63 ∧
    (rd 0x028).toNat = (s.sp.pos % 256) * 2 ^ 16 + (if rateOf s.sp.rate = 136 then 256 else 0) + s.sp.phase.code.toNat ∧
    rd 0x070 = (if s.key.valid then s.key.idx else 0) ∧
    rd 0x078 = (if s.key.valid then BitVec.ofNat 32 (2180 + 32 * s.key.h.toNat) else 0) ∧
    (rd 0x074).toNat =
      (if s.key.valid then
        2 ^ 31 + s.key.strategy.bit.toNat * 2 ^ 28 + s.key.k.toNat * 2 ^ 24 + s.key.addrFmt.toNat * 2 ^ 16 +
          s.key.h.toNat * 2 ^ 8 + s.key.sigType.toNat * 2 ^ 4 + s.key.hf.code.toNat
      else 0)

/-- R39 and R62: the fields of STATUS; and R462: IRQ is 1 exactly if some bit of 3:0 is set in both INT_STATUS and INT_EN. -/
def Obligations.StatusAndInterruptLine : Prop :=
  ∀ (s : State),
    (csrRead s .status).getLsbD 0 = s.pending.isSome ∧ (csrRead s .status).getLsbD 1 = s.done ∧
    (csrRead s .status).getLsbD 2 = s.err ∧ (csrRead s .status).getLsbD 3 = s.verifyOk ∧
    (csrRead s .status).getLsbD 4 = s.key.valid ∧
    ((csrRead s .status).getLsbD 5 = true ↔ s.key.valid = true ∧ s.key.strategy = .fast) ∧
    (csrRead s .status).getLsbD 6 = s.bdsSync ∧
    ((csrRead s .status).getLsbD 7 = true ↔ s.key.valid = true ∧ s.key.idx.toNat = 2 ^ s.key.h.toNat) ∧
    (csrRead s .status).extractLsb 31 8 = 0 ∧
    (s.irq = true ↔ ∃ b, b < 4 ∧ s.intStatus.getLsbD b = true ∧ s.intEn.getLsbD b = true)

/-- R170: while BUSY = 0, a 4-byte write of each RW register stores the defined bits of the value and changes nothing else; a
write of one half of a lane keeps the other (R51); INT_STATUS is write-1-to-clear (R42, R461). -/
def Obligations.RegisterWrites : Prop :=
  ∀ (s : State) (v : Word), s.pending = none →
    hostAccess s (.write 0x01C .word v) = .next { s with intEn := v &&& 0x0000000F } ∧
    hostAccess s (.write 0x020 .word v) = .next { s with intStatus := s.intStatus &&& ~~~v } ∧
    hostAccess s (.write 0x030 .word v) = .next { s with cfg := v &&& 0x0000010F } ∧
    hostAccess s (.write 0x034 .word v) = .next { s with keycfg := v &&& 0x1F0FFFFF } ∧
    (∀ i : Fin 8, hostAccess s (.write (BitVec.ofNat 16 (0x040 + 4 * i.val)) .word v) =
      .next { s with arg := s.arg.set i v }) ∧
    (∀ j : Fin 8, hostAccess s (.write (BitVec.ofNat 16 (0x0A0 + 4 * j.val)) .word v) =
      .next { s with adrs := s.adrs.set j v }) ∧
    (∀ i : Fin 25,
      hostAccess s (.write (BitVec.ofNat 16 (0x100 + 8 * i.val)) .word v) =
        .next { s with ks := s.ks.set i ((s.ks.get i).extractLsb 63 32 ++ v) } ∧
      hostAccess s (.write (BitVec.ofNat 16 (0x104 + 8 * i.val)) .word v) =
        .next { s with ks := s.ks.set i (v ++ (s.ks.get i).extractLsb 31 0) })

/-- R171: while BUSY = 1 a CMD write is dropped and sets OVERRUN_IP, and writes to INT_EN and INT_STATUS take effect; nothing
else changes. A write to any other register and every BUF access, of any width and at any offset of BUF, is a bus error
(R103). -/
def Obligations.BusyWrites : Prop :=
  ∀ (s : State) (v : Word), s.pending.isSome = true →
    hostAccess s (.write 0x010 .word v) = .next { s with intStatus := s.intStatus ||| 0x8 } ∧
    hostAccess s (.write 0x01C .word v) = .next { s with intEn := v &&& 0x0000000F } ∧
    hostAccess s (.write 0x020 .word v) = .next { s with intStatus := s.intStatus &&& ~~~v } ∧
    (∀ off, off ∈ [0x000, 0x004, 0x008, 0x014, 0x018, 0x028, 0x030, 0x034, 0x060, 0x064, 0x070, 0x074, 0x078, 0x07C] ++
        (List.range 8).map (fun i => 0x040 + 4 * i) ++ (List.range 8).map (fun j => 0x0A0 + 4 * j) ++
        (List.range 50).map (fun i => 0x100 + 4 * i) →
      hostAccess s (.write (BitVec.ofNat 16 off) .word v) = .next { s with intStatus := s.intStatus ||| 0x4 }) ∧
    (∀ (p : Nat) (size : AccessSize), p < s.build.buf.bytes →
      hostAccess s (.write (BitVec.ofNat 16 (0x4000 + p)) size v) = .next { s with intStatus := s.intStatus ||| 0x4 } ∧
      hostAccess s (.read (BitVec.ofNat 16 (0x4000 + p)) size) =
        .next { s with intStatus := s.intStatus ||| 0x4, readData := 0 })

/-- R172: a CMD write of any word while BUSY = 0 is the issue step. -/
def Obligations.CmdWriteIssues : Prop :=
  ∀ (s : State) (c : Word), s.pending = none →
    hostAccess s (.write 0x010 .word c) =
      .next { s with
              pending := some { word := c, arg := s.arg, adrs := s.adrs, cfg := s.cfg, keycfg := s.keycfg }
              errCode := 0
              res0 := 0
              res1 := 0
              done := false
              err := false
              verifyOk := false } ∧
    (∀ t, hostAccess s (.write 0x010 .word c) = .next t → (csrRead t .status).getLsbD 0 = true)

/-- R101: BUF accesses of 1, 2 and 4 bytes while BUSY = 0, little-endian: a write stores its bytes and no others; a read returns
the composition of the bytes, or is the never-written fault. That such an access is one step is the model's choice between R101
and R512 item 1 (log entry 18). -/
def Obligations.BufHostAccess : Prop :=
  ∀ (s : State) (size : AccessSize) (n p : Nat), s.pending = none → size.bytes = some n → p % n = 0 →
    p + n ≤ s.build.buf.bytes →
    (∀ v : Word, ∃ m : Memory,
      hostAccess s (.write (BitVec.ofNat 16 (0x4000 + p)) size v) = .next { s with buf := m } ∧
      (∀ i, i < n → m.read (p + i) = some (v.extractLsb' (8 * i) 8)) ∧
      (∀ a, a < p ∨ p + n ≤ a → m.read a = s.buf.read a)) ∧
    (∀ bs : Bytes, bs.length = n → (∀ i, i < n → s.buf.read (p + i) = bs[i]?) →
      ∃ v : Word, hostAccess s (.read (BitVec.ofNat 16 (0x4000 + p)) size) = .next { s with readData := v } ∧
        ∀ i, i < 4 → v.extractLsb' (8 * i) 8 = bs.getD i 0) ∧
    ((∃ i, i < n ∧ s.buf.read (p + i) = none) →
      ∃ a, hostAccess s (.read (BitVec.ofNat 16 (0x4000 + p)) size) = .fault (.unwrittenRead a) ∧ p ≤ a ∧ a < p + n ∧
        s.buf.read a = none)

/-! ### Byte strings and hashing -/

/-- R12 and R13: toByte(x, k) is the k-byte big-endian encoding of x mod 2^(8k), and fromBE undoes it. -/
def Obligations.ToByteIsBigEndian : Prop :=
  ∀ x k : Nat,
    (toByte x k).length = k ∧
    (∀ i, i < k → (toByte x k)[i]? = some (BitVec.ofNat 8 (x / 256 ^ (k - 1 - i)))) ∧
    fromBE (toByte x k) = x % 2 ^ (8 * k)

/-- R204: one round, step map by step map, lane by lane. -/
def Obligations.KeccakRoundLanes : Prop :=
  ∀ (A : Lanes) (rc : Lane), ∃ (C D : Fin 5 → Lane) (A' B A'' : Fin 25 → Lane),
    (∀ x : Fin 5, C x =
      lane A x ^^^ lane A (x + 5) ^^^ lane A (x + 10) ^^^ lane A (x + 15) ^^^ lane A (x + 20)) ∧
    (∀ x : Fin 5, D x = C (x + 4) ^^^ (C (x + 1)).rotateLeft 1) ∧
    (∀ x y : Fin 5, A' ⟨x + 5 * y, by omega⟩ = lane A (x + 5 * y) ^^^ D x) ∧
    (∀ x y : Fin 5, B ⟨y + 5 * ((2 * x.val + 3 * y.val) % 5), by omega⟩ =
      (A' ⟨x + 5 * y, by omega⟩).rotateLeft (keccakRot.getD (x + 5 * y) 0)) ∧
    (∀ x y : Fin 5, A'' ⟨x + 5 * y, by omega⟩ =
      B ⟨x + 5 * y, by omega⟩ ^^^
        (~~~(B ⟨(x.val + 1) % 5 + 5 * y, by omega⟩) &&& B ⟨(x.val + 2) % 5 + 5 * y, by omega⟩)) ∧
    (∀ i : Fin 25, lane (keccakRound A rc) i = if i.val = 0 then A'' i ^^^ rc else A'' i)

/-- R217: SPONGE_INIT, SPONGE_ABSORB of M and SPONGE_SQUEEZE of L bytes compute Sponge(rate, M, L); any split of M over several
absorbs (R216) and any split of L over several squeezes gives the same. -/
def Obligations.StreamingSpongeIsOneShot : Prop :=
  (∀ (sel : RateSel) (M : Bytes) (L : Nat),
    let r := absorbStream (rateOf sel) zeroLanes 0 M
    let q := squeezeStart r.1 { phase := .absorb, rate := sel, pos := r.2 }
    (squeezeStream (rateOf sel) L q.1 q.2).2.2 = sponge sel M L) ∧
  (∀ (rate : Nat) (A : Lanes) (pos : Nat) (M₁ M₂ : Bytes),
    absorbStream rate A pos (M₁ ++ M₂) =
      absorbStream rate (absorbStream rate A pos M₁).1 (absorbStream rate A pos M₁).2 M₂) ∧
  (∀ (rate : Nat) (A : Lanes) (pos L₁ L₂ : Nat),
    let a := squeezeStream rate L₁ A pos
    let b := squeezeStream rate L₂ a.1 a.2.1
    squeezeStream rate (L₁ + L₂) A pos = (b.1, b.2.1, a.2.2 ++ b.2.2))

/-- R230: the padded message is M, 0x80, the least number z of zero bytes that makes the length a multiple of 64, and the bit
length in 8 bytes. -/
def Obligations.Sha2PaddingIsMinimal : Prop :=
  ∀ M : Bytes, ∃ z,
    sha2Pad M = M ++ [0x80] ++ zeros z ++ toByte (8 * M.length) 8 ∧
    (sha2Pad M).length % 64 = 0 ∧
    ∀ z', (M.length + 1 + z' + 8) % 64 = 0 → z ≤ z'

/-! ### Hash Core commands -/

/-- KECCAK_F (R210), SPONGE_INIT (R215), SPONGE_ABSORB (R216), SPONGE_SQUEEZE (R217), SHAKE128 (R220), SHAKE256 (R221) and SHA256
(R235): the state each commits. -/
def Obligations.HashCoreResults : Prop :=
  ∀ (s : State),
    exec .keccakF s = .next { s with ks := keccakRC.foldl keccakRound s.ks }.succeed ∧
    (∀ sel, exec (.spongeInit sel) s =
      .next { s with ks := Vector.replicate 25 0, sp := { phase := .absorb, rate := sel, pos := 0 } }.succeed) ∧
    (∀ M, passes s .spongeAbsorb → readArg s 0 (argN s 1) = .ok M →
      exec .spongeAbsorb s =
        .next { s with
                ks := (absorbStream (rateOf s.sp.rate) s.ks s.sp.pos M).1
                sp := { s.sp with pos := (absorbStream (rateOf s.sp.rate) s.ks s.sp.pos M).2 } }.succeed) ∧
    (passes s .spongeSqueeze →
      let rate := rateOf s.sp.rate
      let q :=
        if s.sp.phase = .absorb then (keccakF (xorByte (xorByte s.ks s.sp.pos 0x1F) (rate - 1) 0x80), 0)
        else (s.ks, s.sp.pos)
      let r := squeezeStream rate (argN s 1) q.1 q.2
      exec .spongeSqueeze s =
        .next { s with
                ks := r.1
                sp := { phase := .squeeze, rate := s.sp.rate, pos := r.2.1 }
                buf := s.buf.write (argN s 0) r.2.2 }.succeed) ∧
    (∀ M, readArg s 2 (argN s 3) = .ok M →
      (passes s .shake128 → exec .shake128 s = .next (s.writeBuf (argN s 0) (sponge .rate168 M (argN s 1))).succeed) ∧
      (passes s .shake256 → exec .shake256 s = .next (s.writeBuf (argN s 0) (sponge .rate136 M (argN s 1))).succeed) ∧
      (passes s .sha256 → exec .sha256 s = .next (s.writeBuf (argN s 0) (sha256 M)).succeed))

/-- The hash pair that CFG.HASH_FN and CFG.N64 select, with its n, or the error they give (R44, R455). Then CORE_HASH (R260),
PRF (R261), HASH_F (R262), HASH_H (R263) and H_MSG (R264): the state each commits, with the domain prefixes, the keys and the
masks written out (R250 to R255). ADRS7 does not matter: adrsPrf replaces it. -/
def Obligations.DerivedHashResults : Prop :=
  (∀ s : State,
    let hashFn := s.latch.cfg.toNat % 16
    let n64 := s.latch.cfg.getLsbD 8
    (hashFn = 0 → n64 = false → cfgSuite s = .ok .sha2 ∧ Suite.sha2.n = 32) ∧
    (hashFn = 0 → n64 = true → cfgSuite s = .error (.raise .configError)) ∧
    (hashFn = 1 → ∃ n, cfgSuite s = .ok (.shake128 n) ∧ (Suite.shake128 n).n = if n64 then 64 else 32) ∧
    (hashFn = 2 → ∃ n, cfgSuite s = .ok (.shake256 n) ∧ (Suite.shake256 n).n = if n64 then 64 else 32) ∧
    (2 < hashFn → cfgSuite s = .error (.raise (.failedConversion .hashFunction)))) ∧
  ∀ (s : State) (su : Suite) (K X : Bytes), cfgSuite s = .ok su →
    let keyed := fun (m : Nat) => adrsPrf su K s.latch.adrs m
    (passes s .coreHash → readArg s 2 (argN s 3) = .ok K → readArg s 4 (argN s 5) = .ok X →
      exec .coreHash s = .next (s.writeBuf (argN s 0) (digest su (toByte (argN s 1) su.n ++ K ++ X))).succeed) ∧
    (passes s .prf → readArg s 2 su.n = .ok K → readArg s 4 32 = .ok X →
      exec .prf s = .next (s.writeBuf (argN s 0) (digest su (toByte 3 su.n ++ K ++ X))).succeed) ∧
    (passes s .hashF → readArg s 2 su.n = .ok K → readArg s 4 su.n = .ok X →
      exec .hashF s =
        .next (s.writeBuf (argN s 0)
          (digest su (toByte 0 su.n ++ keyed 0 ++ List.zipWith (· ^^^ ·) X (keyed 1)))).succeed) ∧
    (passes s .hashH → readArg s 2 su.n = .ok K → readArg s 4 (2 * su.n) = .ok X →
      exec .hashH s =
        .next (s.writeBuf (argN s 0)
          (digest su (toByte 1 su.n ++ keyed 0 ++ List.zipWith (· ^^^ ·) X (keyed 1 ++ keyed 2)))).succeed) ∧
    (passes s .hMsg → readArg s 2 (3 * su.n) = .ok K → readArg s 4 (argN s 5) = .ok X →
      exec .hMsg s = .next (s.writeBuf (argN s 0) (digest su (toByte 2 su.n ++ K ++ X))).succeed)

/-! ### WOTS+ -/

/-- R7 and R281: the parameters for n = 32 and n = 64, and digit o of BaseW(X, out_len), which is the high nibble of byte
o div 2 for an even o and the low nibble for an odd o. -/
def Obligations.BaseWDigits : Prop :=
  (wotsLen1 32 = 64 ∧ wotsLen2 32 = 3 ∧ wotsLen 32 = 67 ∧ wotsLen1 64 = 128 ∧ wotsLen2 64 = 3 ∧ wotsLen 64 = 131) ∧
  (∀ (X : Bytes) (outLen : Nat), outLen ≤ 2 * X.length →
    (baseW X outLen).length = outLen ∧
    ∀ o, o < outLen →
      (baseW X outLen).getD o 0 = ((X.getD (o / 2) 0).toNat >>> (if o % 2 = 0 then 4 else 0)) &&& 15) ∧
  baseW [0x12, 0x34] 4 = [1, 2, 3, 4] ∧ baseW [0x12, 0x34] 3 = [1, 2, 3]

/-- R282: the digits of an n-byte digest: its base-16 digits, then the high, middle and low nibble of the checksum
Σ (15 - D1[i]), which is at most 15 len1. -/
def Obligations.ChecksumDigits : Prop :=
  ∀ (M : Bytes) (n : Nat), n = 32 ∨ n = 64 → M.length = n →
    let csum := ((List.range (2 * n)).map fun o => 15 - (wotsDigits M n).getD o 0).sum
    (wotsDigits M n).length = wotsLen n ∧
    (∀ o, o < 2 * n →
      (wotsDigits M n).getD o 0 =
        if o % 2 = 0 then (M.getD (o / 2) 0).toNat / 16 else (M.getD (o / 2) 0).toNat % 16) ∧
    csum ≤ 15 * (2 * n) ∧
    (wotsDigits M n).getD (2 * n) 0 = csum / 256 ∧
    (wotsDigits M n).getD (2 * n + 1) 0 = csum / 16 % 16 ∧
    (wotsDigits M n).getD (2 * n + 2) 0 = csum % 16

/-- R284: the loop of GenChain: no step from rung 15 on or with no step left, else one F under hash field s. -/
def Obligations.ChainRungs : Prop :=
  ∀ (su : Suite) (X : Bytes) (s t : Nat) (P : Bytes) (a : Adrs),
    genChain su X s 0 P a = X ∧
    (15 ≤ s → genChain su X s t P a = X) ∧
    (s < 15 → genChain su X s (t + 1) P a = genChain su (hashF su P (setW a 6 s) X) (s + 1) t P a)

/-- R289: recovering the public key from a signature gives the public key. -/
def Obligations.RecoveredKeyIsPublicKey : Prop :=
  ∀ (su : Suite) (M S P : Bytes) (a : Adrs),
    wotsPkFromSig su (wotsSign su M S P a) M P a = wotsPkgen su S P a

/-- WOTS_EXPAND_SEED (R300, R283), WOTS_GEN_CHAIN (R301), WOTS_BASE_W (R302), WOTS_DIGITS (R303) and OTS_SEED (R307, R285): the
state each commits. WOTS_BASE_W reads no CFG and WOTS_DIGITS only CFG.N64. -/
def Obligations.WotsPartResults : Prop :=
  ∀ (s : State) (P X : Bytes),
    (∀ su, cfgSuite s = .ok su → readArg s 4 su.n = .ok X →
      (passes s .wotsExpandSeed →
        exec .wotsExpandSeed s =
          .next (s.writeBuf (argN s 0)
            ((List.range (wotsLen su.n)).flatMap fun i => digest su (toByte 3 su.n ++ X ++ toByte i 32))).succeed) ∧
      (passes s .wotsGenChain → readArg s 2 su.n = .ok P →
        exec .wotsGenChain s =
          .next (s.writeBuf (argN s 0) (genChain su X (argN s 1) (argN s 3) P s.latch.adrs)).succeed) ∧
      (passes s .otsSeed →
        exec .otsSeed s =
          .next (s.writeBuf (argN s 0)
            (digest su (toByte 3 su.n ++ X ++ adrsTail ((s.latch.adrs.set 5 0).set 6 0) 0))).succeed)) ∧
    (passes s .wotsBaseW → readArg s 4 (argN s 5) = .ok X →
      exec .wotsBaseW s =
        .next (s.writeBuf (argN s 0) ((baseW X (argN s 3)).map fun d => BitVec.ofNat 8 d)).succeed) ∧
    (passes s .wotsDigits → readArg s 4 (if s.latch.cfg.getLsbD 8 then 64 else 32) = .ok X →
      exec .wotsDigits s =
        .next (s.writeBuf (argN s 0)
          ((wotsDigits X (if s.latch.cfg.getLsbD 8 then 64 else 32)).map fun d => BitVec.ofNat 8 d)).succeed)

/-- WOTS_PKGEN (R304), WOTS_SIGN (R305) and WOTS_PK_FROM_SIG (R306): the state each commits, chunk by chunk (R286 to R288). -/
def Obligations.WotsKeyResults : Prop :=
  ∀ (s : State) (su : Suite) (P X M : Bytes), cfgSuite s = .ok su → readArg s 2 su.n = .ok P →
    (passes s .wotsPkgen → readArg s 4 su.n = .ok X →
      exec .wotsPkgen s =
        .next (s.writeBuf (argN s 0)
          ((List.range (wotsLen su.n)).flatMap fun i =>
            genChain su (prf su X (toByte i 32)) 0 15 P (setW s.latch.adrs 5 i))).succeed) ∧
    (passes s .wotsSign → readArg s 4 su.n = .ok X → readArg s 5 su.n = .ok M →
      exec .wotsSign s =
        .next (s.writeBuf (argN s 0)
          ((List.range (wotsLen su.n)).flatMap fun i =>
            genChain su (prf su X (toByte i 32)) 0 ((wotsDigits M su.n).getD i 0) P (setW s.latch.adrs 5 i))).succeed) ∧
    (passes s .wotsPkFromSig → readArg s 4 (wotsLen su.n * su.n) = .ok X → readArg s 5 su.n = .ok M →
      exec .wotsPkFromSig s =
        .next (s.writeBuf (argN s 0)
          ((List.range (wotsLen su.n)).flatMap fun i =>
            genChain su ((X.drop (su.n * i)).take su.n) ((wotsDigits M su.n).getD i 0)
              (15 - (wotsDigits M su.n).getD i 0) P (setW s.latch.adrs 5 i))).succeed)

/-! ### Trees -/

/-- R320: LTree is the loop that halves the list, height by height, until one chunk is left. -/
def Obligations.LTreeHalves : Prop :=
  ∀ (su : Suite) (pk : List Bytes) (P : Bytes) (a : Adrs), pk ≠ [] → LTreeRun su P a 0 pk (lTree su pk P a)

/-- L_TREE (R330) and GEN_LEAF (R331, R321): the state each commits. -/
def Obligations.LeafResults : Prop :=
  ∀ (s : State) (su : Suite) (P X : Bytes), cfgSuite s = .ok su → readArg s 2 su.n = .ok P →
    (passes s .lTree → readArg s 4 (wotsLen su.n * su.n) = .ok X →
      ∃ leaf,
        LTreeRun su P s.latch.adrs 0 ((List.range (wotsLen su.n)).map fun i => (X.drop (su.n * i)).take su.n) leaf ∧
        exec .lTree s = .next (s.writeBuf (argN s 0) leaf).succeed) ∧
    (passes s .genLeaf → readArg s 4 su.n = .ok X →
      ∃ (leaf : Bytes) (ots lt : Adrs),
        ots.toList = [s.latch.adrs.get 0, s.latch.adrs.get 1, s.latch.adrs.get 2, 0, s.latch.arg.get 1, 0, 0, 0] ∧
        lt.toList = [s.latch.adrs.get 0, s.latch.adrs.get 1, s.latch.adrs.get 2, 1, s.latch.arg.get 1, 0, 0, 0] ∧
        LTreeRun su P lt 0 (wotsPkgen su (otsSeed su X ots) P ots) leaf ∧
        exec .genLeaf s = .next (s.writeBuf (argN s 0) leaf).succeed)

/-- R323: the stack-based build of an aligned subtree gives the tree's node. -/
def Obligations.TreehashBuildsNode : Prop :=
  ∀ (c : TreeCtx) (ht s : Nat), s % 2 ^ ht = 0 → treehash c ht s = treeNode c ht (s >>> ht)

/-- R327: folding a leaf with its authentication path gives the root, for every index of the tree. -/
def Obligations.AuthPathLeadsToRoot : Prop :=
  ∀ (c : TreeCtx) (h i : Nat), i < 2 ^ h →
    (authPath c h i).length = h ∧
    (∀ j, j < h → (authPath c h i)[j]? = some (treeNode c j ((i >>> j) ^^^ 1))) ∧
    rootFromAuth c.su c.pub c.base i (genLeaf c i) (authPath c h i) = treeNode c h 0

/-- The words of NodeAddr (R322) and the recursion of Node (R325); then TREEHASH (R332), AUTHPATH (R333) and ROOT_FROM_AUTH
(R334): the state each commits. -/
def Obligations.TreeResults : Prop :=
  (∀ (b : TreeBase) (j i : Nat),
    (nodeAddr b j i).toList = [b.layer, b.treeHi, b.treeLo, 2, 0, BitVec.ofNat 32 j, BitVec.ofNat 32 i, 0]) ∧
  (∀ (c : TreeCtx) (i : Nat), treeNode c 0 i = genLeaf c i) ∧
  (∀ (c : TreeCtx) (j i : Nat),
    treeNode c (j + 1) i =
      hashH c.su c.pub (nodeAddr c.base j i) (treeNode c j (2 * i) ++ treeNode c j (2 * i + 1))) ∧
  ∀ (s : State) (su : Suite) (P X A : Bytes), cfgSuite s = .ok su → readArg s 2 su.n = .ok P → readArg s 4 su.n = .ok X →
    let base : TreeBase := { layer := s.latch.adrs.get 0, treeHi := s.latch.adrs.get 1, treeLo := s.latch.adrs.get 2 }
    let c : TreeCtx := { su := su, sk := X, pub := P, base := base }
    (passes s .treehash →
      exec .treehash s =
        .next (s.writeBuf (argN s 0) (treeNode c (argN s 3) (argN s 1 / 2 ^ argN s 3))).succeed) ∧
    (passes s .authpath →
      exec .authpath s =
        .next (s.writeBuf (argN s 0)
          ((List.range (argN s 3)).flatMap (fun j => treeNode c j ((argN s 1 >>> j) ^^^ 1)) ++
            treeNode c (argN s 3) 0)).succeed) ∧
    (passes s .rootFromAuth → readArg s 5 (argN s 3 * su.n) = .ok A →
      exec .rootFromAuth s =
        .next (s.writeBuf (argN s 0)
          ((List.range (argN s 3)).foldl
            (fun node j =>
              let sib := (A.drop (su.n * j)).take su.n
              hashH su P (nodeAddr base j (argN s 1 >>> (j + 1)))
                (if (argN s 1 >>> j) % 2 = 0 then node ++ sib else sib ++ node))
            X)).succeed)

/-! ### BDS -/

/-- R355: what BdsSetup returns and leaves: the root, the path of leaf 0, node 3 of every level with an instance, the retained
nodes at their offsets, and the rest as it was. -/
def Obligations.SetupSnapshots : Prop :=
  ∀ (c : BdsCtx) (b : Bds), 2 ≤ c.k → c.k < c.h → b.auth.length = c.h → b.th.length = c.h - c.k →
    b.retain.length = 2 ^ c.k - c.k - 1 →
    let r := bdsSetup c b
    r.2 = treeNode c.tree c.h 0 ∧
    (∀ j, j < c.h → r.1.auth[j]? = some (treeNode c.tree j 1)) ∧
    (∀ j, j < c.h - c.k →
      r.1.th[j]? =
        some { h := j, nextIdx := (instAt b j).nextIdx, stackUsage := 0, completed := true, node := treeNode c.tree j 3 }) ∧
    (∀ j i, c.h - c.k ≤ j → j ≤ c.h - 2 → i % 2 = 1 → 3 ≤ i → i < 2 ^ (c.h - j) →
      r.1.retain[2 ^ (c.h - 1 - j) + j - c.h + (i - 3) / 2]? = some (treeNode c.tree j i)) ∧
    r.1.stack = b.stack ∧ r.1.stackLevels = b.stackLevels ∧ r.1.stackOffset = b.stackOffset ∧ r.1.keep = b.keep

/-- R361 for (h, k) = (4, 2), with any hash pair and any seeds: after BdsSetup and m BdsSteps, m ≤ 15, no error was raised and
BDS.auth is the authentication path of leaf m. -/
def Obligations.LockStepPathAtHeightFour : Prop :=
  ∀ (tree : TreeCtx) (m : Nat), m ≤ 15 →
    ∃ b, bdsSteps { tree := tree, h := 4, k := 2 } m 0 (bdsSetup { tree := tree, h := 4, k := 2 } (freshBds 4 2)).1 = .ok b ∧
      b.auth = authPath tree 4 m

/-- R358: the instance BdsThUpdate advances is the one of lowest rank below h, the lowest index among equals; it advances none
exactly if every rank is h or more. The rank of an instance is h when it is completed, its level when it holds no stack slot,
else the least height tag of its slots, which are the top ones of the shared stack (R357). -/
def Obligations.BestInstanceRule : Prop :=
  ∀ (c : BdsCtx) (b : Bds),
    (∀ t, bestInst c b = some t ↔
      t < c.h - c.k ∧ thRank c b t < c.h ∧ (∀ u, u < c.h - c.k → thRank c b t ≤ thRank c b u) ∧
        ∀ u, u < t → thRank c b t < thRank c b u) ∧
    (bestInst c b = none ↔ ∀ u, u < c.h - c.k → c.h ≤ thRank c b u) ∧
    (∀ t, t < b.th.length →
      ((instAt b t).completed = true → thRank c b t = c.h) ∧
      ((instAt b t).completed = false → (instAt b t).stackUsage = 0 → thRank c b t = t) ∧
      ((instAt b t).completed = false → 0 < (instAt b t).stackUsage →
        thRank c b t ≤ c.h ∧
        (∀ i, i < (instAt b t).stackUsage → thRank c b t ≤ b.stackLevels.getD (b.stackOffset - 1 - i) 0) ∧
        (thRank c b t = c.h ∨
          ∃ i, i < (instAt b t).stackUsage ∧ thRank c b t = b.stackLevels.getD (b.stackOffset - 1 - i) 0)))

/-- What BdsRound writes, field by field (R359); what ThUpdate writes or raises (R356); the loop of BdsThUpdate (R358) and BdsStep
(R360). Then BDS_SETUP (R370), BDS_ROUND (R371), TREEHASH_UPDATE (R373) and BDS_TREEHASH_UPDATE (R374): the state each commits.
BDS_ROUND returns tau, the position of the lowest zero bit of its index. The two updates complete where every instance that may
be advanced has leaves left and the shared stack has room; an error of ThUpdate ends them with that error. -/
def Obligations.BdsStepResults : Prop :=
  (∀ (c : BdsCtx) (b : Bds) (i : Nat), b.auth.length = c.h → b.keep.length = c.h / 2 → b.th.length = c.h - c.k →
    i < 2 ^ c.h - 1 → RoundWrites c b (bdsRound c b i).1 i (bdsRound c b i).2) ∧
  (∀ (c : BdsCtx) (b : Bds) (t : Nat),
    let I := instAt b t
    (2 ^ c.h ≤ I.nextIdx → thUpdate c b t = .error (.raise (.stateError .bdsDesync))) ∧
    (I.nextIdx < 2 ^ c.h → ∃ node nh su so,
      ThFoldRun c b I.nextIdx (genLeaf c.tree I.nextIdx) 0 I.stackUsage b.stackOffset node nh su so ∧
      (nh = I.h →
        thUpdate c b t =
          .ok { b with
                th := b.th.set t { I with node := node, completed := true, stackUsage := su }
                stackOffset := so }) ∧
      (nh ≠ I.h → so = c.h + 1 → thUpdate c b t = .error (.raise (.stateError .bdsStackFull))) ∧
      (nh ≠ I.h → so ≠ c.h + 1 →
        thUpdate c b t =
          .ok { b with
                stack := b.stack.set so node
                stackLevels := b.stackLevels.set so nh
                stackOffset := so + 1
                th := b.th.set t { I with stackUsage := su + 1, nextIdx := I.nextIdx + 1 } }))) ∧
  (∀ (c : BdsCtx) (b : Bds) (used count : Nat),
    bdsThUpdate c 0 used b = .ok (b, 0, used) ∧
    (bestInst c b = none → bdsThUpdate c (count + 1) used b = .ok (b, count + 1, used)) ∧
    (∀ t, bestInst c b = some t →
      (∀ b', thUpdate c b t = .ok b' → bdsThUpdate c (count + 1) used b = bdsThUpdate c count (used + 1) b') ∧
      (∀ e, thUpdate c b t = .error e → bdsThUpdate c (count + 1) used b = .error e))) ∧
  (∀ (c : BdsCtx) (b : Bds) (i : Nat),
    (∀ r, bdsThUpdate c ((c.h - c.k) / 2) 0 (bdsRound c b i).1 = .ok r → bdsStep c b i = .ok r.1) ∧
    (∀ e, bdsThUpdate c ((c.h - c.k) / 2) 0 (bdsRound c b i).1 = .error e → bdsStep c b i = .error e)) ∧
  ∀ (s : State),
    (passes s .bdsSetup →
      exec .bdsSetup s =
        .next { s with
                bds := (bdsSetup (keyBds s.key) (freshBds s.key.h.toNat s.key.k.toNat)).1
                bdsSync := true }.succeed) ∧
    (passes s .bdsRound → ∃ tau b,
      tau < s.key.h.toNat ∧ (argN s 1).testBit tau = false ∧ (∀ j, j < tau → (argN s 1).testBit j = true) ∧
      bdsRound (keyBds s.key) s.bds (argN s 1) = (b, tau) ∧
      exec .bdsRound s = .next { s with bds := b, bdsSync := false, res0 := BitVec.ofNat 32 tau }.succeed) ∧
    (passes s .treehashUpdate → (instAt s.bds (argN s 1)).nextIdx < 2 ^ s.key.h.toNat →
      s.bds.stackOffset ≤ s.key.h.toNat →
      ∃ b, thUpdate (keyBds s.key) s.bds (argN s 1) = .ok b ∧
        exec .treehashUpdate s = .next { s with bds := b, bdsSync := false }.succeed) ∧
    (passes s .bdsTreehashUpdate → s.bds.stackOffset + argN s 3 ≤ s.key.h.toNat + 1 →
      (∀ t, t < s.key.h.toNat - s.key.k.toNat → (instAt s.bds t).nextIdx + argN s 3 ≤ 2 ^ s.key.h.toNat) →
      ∃ r, bdsThUpdate (keyBds s.key) (argN s 3) 0 s.bds = .ok r ∧
        exec .bdsTreehashUpdate s =
          .next { s with
                  bds := r.1
                  bdsSync := false
                  res0 := BitVec.ofNat 32 r.2.1
                  res1 := BitVec.ofNat 32 r.2.2 }.succeed) ∧
    (∀ b, passes s .treehashUpdate → thUpdate (keyBds s.key) s.bds (argN s 1) = .ok b →
      exec .treehashUpdate s = .next { s with bds := b, bdsSync := false }.succeed) ∧
    (∀ e, passes s .treehashUpdate → thUpdate (keyBds s.key) s.bds (argN s 1) = .error (.raise e) →
      exec .treehashUpdate s = .next (s.failWith e)) ∧
    (∀ b rem used, passes s .bdsTreehashUpdate →
      bdsThUpdate (keyBds s.key) (argN s 3) 0 s.bds = .ok (b, rem, used) →
      rem + used = argN s 3 ∧
      exec .bdsTreehashUpdate s =
        .next { s with
                bds := b
                bdsSync := false
                res0 := BitVec.ofNat 32 rem
                res1 := BitVec.ofNat 32 used }.succeed) ∧
    (∀ e, passes s .bdsTreehashUpdate → bdsThUpdate (keyBds s.key) (argN s 3) 0 s.bds = .error (.raise e) →
      exec .bdsTreehashUpdate s = .next (s.failWith e))

/-- BDS_EXPORT (R372): the export is written at ARG0 and RES0 is its size E; each field stands at its offset, and dead stack
slots are 0. -/
def Obligations.BdsExportResult : Prop :=
  ∀ (s : State), s.Inv → passes s .bdsExport →
    let h := s.key.h.toNat
    let k := s.key.k.toNat
    ∃ x : Bytes,
      exec .bdsExport s =
        .next { s with
                buf := s.buf.write (argN s 0) x
                res0 := BitVec.ofNat 32 (5 + 121 * h + 32 * 2 ^ k - 72 * k) }.succeed ∧
      x.length = 5 + 121 * h + 32 * 2 ^ k - 72 * k ∧
      slice x 0 4 =
        [BitVec.ofNat 8 h, BitVec.ofNat 8 k, BitVec.ofNat 8 s.bds.stackOffset, if s.bdsSync then 1 else 0] ∧
      (∀ i, i ≤ h →
        slice x (4 + i) 1 = [if i < s.bds.stackOffset then BitVec.ofNat 8 (s.bds.stackLevels.getD i 0) else 0] ∧
        slice x (5 + h + 32 * i) 32 = if i < s.bds.stackOffset then s.bds.stack.getD i [] else zeros 32) ∧
      (∀ i, i < h → slice x (37 + 33 * h + 32 * i) 32 = s.bds.auth.getD i []) ∧
      (∀ i, i < h / 2 → slice x (37 + 65 * h + 32 * i) 32 = s.bds.keep.getD i []) ∧
      (∀ i, i < h - k →
        slice x (37 + 81 * h + 40 * i) 40 =
          [BitVec.ofNat 8 i, if (instAt s.bds i).completed then 1 else 0, BitVec.ofNat 8 (instAt s.bds i).stackUsage, 0] ++
            toByte (instAt s.bds i).nextIdx 4 ++ (instAt s.bds i).node) ∧
      (∀ i, i < 2 ^ k - k - 1 → slice x (37 + 121 * h - 40 * k + 32 * i) 32 = s.bds.retain.getD i [])

/-! ### XMSS -/

/-- NOP (R180) and KEY_CLEAR (R181): the state each commits. -/
def Obligations.ControlResults : Prop :=
  ∀ (s : State),
    exec .nop s =
      .next { s with pending := none, done := true, intStatus := s.intStatus ||| 0x1, cmdCount := s.cmdCount + 1 } ∧
    ∃ t, exec .keyClear s = .next t ∧
      t = { s with
            key := State.reset.key
            bds := State.reset.bds
            bdsSync := false
            pending := none
            done := true
            intStatus := s.intStatus ||| 0x1
            cmdCount := s.cmdCount + 1 } ∧
      (csrRead t .status).extractLsb 7 4 = 0 ∧ csrRead t .keyIndex = 0 ∧ csrRead t .keyInfo = 0 ∧ csrRead t .sigSize = 0

/-- The reset BDS state for (h, k), field by field (R56, R58, R350). Then KEYGEN (R410) and KEYGEN_XSEED (R411): the state each
commits. Both strategies have the root of R325. -/
def Obligations.KeygenResults : Prop :=
  (∀ h k : Nat,
    (freshBds h k).stack = List.replicate (h + 1) (zeros 32) ∧
    (freshBds h k).stackLevels = List.replicate (h + 1) 0 ∧
    (freshBds h k).stackOffset = 0 ∧
    (freshBds h k).auth = List.replicate h (zeros 32) ∧
    (freshBds h k).keep = List.replicate (h / 2) (zeros 32) ∧
    (freshBds h k).th.length = h - k ∧
    (∀ i, i < h - k →
      (freshBds h k).th[i]? = some { h := i, nextIdx := 0, stackUsage := 0, completed := false, node := zeros 32 }) ∧
    (freshBds h k).retain = List.replicate (2 ^ k - k - 1) (zeros 32)) ∧
  ∀ (s : State) (S d : Bytes),
    (∀ hf : HashFn, passes s .keygen → readArg s 0 48 = .ok S → hf.code = keycfgHashFn s →
      exec .keygen s = .next (keygenResult s hf (keycfgHeight s) (keycfgK s) (keycfgStrategy s) S)) ∧
    (∀ hf : HashFn, passes s .keygenXseed → readArg s 0 3 = .ok d → s.buf.readBytes (argN s 0 + 3) 48 = .ok S →
      firstError (descChecks d ++ descFollowUp s .keygenXseed (descHeight d)) = none → hf.code.toNat = descHash d →
      exec .keygenXseed s = .next (keygenResult s hf (descHeight d) (keycfgK s) (keycfgStrategy s) S))

/-- R411: GET_XSEED after a successful KEYGEN_XSEED(x) writes x back. -/
def Obligations.ExtendedSeedRoundTrip : Prop :=
  ∀ (s t u v : State) (x : Bytes), s.err = false → readArg s 0 51 = .ok x → exec .keygenXseed s = .next t → t.err = false →
    u.key = t.key → passes u .getXseed → exec .getXseed u = .next v → v.buf.readBytes (argN u 0) 51 = .ok x

/-- R401 and R402: the descriptor of a key decodes to its hash function and height, and DecodeDesc accepts exactly the
descriptors of R401, reporting the first failing check of any other. -/
def Obligations.DescriptorRoundTrip : Prop :=
  (∀ (hf : HashFn) (h : Nat), h % 2 = 0 → h ≤ 30 →
    descBytes hf 0 h 0 = [BitVec.ofNat 8 hf.code.toNat, BitVec.ofNat 8 (h / 2), 0] ∧
    decodeDesc (descBytes hf 0 h 0) = .ok { hf := hf, h := h }) ∧
  (∀ (d : Bytes) (r : Descriptor), d.length = 3 → decodeDesc d = .ok r → descBytes r.hf 0 r.h 0 = d) ∧
  (∀ (d : Bytes) (e : CmdError), firstError (descChecks d) = some e → decodeDesc d = .error (.raise e))

/-- GET_PK (R412, R403), GET_SK (R413, R404) and GET_XSEED (R414, R406): the state each commits, with the layouts written
out. -/
def Obligations.KeyExportResults : Prop :=
  ∀ (s : State), s.Inv →
    let desc : Bytes := [BitVec.ofNat 8 s.key.hf.code.toNat, BitVec.ofNat 8 (s.key.h.toNat / 2), 0]
    (passes s .getPk →
      exec .getPk s =
        .next { s with buf := s.buf.write (argN s 0) (desc ++ s.key.root ++ s.key.pubSeed), res0 := 67 }.succeed) ∧
    (passes s .getSk →
      exec .getSk s =
        .next { s with
                buf := s.buf.write (argN s 0)
                  (toByte s.key.idx.toNat 4 ++ s.key.skSeed ++ s.key.skPrf ++ s.key.pubSeed ++ s.key.root)
                res0 := 132 }.succeed) ∧
    (passes s .getXseed →
      exec .getXseed s =
        .next { s with buf := s.buf.write (argN s 0) (desc ++ s.key.rawSeed), res0 := 51 }.succeed)

/-- SET_INDEX (R416): the index moves to ARG1; a Fast key runs one BdsStep for each index passed; an error of a step commits
nothing. -/
def Obligations.SetIndexResult : Prop :=
  ∀ (s : State), passes s .setIndex →
    (s.key.strategy = .basic →
      exec .setIndex s =
        .next { s with key := { s.key with idx := s.latch.arg.get 1 }, res0 := s.latch.arg.get 1 }.succeed) ∧
    (∀ b, s.key.strategy = .fast →
      bdsSteps (keyBds s.key) (argN s 1 - s.key.idx.toNat) s.key.idx.toNat s.bds = .ok b →
      exec .setIndex s =
        .next { s with bds := b, key := { s.key with idx := s.latch.arg.get 1 }, res0 := s.latch.arg.get 1 }.succeed) ∧
    (∀ e, s.key.strategy = .fast →
      bdsSteps (keyBds s.key) (argN s 1 - s.key.idx.toNat) s.key.idx.toNat s.bds = .error (.raise e) →
      exec .setIndex s = .next (s.failWith e))

/-- SIGN (R417): the signature of the message at the current index goes to ARG0, the index moves up by 1 and the BDS state by
one BdsStep, all in one commit; the path is BDS.auth for a Fast key and the full recomputation for a Basic one. -/
def Obligations.SignResult : Prop :=
  ∀ (s : State) (M : Bytes), passes s .sign → readArg s 2 (argN s 3) = .ok M →
    let i := s.key.idx.toNat
    let h := s.key.h.toNat
    let signed := fun (auth : List Bytes) (b : Bds) =>
      { s with
        buf := s.buf.write (argN s 0) (signCore s.key i M auth)
        bds := b
        key := { s.key with idx := s.key.idx + 1 }
        res0 := BitVec.ofNat 32 (2180 + 32 * h)
        res1 := s.key.idx }
    (s.key.strategy = .basic →
      exec .sign s =
        .next (signed ((List.range h).map fun j => treeNode (keyTree s.key) j ((i >>> j) ^^^ 1)) s.bds).succeed) ∧
    (∀ b, s.key.strategy = .fast → i < 2 ^ h - 1 → bdsStep (keyBds s.key) s.bds i = .ok b →
      exec .sign s = .next (signed s.bds.auth b).succeed) ∧
    (s.key.strategy = .fast → i = 2 ^ h - 1 → exec .sign s = .next (signed s.bds.auth s.bds).succeed) ∧
    (∀ e, s.key.strategy = .fast → i < 2 ^ h - 1 → bdsStep (keyBds s.key) s.bds i = .error (.raise e) →
      exec .sign s = .next (s.failWith e))

/-- R407 and R409: the layout of a signature, field by field, and its length. -/
def Obligations.SignatureLayout : Prop :=
  ∀ (key : KeyStore) (i : Nat) (M : Bytes) (auth : List Bytes), NodesOk auth →
    let sig := signCore key i M auth
    let su := key.hf.suite
    let R := digest su (toByte 3 32 ++ key.skPrf ++ toByte i 32)
    let mh := digest su (toByte 2 32 ++ (R ++ key.root ++ toByte i 32) ++ M)
    let ots : Adrs := ⟨#[0, 0, 0, 0, BitVec.ofNat 32 i, 0, 0, 0], rfl⟩
    let seed := digest su (toByte 3 32 ++ key.skSeed ++ adrsTail ots 0)
    sig.length = 2180 + 32 * auth.length ∧
    slice sig 0 4 = toByte i 4 ∧
    slice sig 4 32 = R ∧
    (∀ j, j < 67 →
      slice sig (36 + 32 * j) 32 =
        genChain su (prf su seed (toByte j 32)) 0 ((wotsDigits mh 32).getD j 0) key.pubSeed (setW ots 5 j)) ∧
    (∀ j, j < auth.length → slice sig (2180 + 32 * j) 32 = auth.getD j [])

/-- VERIFY (R418): a signature that VerifyCore accepts sets VERIFY_OK, RES0 = 1 and RES1 = its index; one whose index is out of
range or whose candidate root differs is an error completion of class VERIFICATION_FAILURE. -/
def Obligations.VerifyResult : Prop :=
  ∀ (s : State) (hf : HashFn) (PK Sig M : Bytes), passes s .verify → readArg s 4 67 = .ok PK →
    readArg s 0 (argN s 1) = .ok Sig → readArg s 2 (argN s 3) = .ok M →
    firstError (descChecks PK ++ descFollowUp s .verify (descHeight PK)) = none → hf.code.toNat = descHash PK →
    let h := descHeight PK
    let i := fromBE (Sig.take 4)
    let root := (PK.drop 3).take 32
    let cand := candidateRoot hf h M Sig root (PK.drop 35)
    exec .verify s =
      .next
        (if 2 ^ h ≤ i then s.failWith (.verificationFailure .indexRange)
        else if cand = root then { s with verifyOk := true, res0 := 1, res1 := BitVec.ofNat 32 i }.succeed
        else s.failWith (.verificationFailure .rootMismatch))

/-- R420: the candidate root, procedure by procedure. -/
def Obligations.CandidateRootSteps : Prop :=
  ∀ (hf : HashFn) (h i : Nat) (M R ws auth root P : Bytes), i < 2 ^ 32 → R.length = 32 → ws.length = 2144 →
    auth.length = 32 * h →
    let su := hf.suite
    let mh := digest su (toByte 2 32 ++ (R ++ root ++ toByte i 32) ++ M)
    let ots : Adrs := ⟨#[0, 0, 0, 0, BitVec.ofNat 32 i, 0, 0, 0], rfl⟩
    let lt : Adrs := ⟨#[0, 0, 0, 1, BitVec.ofNat 32 i, 0, 0, 0], rfl⟩
    let pk := (List.range 67).map fun j =>
      genChain su (slice ws (32 * j) 32) ((wotsDigits mh 32).getD j 0) (15 - (wotsDigits mh 32).getD j 0) P (setW ots 5 j)
    ∃ leaf, LTreeRun su P lt 0 pk leaf ∧
      candidateRoot hf h M (toByte i 4 ++ R ++ ws ++ auth) root P =
        rootFromAuth su P { layer := 0, treeHi := 0, treeLo := 0 } i leaf
          ((List.range h).map fun j => slice auth (32 * j) 32)

/-- A signature made by SignCore with the key's authentication path verifies against the key's root and public seed, at every
index of the key and for every message (R409, R420, R289, R327); and VERIFY of such a signature, of its message and of the
key's public key in BUF succeeds (R418). -/
def Obligations.SignaturesVerify : Prop :=
  ∀ (key : KeyStore) (i : Nat) (M : Bytes), key.h.toNat ≤ 30 → i < 2 ^ key.h.toNat →
    key.root = treeNode (keyTree key) key.h.toNat 0 →
    let sig := signCore key i M (authPath (keyTree key) key.h.toNat i)
    verifyCore key.hf key.h.toNat M sig key.root key.pubSeed = .ok i ∧
    ∀ s : State, key.h.toNat % 2 = 0 → 4 ≤ key.h.toNat → passes s .verify → argN s 1 = 2180 + 32 * key.h.toNat →
      readArg s 4 67 =
        .ok ([BitVec.ofNat 8 key.hf.code.toNat, BitVec.ofNat 8 (key.h.toNat / 2), 0] ++ key.root ++ key.pubSeed) →
      readArg s 0 (argN s 1) = .ok sig → readArg s 2 (argN s 3) = .ok M →
      exec .verify s = .next { s with verifyOk := true, res0 := 1, res1 := BitVec.ofNat 32 i }.succeed

/-- SIG_SIZE (R419) and HEIGHT_FROM_SIG_SIZE (R421): the state each commits and the operands each rejects; each undoes the other
(R408). -/
def Obligations.SizeResults : Prop :=
  (∀ s : State, argN s 3 ≤ 254 →
    exec .sigSize s = .next { s with res0 := BitVec.ofNat 32 (2180 + 32 * argN s 3) }.succeed) ∧
  (∀ s : State, 254 < argN s 3 → exec .sigSize s = .next (s.failWith (.invalidArgument .height))) ∧
  (∀ (s : State) (h : Nat), h ≤ 254 → argN s 1 = 2180 + 32 * h →
    exec .heightFromSigSize s = .next { s with res0 := BitVec.ofNat 32 h }.succeed) ∧
  (∀ s : State, (∀ h, h ≤ 254 → argN s 1 ≠ 2180 + 32 * h) →
    exec .heightFromSigSize s = .next (s.failWith (.invalidArgument .sigSize)))
end

