-- ==== Sys2Proof/Laws/Hash.lean ====
section
/-! SUPPORT. The lengths of byte strings: encodings, digests, chains, leaves and nodes (spec/00_scope.md R12, spec/41 R205,
R230, spec/42 R250 to R255, spec/43 R281 to R288, spec/44 R320 to R327); and the lanes of a Keccak state (spec/41 R200,
R204). -/

namespace Sys2Proof.Machine

@[simp] theorem zeros_length (k : Nat) : (zeros k).length = k := by simp [zeros]

@[simp] theorem toByte_length (x k : Nat) : (toByte x k).length = k := by
  induction k generalizing x with
  | zero => rfl
  | succ k ih => simp [toByte, ih]

@[simp] theorem toLE_length (x k : Nat) : (toLE x k).length = k := by
  induction k generalizing x with
  | zero => rfl
  | succ k ih => simp [toLE, ih]

theorem slice_length {bs : Bytes} {off len : Nat} (h : off + len ≤ bs.length) : (slice bs off len).length = len := by
  simp [slice]
  omega

@[simp] theorem chunks_length (n m : Nat) (bs : Bytes) : (chunks n m bs).length = m := by
  induction m generalizing bs with
  | zero => rfl
  | succ m ih => simp [chunks, ih]

/-- Chunk i of a byte string. -/
theorem chunks_getElem? {n m i : Nat} (bs : Bytes) (h : i < m) : (chunks n m bs)[i]? = some ((bs.drop (n * i)).take n) := by
  induction m generalizing bs i with
  | zero => omega
  | succ m ih =>
    cases i with
    | zero => simp [chunks]
    | succ i =>
      simp only [chunks, List.getElem?_cons_succ]
      rw [ih _ (by omega), List.drop_drop, Nat.mul_succ, Nat.add_comm n]

theorem squeezeBlocks_length (rate m : Nat) (A : Lanes) : (squeezeBlocks rate m A).length = m * rate := by
  induction m generalizing A with
  | zero => simp [squeezeBlocks]
  | succ m ih => simp [squeezeBlocks, ih, Nat.succ_mul, Nat.add_comm]

@[simp] theorem sponge_length (sel : RateSel) (M : Bytes) (L : Nat) : (sponge sel M L).length = L := by
  unfold sponge
  simp only [List.length_take, squeezeBlocks_length]
  have h : L ≤ (L + rateOf sel - 1) / rateOf sel * rateOf sel := by
    cases sel <;> simp only [rateOf] <;> omega
  omega

@[simp] theorem shake128_length (M : Bytes) (L : Nat) : (shake128 M L).length = L := sponge_length ..

@[simp] theorem shake256_length (M : Bytes) (L : Nat) : (shake256 M L).length = L := sponge_length ..

@[simp] theorem sha256_length (M : Bytes) : (sha256 M).length = 32 := by
  simp [sha256]

@[simp] theorem coreHash_length (su : Suite) (t : Nat) (K X : Bytes) : (coreHash su t K X).length = su.n := by
  cases su <;> simp [coreHash, Suite.n]

@[simp] theorem prf_length (su : Suite) (K X : Bytes) : (prf su K X).length = su.n := coreHash_length ..

@[simp] theorem hashF_length (su : Suite) (P : Bytes) (a : Adrs) (X : Bytes) : (hashF su P a X).length = su.n :=
  coreHash_length ..

@[simp] theorem hashH_length (su : Suite) (P : Bytes) (a : Adrs) (X : Bytes) : (hashH su P a X).length = su.n :=
  coreHash_length ..

@[simp] theorem hMsg_length (su : Suite) (K M : Bytes) : (hMsg su K M).length = su.n := coreHash_length ..

@[simp] theorem suite_n (hf : HashFn) : hf.suite.n = 32 := by cases hf <;> rfl

/-! ### WOTS+ and trees -/

/-- A chain keeps the length of its input when that is n. -/
theorem genChain_length {su : Suite} {X : Bytes} (s t : Nat) (P : Bytes) (a : Adrs) (h : X.length = su.n) :
    (genChain su X s t P a).length = su.n := by
  unfold genChain
  generalize List.range' s (min (s + t) 15 - s) = l
  induction l generalizing X with
  | nil => exact h
  | cons i l ih => exact ih (by simp)

@[simp] theorem expandSeed_length (su : Suite) (S : Bytes) : (expandSeed su S).length = wotsLen su.n := by
  simp [expandSeed]

@[simp] theorem runChains_length (su : Suite) (P : Bytes) (a : Adrs) (start steps : Nat → Nat) (xs : List Bytes) :
    (runChains su P a start steps xs).length = xs.length := by
  simp [runChains]

/-- Every chunk a chain run gives has n bytes, when every chunk it starts from has. -/
theorem runChains_chunk {su : Suite} {P : Bytes} {a : Adrs} {start steps : Nat → Nat} {xs : List Bytes}
    (h : ∀ x ∈ xs, x.length = su.n) : ∀ x ∈ runChains su P a start steps xs, x.length = su.n := by
  intro x hx
  simp only [runChains, List.mem_mapIdx] at hx
  obtain ⟨i, hi, rfl⟩ := hx
  exact genChain_length _ _ _ _ (h _ (List.getElem_mem hi))

theorem expandSeed_chunk {su : Suite} {S : Bytes} : ∀ x ∈ expandSeed su S, x.length = su.n := by
  intro x hx
  simp only [expandSeed, List.mem_map] at hx
  obtain ⟨i, -, rfl⟩ := hx
  simp

theorem lTreeLevel_length (su : Suite) (P : Bytes) (a : Adrs) (ht i : Nat) (v : List Bytes) :
    (lTreeLevel su P a ht i v).length = (v.length + 1) / 2 := by
  fun_induction lTreeLevel with
  | case1 i x y rest ih => simp [ih]; omega
  | case2 => simp
  | case3 => simp

theorem lTreeLevel_chunk {su : Suite} {P : Bytes} {a : Adrs} {ht i : Nat} {v : List Bytes}
    (h : ∀ x ∈ v, x.length = su.n) : ∀ x ∈ lTreeLevel su P a ht i v, x.length = su.n := by
  fun_induction lTreeLevel with
  | case1 i x y rest ih =>
    intro z hz
    rcases List.mem_cons.1 hz with rfl | hz
    · simp
    · exact ih (fun w hw => h w (by simp [hw])) z hz
  | case2 => exact h
  | case3 => simp

theorem lTreeRounds_length {su : Suite} {P : Bytes} {a : Adrs} (fuel ht : Nat) {v : List Bytes}
    (h : ∀ x ∈ v, x.length = su.n) (hv : v ≠ []) : (lTreeRounds su P a fuel ht v).length = su.n := by
  have head : ∀ w : List Bytes, w ≠ [] → (∀ x ∈ w, x.length = su.n) → (w.headD []).length = su.n := by
    intro w hw hx
    cases w with
    | nil => exact absurd rfl hw
    | cons x w => exact hx x (by simp)
  induction fuel generalizing ht v with
  | zero => exact head v hv h
  | succ fuel ih =>
    unfold lTreeRounds
    split
    · exact head v hv h
    · refine ih (ht + 1) (lTreeLevel_chunk h) ?_
      intro e
      have := lTreeLevel_length su P a ht 0 v
      rw [e] at this
      simp at this
      omega

/-- LTree of a non-empty list of n-byte chunks is an n-byte chunk. -/
theorem lTree_length {su : Suite} {pk : List Bytes} (P : Bytes) (a : Adrs) (h : ∀ x ∈ pk, x.length = su.n) (hp : pk ≠ []) :
    (lTree su pk P a).length = su.n :=
  lTreeRounds_length _ _ h hp

@[simp] theorem genLeaf_length (c : TreeCtx) (i : Nat) : (genLeaf c i).length = c.su.n := by
  refine lTree_length _ _ (runChains_chunk expandSeed_chunk) fun e => ?_
  have := congrArg List.length e
  simp [wotsPkgen, wotsLen, wotsLen2] at this

@[simp] theorem treeNode_length (c : TreeCtx) (j i : Nat) : (treeNode c j i).length = c.su.n := by
  cases j <;> simp [treeNode]

@[simp] theorem authPath_length (c : TreeCtx) (h i : Nat) : (authPath c h i).length = h := by simp [authPath]

/-! ### Keccak (spec/41_keccak_sha.md R200, R204) -/

/-- The lane of column x and row y of a state given by its columns and rows. -/
theorem lane_lanesOf (f : Nat → Nat → Lane) {i : Nat} (h : i < 25) : lane (lanesOf f) i = f (i % 5) (i / 5) := by
  unfold lane lanesOf
  rw [List.getD_eq_getElem?_getD, Vector.toList_mk, List.getElem?_map, List.getElem?_range h]
  rfl

/-- C[x] of θ, as R204 writes it. -/
theorem columnParity_eq (a : List Lane) (x : Nat) :
    columnParity a x =
      a.getD x 0 ^^^ a.getD (x + 5) 0 ^^^ a.getD (x + 10) 0 ^^^ a.getD (x + 15) 0 ^^^ a.getD (x + 20) 0 := by
  simp [columnParity, List.range, List.range.loop]

end Sys2Proof.Machine
end

