-- ==== Sys2Proof/Laws/Memory.lean ====
section
/-! SUPPORT. The laws of BUF (spec/10_state.md R53, spec/00_scope.md R11): every operation keeps the canonical form, a read
after a write gives the value written, and a write leaves every other byte alone. -/

namespace Sys2Proof.Machine

theorem Memory.reset_wf : State.reset.buf.wf := by decide

theorem Memory.reset_below (size : Nat) : State.reset.buf.below size := by
  intro c hc
  simp [State.reset] at hc

theorem cellsFrom_bounds {p : Nat} {v : Bytes} {c : Host.Cell} (h : c ∈ cellsFrom p v) :
    p ≤ c.1 ∧ c.1 < p + v.length := by
  induction v generalizing p with
  | nil => simp [cellsFrom] at h
  | cons b bs ih =>
    simp only [cellsFrom, List.mem_cons] at h
    rcases h with rfl | h
    · simp
    · have := ih h
      simp only [List.length_cons]
      omega

theorem cellsFrom_rising (p : Nat) (v : Bytes) : (cellsFrom p v).Pairwise fun x y => x.1 < y.1 := by
  induction v generalizing p with
  | nil => exact List.Pairwise.nil
  | cons b bs ih =>
    refine List.Pairwise.cons (fun c hc => ?_) (ih (p + 1))
    have := cellsFrom_bounds hc
    simp only
    omega

/-- Every memory operation keeps the canonical form. -/
theorem Memory.write_wf {m : Memory} (p : Nat) (v : Bytes) (h : m.wf) : (m.write p v).wf := by
  unfold Memory.wf Memory.write
  simp only [List.append_assoc]
  refine List.pairwise_append.2 ⟨h.filter _, List.pairwise_append.2 ⟨cellsFrom_rising p v, h.filter _, ?_⟩, ?_⟩
  · intro x hx y hy
    have hx := cellsFrom_bounds hx
    have hy := (List.mem_filter.1 hy).2
    simp only [decide_eq_true_eq] at hy
    omega
  · intro x hx y hy
    have hx := (List.mem_filter.1 hx).2
    simp only [decide_eq_true_eq] at hx
    rcases List.mem_append.1 hy with hy | hy
    · have := cellsFrom_bounds hy
      omega
    · have hy := (List.mem_filter.1 hy).2
      simp only [decide_eq_true_eq] at hy
      omega

theorem Memory.write_below {m : Memory} {p size : Nat} {v : Bytes} (h : m.below size) (hv : p + v.length ≤ size) :
    (m.write p v).below size := by
  intro c hc
  simp only [Memory.write, List.mem_append] at hc
  rcases hc with (hc | hc) | hc
  · exact h c (List.mem_filter.1 hc).1
  · have := cellsFrom_bounds hc
    omega
  · exact h c (List.mem_filter.1 hc).1

theorem lookup_append {l₁ l₂ : List Host.Cell} {a : Nat} :
    (l₁ ++ l₂).lookup a = (l₁.lookup a).or (l₂.lookup a) := by
  induction l₁ with
  | nil => rfl
  | cons c l ih =>
    rcases c with ⟨k, b⟩
    simp only [List.cons_append, List.lookup_cons]
    cases a == k <;> simp [ih]

theorem lookup_eq_none_of_ne {l : List Host.Cell} {a : Nat} (h : ∀ c ∈ l, c.1 ≠ a) : l.lookup a = none := by
  induction l with
  | nil => rfl
  | cons c l ih =>
    rcases c with ⟨k, b⟩
    have hk : (a == k) = false := by
      have := h (k, b) (List.mem_cons_self ..)
      simpa using fun e => this e.symm
    rw [List.lookup_cons, hk]
    exact ih fun c hc => h c (List.mem_cons_of_mem _ hc)

theorem lookup_filter_of_pos {l : List Host.Cell} {a : Nat} {q : Nat → Bool} (h : q a = true) :
    (l.filter fun c => q c.1).lookup a = l.lookup a := by
  induction l with
  | nil => rfl
  | cons c l ih =>
    rcases c with ⟨k, b⟩
    by_cases hk : a = k
    · subst hk
      simp [h]
    · have hk' : (a == k) = false := by simpa using hk
      by_cases hq : q k = true
      · simp [hq, List.lookup_cons, hk', ih]
      · simp [hq, List.lookup_cons, hk', ih]

theorem lookup_filter_of_neg {l : List Host.Cell} {a : Nat} {q : Nat → Bool} (h : q a = false) :
    (l.filter fun c => q c.1).lookup a = none := by
  refine lookup_eq_none_of_ne fun c hc e => ?_
  have := (List.mem_filter.1 hc).2
  rw [e, h] at this
  cases this

theorem lookup_cellsFrom_in {p a : Nat} {v : Bytes} (h₁ : p ≤ a) (h₂ : a < p + v.length) :
    (cellsFrom p v).lookup a = v[a - p]? := by
  induction v generalizing p with
  | nil => simp at h₂; omega
  | cons b bs ih =>
    simp only [cellsFrom, List.lookup_cons]
    by_cases hk : a = p
    · subst hk
      simp
    · have hk' : (a == p) = false := by simpa using hk
      rw [hk']
      simp only
      rw [ih (by omega) (by simp only [List.length_cons] at h₂; omega)]
      have : a - p = (a - (p + 1)) + 1 := by omega
      rw [this, List.getElem?_cons_succ]

theorem lookup_cellsFrom_out {p a : Nat} {v : Bytes} (h : a < p ∨ p + v.length ≤ a) :
    (cellsFrom p v).lookup a = none := by
  refine lookup_eq_none_of_ne fun c hc e => ?_
  have := cellsFrom_bounds hc
  omega

/-- A read inside the bytes just written gives the byte written there. -/
theorem Memory.read_write_in (m : Memory) {p a : Nat} {v : Bytes} (h₁ : p ≤ a) (h₂ : a < p + v.length) :
    (m.write p v).read a = v[a - p]? := by
  have hlow : (m.cells.filter fun c => c.1 < p).lookup a = none :=
    lookup_filter_of_neg (q := fun x => x < p) (by simpa using h₁)
  have hhigh : (m.cells.filter fun c => p + v.length ≤ c.1).lookup a = none :=
    lookup_filter_of_neg (q := fun x => p + v.length ≤ x) (by simpa using h₂)
  simp only [Memory.read, Memory.write, lookup_append, hlow, hhigh, lookup_cellsFrom_in h₁ h₂]
  simp

/-- A read outside the bytes just written gives what it gave before. -/
theorem Memory.read_write_out (m : Memory) {p a : Nat} {v : Bytes} (h : a < p ∨ p + v.length ≤ a) :
    (m.write p v).read a = m.read a := by
  simp only [Memory.read, Memory.write, lookup_append, lookup_cellsFrom_out h]
  rcases h with h | h
  · rw [lookup_filter_of_pos (q := fun x => x < p) (by simpa using h),
      lookup_filter_of_neg (q := fun x => p + v.length ≤ x) (by simp; omega)]
    simp
  · rw [lookup_filter_of_neg (q := fun x => x < p) (by simp; omega),
      lookup_filter_of_pos (q := fun x => p + v.length ≤ x) (by simpa using h)]
    simp

/-- Everything MemRead can do: it gives the bytes, one for one, or it is the fault U1. -/
theorem Memory.readBytes_ok_iff (m : Memory) (p L : Nat) (bs : Bytes) :
    m.readBytes p L = .ok bs ↔ bs.length = L ∧ ∀ i, i < L → m.read (p + i) = bs[i]? := by
  induction L generalizing p bs with
  | zero =>
    constructor
    · intro h
      cases h
      simp
    · rintro ⟨h, -⟩
      rw [List.length_eq_zero_iff] at h
      rw [h]
      rfl
  | succ L ih =>
    simp only [Memory.readBytes]
    constructor
    · intro h
      split at h
      · cases h
      · rename_i b hb
        split at h
        · rename_i rest hr
          cases h
          obtain ⟨hl, hi⟩ := (ih (p + 1) rest).1 hr
          refine ⟨by simp [hl], fun i hi' => ?_⟩
          cases i with
          | zero => simpa using hb
          | succ i =>
            have := hi i (by omega)
            rw [List.getElem?_cons_succ, ← this]
            congr 1
            omega
        · cases h
    · rintro ⟨hl, hi⟩
      cases bs with
      | nil => simp at hl
      | cons b rest =>
        have h0 := hi 0 (by omega)
        simp only [Nat.add_zero, List.getElem?_cons_zero] at h0
        have hr := (ih (p + 1) rest).2 ⟨by simpa using hl, fun i hi' => by
          have := hi (i + 1) (by omega)
          rw [List.getElem?_cons_succ] at this
          rw [← this]
          congr 1
          omega⟩
        rw [h0, hr]

theorem Memory.readBytes_length {m : Memory} {p L : Nat} {bs : Bytes} (h : m.readBytes p L = .ok bs) : bs.length = L :=
  ((Memory.readBytes_ok_iff m p L bs).1 h).1

/-- MemRead ends early only with the fault U1. -/
theorem Memory.readBytes_error {m : Memory} {p L : Nat} {e : Stop} (h : m.readBytes p L = .error e) :
    ∃ a, p ≤ a ∧ a < p + L ∧ m.read a = none ∧ e = .fault (.unwrittenRead a) := by
  induction L generalizing p with
  | zero => cases h
  | succ L ih =>
    simp only [Memory.readBytes] at h
    split at h
    · rename_i hn
      cases h
      exact ⟨p, by omega, by omega, hn, rfl⟩
    · split at h
      · cases h
      · rename_i e' hr
        cases h
        obtain ⟨a, h1, h2, h3, h4⟩ := ih hr
        exact ⟨a, by omega, by omega, h3, h4⟩

/-- Reading back exactly the bytes just written. -/
theorem Memory.readBytes_write_same (m : Memory) (p : Nat) (v : Bytes) : (m.write p v).readBytes p v.length = .ok v := by
  rw [Memory.readBytes_ok_iff]
  refine ⟨rfl, fun i hi => ?_⟩
  rw [Memory.read_write_in m (by omega) (by omega)]
  congr 1
  omega

/-- Reading a part of a memory that holds one string from offset 0 on. -/
theorem Memory.readBytes_image (v : Bytes) {p L : Nat} (h : p + L ≤ v.length) :
    Memory.readBytes { cells := cellsFrom 0 v } p L = .ok (slice v p L) := by
  rw [Memory.readBytes_ok_iff]
  refine ⟨by simp [slice]; omega, fun i hi => ?_⟩
  have := lookup_cellsFrom_in (p := 0) (a := p + i) (v := v) (Nat.zero_le _) (by omega)
  simp only [Memory.read, this, slice, Nat.sub_zero]
  rw [List.getElem?_take_of_lt hi, List.getElem?_drop]

end Sys2Proof.Machine
end

