-- ==== Sys2Proof/Laws/Bds.lean ====
section
/-! SUPPORT. The shape of the BDS state (spec/10_state.md R56 to R58, spec/45_bds.md R350): the fresh state has it and setup
keeps it. -/

namespace Sys2Proof.Machine

theorem NodesOk.set {xs : List Bytes} {x : Bytes} (i : Nat) (h : NodesOk xs) (hx : x.length = 32) : NodesOk (xs.set i x) := by
  intro y hy
  rcases List.mem_or_eq_of_mem_set hy with hy | rfl
  · exact h y hy
  · exact hx

theorem NodesOk.zeros (n : Nat) : NodesOk (List.replicate n (zeros 32)) := by
  intro x hx
  rw [List.eq_of_mem_replicate hx]
  simp

theorem NodesOk.nodeAt {xs : List Bytes} {i : Nat} (h : NodesOk xs) (hi : i < xs.length) :
    (Sys2Proof.Machine.nodeAt xs i).length = 32 := by
  simp only [Sys2Proof.Machine.nodeAt, List.getD_eq_getElem?_getD, List.getElem?_eq_getElem hi, Option.getD_some]
  exact h _ (List.getElem_mem hi)

theorem freshBds_ok (h k : Nat) : BdsOk h k (freshBds h k) where
  stack := ⟨by simp [freshBds], NodesOk.zeros _⟩
  stackLevels := by simp [freshBds]
  stackOffset := by simp [freshBds]
  auth := ⟨by simp [freshBds], NodesOk.zeros _⟩
  keep := ⟨by simp [freshBds], NodesOk.zeros _⟩
  th := by simp [freshBds, Function.comp_def]
  thNodes := by
    intro t ht
    simp only [freshBds, List.mem_map] at ht
    obtain ⟨i, -, rfl⟩ := ht
    simp
  retain := ⟨by simp [freshBds], NodesOk.zeros _⟩
  usage := by
    have h0 : ∀ l : List Nat, (∀ n ∈ l, n = 0) → l.sum = 0 := by
      intro l hl
      induction l with
      | nil => rfl
      | cons n l ih => simp [hl n (by simp), ih fun m hm => hl m (by simp [hm])]
    refine Nat.le_of_eq (h0 _ fun n hn => ?_)
    simp only [freshBds, List.mem_map] at hn
    obtain ⟨t, ⟨i, -, rfl⟩, rfl⟩ := hn
    rfl
  levels := by
    intro p hp
    have : (List.replicate (h + 1) 0).getD p 0 = 0 := by
      simp [List.getD_eq_getElem?_getD, List.getElem?_replicate]
      split <;> rfl
    simp only [freshBds, this]
    omega

theorem BdsOk.th_length {h k : Nat} {b : Bds} (ok : BdsOk h k b) : b.th.length = h - k := by
  simpa using congrArg List.length ok.th

theorem instAt_eq {b : Bds} {j : Nat} (hj : j < b.th.length) : instAt b j = b.th[j] := by
  simp [instAt, List.getD_eq_getElem?_getD, List.getElem?_eq_getElem hj]

theorem BdsOk.instAt_h {h k : Nat} {b : Bds} (ok : BdsOk h k b) {j : Nat} (hj : j < h - k) : (instAt b j).h = j := by
  have hl := ok.th_length
  have := congrArg (fun l : List Nat => l[j]?) ok.th
  simp only [List.getElem?_map, List.getElem?_range hj] at this
  rw [instAt_eq (by omega)]
  rw [List.getElem?_eq_getElem (by omega)] at this
  simpa using this

/-- Replacing an instance by one of the same level, with a legal node, a legal next index and no more slots, keeps the
shape. -/
theorem BdsOk.setTh {h k : Nat} {b : Bds} (ok : BdsOk h k b) (j : Nat) (I : TreehashInst)
    (hh : I.h = (instAt b j).h) (hn : I.node.length = 32) (hx : I.nextIdx ≤ 2 ^ h)
    (hs : I.stackUsage ≤ (instAt b j).stackUsage) : BdsOk h k { b with th := b.th.set j I } := by
  by_cases hj : j < b.th.length
  · rw [instAt_eq hj] at hh hs
    refine { ok with th := ?_, thNodes := ?_, usage := ?_ }
    · show (b.th.set j I).map TreehashInst.h = _
      rw [List.map_set, hh, ← ok.th]
      apply List.ext_getElem?
      intro m
      by_cases hm : j = m
      · subst hm
        simp [hj]
      · simp [hm]
    · intro t ht
      rcases List.mem_or_eq_of_mem_set ht with ht | rfl
      · exact ok.thNodes t ht
      · exact ⟨hn, hx⟩
    · refine Nat.le_trans ?_ ok.usage
      show ((b.th.set j I).map TreehashInst.stackUsage).sum ≤ _
      generalize hl : b.th = l at hj hs
      clear hl ok hh hx hn
      induction l generalizing j with
      | nil => simp
      | cons t l ih =>
        cases j with
        | zero => simpa using hs
        | succ j =>
          simp only [List.set_cons_succ, List.map_cons, List.sum_cons]
          have := ih (j := j) (by simpa using hj) (by simpa using hs)
          omega
  · rw [List.set_eq_of_length_le (by omega)]
    exact ok

theorem BdsOk.setAuth {h k : Nat} {b : Bds} (ok : BdsOk h k b) (j : Nat) {x : Bytes} (hx : x.length = 32) :
    BdsOk h k { b with auth := b.auth.set j x } :=
  { ok with auth := ⟨by simpa using ok.auth.1, ok.auth.2.set j hx⟩ }

theorem BdsOk.setKeep {h k : Nat} {b : Bds} (ok : BdsOk h k b) (j : Nat) {x : Bytes} (hx : x.length = 32) :
    BdsOk h k { b with keep := b.keep.set j x } :=
  { ok with keep := ⟨by simpa using ok.keep.1, ok.keep.2.set j hx⟩ }

theorem BdsOk.setRetain {h k : Nat} {b : Bds} (ok : BdsOk h k b) (j : Nat) {x : Bytes} (hx : x.length = 32) :
    BdsOk h k { b with retain := b.retain.set j x } :=
  { ok with retain := ⟨by simpa using ok.retain.1, ok.retain.2.set j hx⟩ }

theorem BdsOk.instAt_ok {h k : Nat} {b : Bds} (ok : BdsOk h k b) {j : Nat} (hj : j < h - k) :
    (instAt b j).node.length = 32 ∧ (instAt b j).nextIdx ≤ 2 ^ h := by
  have hl := ok.th_length
  rw [instAt_eq (by omega)]
  exact ok.thNodes _ (List.getElem_mem _)

/-! ### Setup (R355) -/

theorem setupSnapshot_ok {c : BdsCtx} {b : Bds} {j i : Nat} {top : Bytes} (ok : BdsOk c.h c.k b) (ht : top.length = 32) :
    BdsOk c.h c.k (setupSnapshot c b j i top) := by
  unfold setupSnapshot
  split
  · exact ok.setAuth j ht
  · split
    · rename_i hj
      exact ok.setTh j _ rfl ht (ok.instAt_ok hj.1).2 (Nat.le_refl _)
    · split
      · exact ok.setRetain _ ht
      · exact ok

theorem setupPush_ok {c : BdsCtx} (idx : Nat) {b : Bds} {node : Bytes} (nh : Nat) {st : List (Bytes × Nat)}
    (hn : c.tree.su.n = 32) (ok : BdsOk c.h c.k b) (hx : node.length = 32) (hs : ∀ e ∈ st, e.1.length = 32) :
    BdsOk c.h c.k (setupPush c idx b node nh st).1 ∧ ∀ e ∈ (setupPush c idx b node nh st).2, e.1.length = 32 := by
  induction st generalizing b node nh with
  | nil => exact ⟨ok, by simpa [setupPush] using hx⟩
  | cons e rest ih =>
    obtain ⟨below, hb⟩ := e
    unfold setupPush
    split
    · exact ih _ (setupSnapshot_ok ok hx) (by simp [bdsHash, hn]) fun e he => hs e (by simp [he])
    · refine ⟨ok, fun e he => ?_⟩
      rcases List.mem_cons.1 he with rfl | he
      · exact hx
      · exact hs e he

/-- Setup keeps the shape. -/
theorem bdsSetup_ok {c : BdsCtx} {b : Bds} (hn : c.tree.su.n = 32) (ok : BdsOk c.h c.k b) :
    BdsOk c.h c.k (bdsSetup c b).1 := by
  unfold bdsSetup
  simp only
  have start : BdsOk c.h c.k
      { b with th := b.th.mapIdx fun i t => { t with h := i, completed := true, stackUsage := 0 } } := by
    refine { ok with th := ?_, thNodes := ?_, usage := ?_ }
    · have hl := ok.th_length
      refine List.ext_getElem (by simp [hl]) fun n h₁ h₂ => by simp
    · intro t ht
      simp only [List.mem_mapIdx] at ht
      obtain ⟨i, hi, rfl⟩ := ht
      exact ok.thNodes b.th[i] (List.getElem_mem hi)
    · refine Nat.le_trans (Nat.le_of_eq ?_) (Nat.zero_le _)
      refine List.sum_eq_zero (fun n hn' => ?_)
      simp only [List.mem_map, List.mem_mapIdx] at hn'
      obtain ⟨t, ⟨i, hi, rfl⟩, rfl⟩ := hn'
      rfl
  have loop : ∀ (l : List Nat) (st : Bds × List (Bytes × Nat)), BdsOk c.h c.k st.1 → (∀ e ∈ st.2, e.1.length = 32) →
      BdsOk c.h c.k (l.foldl (fun st idx => setupPush c idx st.1 (bdsLeaf c idx) 0 st.2) st).1 := by
    intro l
    induction l with
    | nil => exact fun st h _ => h
    | cons idx l ih =>
      intro st h hs
      have := setupPush_ok idx 0 hn h (by simp [bdsLeaf, hn] : (bdsLeaf c idx).length = 32) hs
      exact ih _ this.1 this.2
  exact loop _ _ start (by simp)

theorem setupPush_ne_nil (c : BdsCtx) (idx : Nat) (b : Bds) (node : Bytes) (nh : Nat) (st : List (Bytes × Nat)) :
    (setupPush c idx b node nh st).2 ≠ [] := by
  induction st generalizing b node nh with
  | nil => simp [setupPush]
  | cons e rest ih =>
    obtain ⟨below, hb⟩ := e
    unfold setupPush
    split
    · exact ih _ _ _
    · simp

/-- The root that setup returns is a 32-byte node. -/
theorem bdsSetup_root_length (c : BdsCtx) (b : Bds) (hn : c.tree.su.n = 32) : (bdsSetup c b).2.length = 32 := by
  have push : ∀ (idx : Nat) (b : Bds) (node : Bytes) (nh : Nat) (st : List (Bytes × Nat)), node.length = 32 →
      (∀ e ∈ st, e.1.length = 32) → ∀ e ∈ (setupPush c idx b node nh st).2, e.1.length = 32 := by
    intro idx b node nh st hx hs
    induction st generalizing b node nh with
    | nil => simpa [setupPush] using hx
    | cons e rest ih =>
      obtain ⟨below, hb⟩ := e
      unfold setupPush
      split
      · exact ih _ _ _ (by simp [bdsHash, hn]) fun e he => hs e (by simp [he])
      · intro e he
        rcases List.mem_cons.1 he with rfl | he
        · exact hx
        · exact hs e he
  have loop : ∀ (l : List Nat) (st : Bds × List (Bytes × Nat)), (∀ e ∈ st.2, e.1.length = 32) → (l ≠ [] ∨ st.2 ≠ []) →
      ((l.foldl (fun st idx => setupPush c idx st.1 (bdsLeaf c idx) 0 st.2) st).2.headD ([], 0)).1.length = 32 := by
    intro l
    induction l with
    | nil =>
      intro st hs hne
      cases h2 : st.2 with
      | nil => simp [h2] at hne
      | cons e r => simpa [h2] using hs e (by simp [h2])
    | cons idx l ih =>
      intro st hs _
      exact ih _ (push idx _ _ 0 _ (by simp [bdsLeaf, hn]) hs) (.inr (setupPush_ne_nil _ _ _ _ _ _))
  refine loop _ _ (by simp) (.inl fun e => ?_)
  have := congrArg List.length e
  simp at this

end Sys2Proof.Machine
end

