-- ==== Sys2Proof/Laws/State.lean ====
section
/-! SUPPORT. One lemma per field per update of State, each true by rfl, so that no proof unfolds an update. -/

namespace Sys2Proof.Machine

/-! ### The issue step (spec/40_control.md R172) -/

@[simp] theorem State.issue_build (s : State) (c : Word) : (s.issue c).build = s.build := rfl
@[simp] theorem State.issue_done (s : State) (c : Word) : (s.issue c).done = false := rfl
@[simp] theorem State.issue_err (s : State) (c : Word) : (s.issue c).err = false := rfl
@[simp] theorem State.issue_verifyOk (s : State) (c : Word) : (s.issue c).verifyOk = false := rfl
@[simp] theorem State.issue_errCode (s : State) (c : Word) : (s.issue c).errCode = 0 := rfl
@[simp] theorem State.issue_intEn (s : State) (c : Word) : (s.issue c).intEn = s.intEn := rfl
@[simp] theorem State.issue_intStatus (s : State) (c : Word) : (s.issue c).intStatus = s.intStatus := rfl
@[simp] theorem State.issue_cfg (s : State) (c : Word) : (s.issue c).cfg = s.cfg := rfl
@[simp] theorem State.issue_keycfg (s : State) (c : Word) : (s.issue c).keycfg = s.keycfg := rfl
@[simp] theorem State.issue_arg (s : State) (c : Word) : (s.issue c).arg = s.arg := rfl
@[simp] theorem State.issue_res0 (s : State) (c : Word) : (s.issue c).res0 = 0 := rfl
@[simp] theorem State.issue_res1 (s : State) (c : Word) : (s.issue c).res1 = 0 := rfl
@[simp] theorem State.issue_adrs (s : State) (c : Word) : (s.issue c).adrs = s.adrs := rfl
@[simp] theorem State.issue_cmdCount (s : State) (c : Word) : (s.issue c).cmdCount = s.cmdCount := rfl
@[simp] theorem State.issue_ks (s : State) (c : Word) : (s.issue c).ks = s.ks := rfl
@[simp] theorem State.issue_sp (s : State) (c : Word) : (s.issue c).sp = s.sp := rfl
@[simp] theorem State.issue_buf (s : State) (c : Word) : (s.issue c).buf = s.buf := rfl
@[simp] theorem State.issue_key (s : State) (c : Word) : (s.issue c).key = s.key := rfl
@[simp] theorem State.issue_bds (s : State) (c : Word) : (s.issue c).bds = s.bds := rfl
@[simp] theorem State.issue_bdsSync (s : State) (c : Word) : (s.issue c).bdsSync = s.bdsSync := rfl
@[simp] theorem State.issue_pending (s : State) (c : Word) : (s.issue c).pending = some (s.sample c) := rfl
@[simp] theorem State.issue_readData (s : State) (c : Word) : (s.issue c).readData = s.readData := rfl
@[simp] theorem State.issue_sched (s : State) (c : Word) : (s.issue c).sched = s.sched := rfl

/-! ### Successful completion (spec/40_control.md R173) -/

@[simp] theorem State.succeed_build (s : State) : s.succeed.build = s.build := rfl
@[simp] theorem State.succeed_done (s : State) : s.succeed.done = true := rfl
@[simp] theorem State.succeed_err (s : State) : s.succeed.err = s.err := rfl
@[simp] theorem State.succeed_verifyOk (s : State) : s.succeed.verifyOk = s.verifyOk := rfl
@[simp] theorem State.succeed_errCode (s : State) : s.succeed.errCode = s.errCode := rfl
@[simp] theorem State.succeed_intEn (s : State) : s.succeed.intEn = s.intEn := rfl
@[simp] theorem State.succeed_intStatus (s : State) : s.succeed.intStatus = s.intStatus ||| doneIP := rfl
@[simp] theorem State.succeed_cfg (s : State) : s.succeed.cfg = s.cfg := rfl
@[simp] theorem State.succeed_keycfg (s : State) : s.succeed.keycfg = s.keycfg := rfl
@[simp] theorem State.succeed_arg (s : State) : s.succeed.arg = s.arg := rfl
@[simp] theorem State.succeed_res0 (s : State) : s.succeed.res0 = s.res0 := rfl
@[simp] theorem State.succeed_res1 (s : State) : s.succeed.res1 = s.res1 := rfl
@[simp] theorem State.succeed_adrs (s : State) : s.succeed.adrs = s.adrs := rfl
@[simp] theorem State.succeed_cmdCount (s : State) : s.succeed.cmdCount = s.cmdCount + 1 := rfl
@[simp] theorem State.succeed_ks (s : State) : s.succeed.ks = s.ks := rfl
@[simp] theorem State.succeed_sp (s : State) : s.succeed.sp = s.sp := rfl
@[simp] theorem State.succeed_buf (s : State) : s.succeed.buf = s.buf := rfl
@[simp] theorem State.succeed_key (s : State) : s.succeed.key = s.key := rfl
@[simp] theorem State.succeed_bds (s : State) : s.succeed.bds = s.bds := rfl
@[simp] theorem State.succeed_bdsSync (s : State) : s.succeed.bdsSync = s.bdsSync := rfl
@[simp] theorem State.succeed_pending (s : State) : s.succeed.pending = none := rfl
@[simp] theorem State.succeed_readData (s : State) : s.succeed.readData = s.readData := rfl
@[simp] theorem State.succeed_sched (s : State) : s.succeed.sched = s.sched := rfl

/-! ### Error completion (spec/40_control.md R174) -/

@[simp] theorem State.failWith_build (s : State) (e : CmdError) : (s.failWith e).build = s.build := rfl
@[simp] theorem State.failWith_done (s : State) (e : CmdError) : (s.failWith e).done = true := rfl
@[simp] theorem State.failWith_err (s : State) (e : CmdError) : (s.failWith e).err = true := rfl
@[simp] theorem State.failWith_verifyOk (s : State) (e : CmdError) : (s.failWith e).verifyOk = s.verifyOk := rfl
@[simp] theorem State.failWith_errCode (s : State) (e : CmdError) : (s.failWith e).errCode = errorWord e (s.latch.word.extractLsb 7 0) := rfl
@[simp] theorem State.failWith_intEn (s : State) (e : CmdError) : (s.failWith e).intEn = s.intEn := rfl
@[simp] theorem State.failWith_intStatus (s : State) (e : CmdError) : (s.failWith e).intStatus = s.intStatus ||| (doneIP ||| errIP) := rfl
@[simp] theorem State.failWith_cfg (s : State) (e : CmdError) : (s.failWith e).cfg = s.cfg := rfl
@[simp] theorem State.failWith_keycfg (s : State) (e : CmdError) : (s.failWith e).keycfg = s.keycfg := rfl
@[simp] theorem State.failWith_arg (s : State) (e : CmdError) : (s.failWith e).arg = s.arg := rfl
@[simp] theorem State.failWith_res0 (s : State) (e : CmdError) : (s.failWith e).res0 = s.res0 := rfl
@[simp] theorem State.failWith_res1 (s : State) (e : CmdError) : (s.failWith e).res1 = s.res1 := rfl
@[simp] theorem State.failWith_adrs (s : State) (e : CmdError) : (s.failWith e).adrs = s.adrs := rfl
@[simp] theorem State.failWith_cmdCount (s : State) (e : CmdError) : (s.failWith e).cmdCount = s.cmdCount + 1 := rfl
@[simp] theorem State.failWith_ks (s : State) (e : CmdError) : (s.failWith e).ks = s.ks := rfl
@[simp] theorem State.failWith_sp (s : State) (e : CmdError) : (s.failWith e).sp = s.sp := rfl
@[simp] theorem State.failWith_buf (s : State) (e : CmdError) : (s.failWith e).buf = s.buf := rfl
@[simp] theorem State.failWith_key (s : State) (e : CmdError) : (s.failWith e).key = s.key := rfl
@[simp] theorem State.failWith_bds (s : State) (e : CmdError) : (s.failWith e).bds = s.bds := rfl
@[simp] theorem State.failWith_bdsSync (s : State) (e : CmdError) : (s.failWith e).bdsSync = s.bdsSync := rfl
@[simp] theorem State.failWith_pending (s : State) (e : CmdError) : (s.failWith e).pending = none := rfl
@[simp] theorem State.failWith_readData (s : State) (e : CmdError) : (s.failWith e).readData = s.readData := rfl
@[simp] theorem State.failWith_sched (s : State) (e : CmdError) : (s.failWith e).sched = s.sched := rfl

/-! ### A write of RES0 -/

@[simp] theorem State.withRes0_build (s : State) (v : Nat) : (s.withRes0 v).build = s.build := rfl
@[simp] theorem State.withRes0_done (s : State) (v : Nat) : (s.withRes0 v).done = s.done := rfl
@[simp] theorem State.withRes0_err (s : State) (v : Nat) : (s.withRes0 v).err = s.err := rfl
@[simp] theorem State.withRes0_verifyOk (s : State) (v : Nat) : (s.withRes0 v).verifyOk = s.verifyOk := rfl
@[simp] theorem State.withRes0_errCode (s : State) (v : Nat) : (s.withRes0 v).errCode = s.errCode := rfl
@[simp] theorem State.withRes0_intEn (s : State) (v : Nat) : (s.withRes0 v).intEn = s.intEn := rfl
@[simp] theorem State.withRes0_intStatus (s : State) (v : Nat) : (s.withRes0 v).intStatus = s.intStatus := rfl
@[simp] theorem State.withRes0_cfg (s : State) (v : Nat) : (s.withRes0 v).cfg = s.cfg := rfl
@[simp] theorem State.withRes0_keycfg (s : State) (v : Nat) : (s.withRes0 v).keycfg = s.keycfg := rfl
@[simp] theorem State.withRes0_arg (s : State) (v : Nat) : (s.withRes0 v).arg = s.arg := rfl
@[simp] theorem State.withRes0_res0 (s : State) (v : Nat) : (s.withRes0 v).res0 = BitVec.ofNat 32 v := rfl
@[simp] theorem State.withRes0_res1 (s : State) (v : Nat) : (s.withRes0 v).res1 = s.res1 := rfl
@[simp] theorem State.withRes0_adrs (s : State) (v : Nat) : (s.withRes0 v).adrs = s.adrs := rfl
@[simp] theorem State.withRes0_cmdCount (s : State) (v : Nat) : (s.withRes0 v).cmdCount = s.cmdCount := rfl
@[simp] theorem State.withRes0_ks (s : State) (v : Nat) : (s.withRes0 v).ks = s.ks := rfl
@[simp] theorem State.withRes0_sp (s : State) (v : Nat) : (s.withRes0 v).sp = s.sp := rfl
@[simp] theorem State.withRes0_buf (s : State) (v : Nat) : (s.withRes0 v).buf = s.buf := rfl
@[simp] theorem State.withRes0_key (s : State) (v : Nat) : (s.withRes0 v).key = s.key := rfl
@[simp] theorem State.withRes0_bds (s : State) (v : Nat) : (s.withRes0 v).bds = s.bds := rfl
@[simp] theorem State.withRes0_bdsSync (s : State) (v : Nat) : (s.withRes0 v).bdsSync = s.bdsSync := rfl
@[simp] theorem State.withRes0_pending (s : State) (v : Nat) : (s.withRes0 v).pending = s.pending := rfl
@[simp] theorem State.withRes0_readData (s : State) (v : Nat) : (s.withRes0 v).readData = s.readData := rfl
@[simp] theorem State.withRes0_sched (s : State) (v : Nat) : (s.withRes0 v).sched = s.sched := rfl

/-! ### A write of RES1 -/

@[simp] theorem State.withRes1_build (s : State) (v : Nat) : (s.withRes1 v).build = s.build := rfl
@[simp] theorem State.withRes1_done (s : State) (v : Nat) : (s.withRes1 v).done = s.done := rfl
@[simp] theorem State.withRes1_err (s : State) (v : Nat) : (s.withRes1 v).err = s.err := rfl
@[simp] theorem State.withRes1_verifyOk (s : State) (v : Nat) : (s.withRes1 v).verifyOk = s.verifyOk := rfl
@[simp] theorem State.withRes1_errCode (s : State) (v : Nat) : (s.withRes1 v).errCode = s.errCode := rfl
@[simp] theorem State.withRes1_intEn (s : State) (v : Nat) : (s.withRes1 v).intEn = s.intEn := rfl
@[simp] theorem State.withRes1_intStatus (s : State) (v : Nat) : (s.withRes1 v).intStatus = s.intStatus := rfl
@[simp] theorem State.withRes1_cfg (s : State) (v : Nat) : (s.withRes1 v).cfg = s.cfg := rfl
@[simp] theorem State.withRes1_keycfg (s : State) (v : Nat) : (s.withRes1 v).keycfg = s.keycfg := rfl
@[simp] theorem State.withRes1_arg (s : State) (v : Nat) : (s.withRes1 v).arg = s.arg := rfl
@[simp] theorem State.withRes1_res0 (s : State) (v : Nat) : (s.withRes1 v).res0 = s.res0 := rfl
@[simp] theorem State.withRes1_res1 (s : State) (v : Nat) : (s.withRes1 v).res1 = BitVec.ofNat 32 v := rfl
@[simp] theorem State.withRes1_adrs (s : State) (v : Nat) : (s.withRes1 v).adrs = s.adrs := rfl
@[simp] theorem State.withRes1_cmdCount (s : State) (v : Nat) : (s.withRes1 v).cmdCount = s.cmdCount := rfl
@[simp] theorem State.withRes1_ks (s : State) (v : Nat) : (s.withRes1 v).ks = s.ks := rfl
@[simp] theorem State.withRes1_sp (s : State) (v : Nat) : (s.withRes1 v).sp = s.sp := rfl
@[simp] theorem State.withRes1_buf (s : State) (v : Nat) : (s.withRes1 v).buf = s.buf := rfl
@[simp] theorem State.withRes1_key (s : State) (v : Nat) : (s.withRes1 v).key = s.key := rfl
@[simp] theorem State.withRes1_bds (s : State) (v : Nat) : (s.withRes1 v).bds = s.bds := rfl
@[simp] theorem State.withRes1_bdsSync (s : State) (v : Nat) : (s.withRes1 v).bdsSync = s.bdsSync := rfl
@[simp] theorem State.withRes1_pending (s : State) (v : Nat) : (s.withRes1 v).pending = s.pending := rfl
@[simp] theorem State.withRes1_readData (s : State) (v : Nat) : (s.withRes1 v).readData = s.readData := rfl
@[simp] theorem State.withRes1_sched (s : State) (v : Nat) : (s.withRes1 v).sched = s.sched := rfl

/-! ### A write of BUF -/

@[simp] theorem State.writeBuf_build (s : State) (p : Nat) (v : Bytes) : (s.writeBuf p v).build = s.build := rfl
@[simp] theorem State.writeBuf_done (s : State) (p : Nat) (v : Bytes) : (s.writeBuf p v).done = s.done := rfl
@[simp] theorem State.writeBuf_err (s : State) (p : Nat) (v : Bytes) : (s.writeBuf p v).err = s.err := rfl
@[simp] theorem State.writeBuf_verifyOk (s : State) (p : Nat) (v : Bytes) : (s.writeBuf p v).verifyOk = s.verifyOk := rfl
@[simp] theorem State.writeBuf_errCode (s : State) (p : Nat) (v : Bytes) : (s.writeBuf p v).errCode = s.errCode := rfl
@[simp] theorem State.writeBuf_intEn (s : State) (p : Nat) (v : Bytes) : (s.writeBuf p v).intEn = s.intEn := rfl
@[simp] theorem State.writeBuf_intStatus (s : State) (p : Nat) (v : Bytes) : (s.writeBuf p v).intStatus = s.intStatus := rfl
@[simp] theorem State.writeBuf_cfg (s : State) (p : Nat) (v : Bytes) : (s.writeBuf p v).cfg = s.cfg := rfl
@[simp] theorem State.writeBuf_keycfg (s : State) (p : Nat) (v : Bytes) : (s.writeBuf p v).keycfg = s.keycfg := rfl
@[simp] theorem State.writeBuf_arg (s : State) (p : Nat) (v : Bytes) : (s.writeBuf p v).arg = s.arg := rfl
@[simp] theorem State.writeBuf_res0 (s : State) (p : Nat) (v : Bytes) : (s.writeBuf p v).res0 = s.res0 := rfl
@[simp] theorem State.writeBuf_res1 (s : State) (p : Nat) (v : Bytes) : (s.writeBuf p v).res1 = s.res1 := rfl
@[simp] theorem State.writeBuf_adrs (s : State) (p : Nat) (v : Bytes) : (s.writeBuf p v).adrs = s.adrs := rfl
@[simp] theorem State.writeBuf_cmdCount (s : State) (p : Nat) (v : Bytes) : (s.writeBuf p v).cmdCount = s.cmdCount := rfl
@[simp] theorem State.writeBuf_ks (s : State) (p : Nat) (v : Bytes) : (s.writeBuf p v).ks = s.ks := rfl
@[simp] theorem State.writeBuf_sp (s : State) (p : Nat) (v : Bytes) : (s.writeBuf p v).sp = s.sp := rfl
@[simp] theorem State.writeBuf_buf (s : State) (p : Nat) (v : Bytes) : (s.writeBuf p v).buf = s.buf.write p v := rfl
@[simp] theorem State.writeBuf_key (s : State) (p : Nat) (v : Bytes) : (s.writeBuf p v).key = s.key := rfl
@[simp] theorem State.writeBuf_bds (s : State) (p : Nat) (v : Bytes) : (s.writeBuf p v).bds = s.bds := rfl
@[simp] theorem State.writeBuf_bdsSync (s : State) (p : Nat) (v : Bytes) : (s.writeBuf p v).bdsSync = s.bdsSync := rfl
@[simp] theorem State.writeBuf_pending (s : State) (p : Nat) (v : Bytes) : (s.writeBuf p v).pending = s.pending := rfl
@[simp] theorem State.writeBuf_readData (s : State) (p : Nat) (v : Bytes) : (s.writeBuf p v).readData = s.readData := rfl
@[simp] theorem State.writeBuf_sched (s : State) (p : Nat) (v : Bytes) : (s.writeBuf p v).sched = s.sched := rfl

/-! ### A bus error on a write (spec/20_memory.md R103) -/

@[simp] theorem State.busErrorWrite_build (s : State) : s.busErrorWrite.build = s.build := rfl
@[simp] theorem State.busErrorWrite_done (s : State) : s.busErrorWrite.done = s.done := rfl
@[simp] theorem State.busErrorWrite_err (s : State) : s.busErrorWrite.err = s.err := rfl
@[simp] theorem State.busErrorWrite_verifyOk (s : State) : s.busErrorWrite.verifyOk = s.verifyOk := rfl
@[simp] theorem State.busErrorWrite_errCode (s : State) : s.busErrorWrite.errCode = s.errCode := rfl
@[simp] theorem State.busErrorWrite_intEn (s : State) : s.busErrorWrite.intEn = s.intEn := rfl
@[simp] theorem State.busErrorWrite_intStatus (s : State) : s.busErrorWrite.intStatus = s.intStatus ||| busErrIP := rfl
@[simp] theorem State.busErrorWrite_cfg (s : State) : s.busErrorWrite.cfg = s.cfg := rfl
@[simp] theorem State.busErrorWrite_keycfg (s : State) : s.busErrorWrite.keycfg = s.keycfg := rfl
@[simp] theorem State.busErrorWrite_arg (s : State) : s.busErrorWrite.arg = s.arg := rfl
@[simp] theorem State.busErrorWrite_res0 (s : State) : s.busErrorWrite.res0 = s.res0 := rfl
@[simp] theorem State.busErrorWrite_res1 (s : State) : s.busErrorWrite.res1 = s.res1 := rfl
@[simp] theorem State.busErrorWrite_adrs (s : State) : s.busErrorWrite.adrs = s.adrs := rfl
@[simp] theorem State.busErrorWrite_cmdCount (s : State) : s.busErrorWrite.cmdCount = s.cmdCount := rfl
@[simp] theorem State.busErrorWrite_ks (s : State) : s.busErrorWrite.ks = s.ks := rfl
@[simp] theorem State.busErrorWrite_sp (s : State) : s.busErrorWrite.sp = s.sp := rfl
@[simp] theorem State.busErrorWrite_buf (s : State) : s.busErrorWrite.buf = s.buf := rfl
@[simp] theorem State.busErrorWrite_key (s : State) : s.busErrorWrite.key = s.key := rfl
@[simp] theorem State.busErrorWrite_bds (s : State) : s.busErrorWrite.bds = s.bds := rfl
@[simp] theorem State.busErrorWrite_bdsSync (s : State) : s.busErrorWrite.bdsSync = s.bdsSync := rfl
@[simp] theorem State.busErrorWrite_pending (s : State) : s.busErrorWrite.pending = s.pending := rfl
@[simp] theorem State.busErrorWrite_readData (s : State) : s.busErrorWrite.readData = s.readData := rfl
@[simp] theorem State.busErrorWrite_sched (s : State) : s.busErrorWrite.sched = s.sched := rfl

/-! ### A bus error on a read (spec/20_memory.md R103) -/

@[simp] theorem State.busErrorRead_build (s : State) : s.busErrorRead.build = s.build := rfl
@[simp] theorem State.busErrorRead_done (s : State) : s.busErrorRead.done = s.done := rfl
@[simp] theorem State.busErrorRead_err (s : State) : s.busErrorRead.err = s.err := rfl
@[simp] theorem State.busErrorRead_verifyOk (s : State) : s.busErrorRead.verifyOk = s.verifyOk := rfl
@[simp] theorem State.busErrorRead_errCode (s : State) : s.busErrorRead.errCode = s.errCode := rfl
@[simp] theorem State.busErrorRead_intEn (s : State) : s.busErrorRead.intEn = s.intEn := rfl
@[simp] theorem State.busErrorRead_intStatus (s : State) : s.busErrorRead.intStatus = s.intStatus ||| busErrIP := rfl
@[simp] theorem State.busErrorRead_cfg (s : State) : s.busErrorRead.cfg = s.cfg := rfl
@[simp] theorem State.busErrorRead_keycfg (s : State) : s.busErrorRead.keycfg = s.keycfg := rfl
@[simp] theorem State.busErrorRead_arg (s : State) : s.busErrorRead.arg = s.arg := rfl
@[simp] theorem State.busErrorRead_res0 (s : State) : s.busErrorRead.res0 = s.res0 := rfl
@[simp] theorem State.busErrorRead_res1 (s : State) : s.busErrorRead.res1 = s.res1 := rfl
@[simp] theorem State.busErrorRead_adrs (s : State) : s.busErrorRead.adrs = s.adrs := rfl
@[simp] theorem State.busErrorRead_cmdCount (s : State) : s.busErrorRead.cmdCount = s.cmdCount := rfl
@[simp] theorem State.busErrorRead_ks (s : State) : s.busErrorRead.ks = s.ks := rfl
@[simp] theorem State.busErrorRead_sp (s : State) : s.busErrorRead.sp = s.sp := rfl
@[simp] theorem State.busErrorRead_buf (s : State) : s.busErrorRead.buf = s.buf := rfl
@[simp] theorem State.busErrorRead_key (s : State) : s.busErrorRead.key = s.key := rfl
@[simp] theorem State.busErrorRead_bds (s : State) : s.busErrorRead.bds = s.bds := rfl
@[simp] theorem State.busErrorRead_bdsSync (s : State) : s.busErrorRead.bdsSync = s.bdsSync := rfl
@[simp] theorem State.busErrorRead_pending (s : State) : s.busErrorRead.pending = s.pending := rfl
@[simp] theorem State.busErrorRead_readData (s : State) : s.busErrorRead.readData = 0 := rfl
@[simp] theorem State.busErrorRead_sched (s : State) : s.busErrorRead.sched = s.sched := rfl

/-! ### A dropped CMD write (spec/40_control.md R171) -/

@[simp] theorem State.overrun_build (s : State) : s.overrun.build = s.build := rfl
@[simp] theorem State.overrun_done (s : State) : s.overrun.done = s.done := rfl
@[simp] theorem State.overrun_err (s : State) : s.overrun.err = s.err := rfl
@[simp] theorem State.overrun_verifyOk (s : State) : s.overrun.verifyOk = s.verifyOk := rfl
@[simp] theorem State.overrun_errCode (s : State) : s.overrun.errCode = s.errCode := rfl
@[simp] theorem State.overrun_intEn (s : State) : s.overrun.intEn = s.intEn := rfl
@[simp] theorem State.overrun_intStatus (s : State) : s.overrun.intStatus = s.intStatus ||| overrunIP := rfl
@[simp] theorem State.overrun_cfg (s : State) : s.overrun.cfg = s.cfg := rfl
@[simp] theorem State.overrun_keycfg (s : State) : s.overrun.keycfg = s.keycfg := rfl
@[simp] theorem State.overrun_arg (s : State) : s.overrun.arg = s.arg := rfl
@[simp] theorem State.overrun_res0 (s : State) : s.overrun.res0 = s.res0 := rfl
@[simp] theorem State.overrun_res1 (s : State) : s.overrun.res1 = s.res1 := rfl
@[simp] theorem State.overrun_adrs (s : State) : s.overrun.adrs = s.adrs := rfl
@[simp] theorem State.overrun_cmdCount (s : State) : s.overrun.cmdCount = s.cmdCount := rfl
@[simp] theorem State.overrun_ks (s : State) : s.overrun.ks = s.ks := rfl
@[simp] theorem State.overrun_sp (s : State) : s.overrun.sp = s.sp := rfl
@[simp] theorem State.overrun_buf (s : State) : s.overrun.buf = s.buf := rfl
@[simp] theorem State.overrun_key (s : State) : s.overrun.key = s.key := rfl
@[simp] theorem State.overrun_bds (s : State) : s.overrun.bds = s.bds := rfl
@[simp] theorem State.overrun_bdsSync (s : State) : s.overrun.bdsSync = s.bdsSync := rfl
@[simp] theorem State.overrun_pending (s : State) : s.overrun.pending = s.pending := rfl
@[simp] theorem State.overrun_readData (s : State) : s.overrun.readData = s.readData := rfl
@[simp] theorem State.overrun_sched (s : State) : s.overrun.sched = s.sched := rfl

/-! ### A reset (spec/70_reset_and_hazards.md R500) -/

@[simp] theorem resetMove_build (s : State) : (resetMove s).build = s.build := rfl
@[simp] theorem resetMove_done (s : State) : (resetMove s).done = State.reset.done := rfl
@[simp] theorem resetMove_err (s : State) : (resetMove s).err = State.reset.err := rfl
@[simp] theorem resetMove_verifyOk (s : State) : (resetMove s).verifyOk = State.reset.verifyOk := rfl
@[simp] theorem resetMove_errCode (s : State) : (resetMove s).errCode = State.reset.errCode := rfl
@[simp] theorem resetMove_intEn (s : State) : (resetMove s).intEn = State.reset.intEn := rfl
@[simp] theorem resetMove_intStatus (s : State) : (resetMove s).intStatus = State.reset.intStatus := rfl
@[simp] theorem resetMove_cfg (s : State) : (resetMove s).cfg = State.reset.cfg := rfl
@[simp] theorem resetMove_keycfg (s : State) : (resetMove s).keycfg = State.reset.keycfg := rfl
@[simp] theorem resetMove_arg (s : State) : (resetMove s).arg = State.reset.arg := rfl
@[simp] theorem resetMove_res0 (s : State) : (resetMove s).res0 = State.reset.res0 := rfl
@[simp] theorem resetMove_res1 (s : State) : (resetMove s).res1 = State.reset.res1 := rfl
@[simp] theorem resetMove_adrs (s : State) : (resetMove s).adrs = State.reset.adrs := rfl
@[simp] theorem resetMove_cmdCount (s : State) : (resetMove s).cmdCount = State.reset.cmdCount := rfl
@[simp] theorem resetMove_ks (s : State) : (resetMove s).ks = State.reset.ks := rfl
@[simp] theorem resetMove_sp (s : State) : (resetMove s).sp = State.reset.sp := rfl
@[simp] theorem resetMove_buf (s : State) : (resetMove s).buf = State.reset.buf := rfl
@[simp] theorem resetMove_key (s : State) : (resetMove s).key = State.reset.key := rfl
@[simp] theorem resetMove_bds (s : State) : (resetMove s).bds = State.reset.bds := rfl
@[simp] theorem resetMove_bdsSync (s : State) : (resetMove s).bdsSync = State.reset.bdsSync := rfl
@[simp] theorem resetMove_pending (s : State) : (resetMove s).pending = State.reset.pending := rfl
@[simp] theorem resetMove_readData (s : State) : (resetMove s).readData = State.reset.readData := rfl
@[simp] theorem resetMove_sched (s : State) : (resetMove s).sched = s.sched := rfl

end Sys2Proof.Machine
end

