-- ==== Sys2Proof/Laws/Ops.lean ====
section
/-! SUPPORT. What each shared operation of the commands can do, said once: checks, operand reads, and the commit step
(spec/40_control.md R173 to R177). -/

namespace Sys2Proof.Machine

/-! ### Results -/

@[simp] theorem result_pure {α : Type} (a : α) : (pure a : Result α) = .ok a := rfl

@[simp] theorem result_bind_ok {α β : Type} (a : α) (f : α → Result β) : ((.ok a : Result α) >>= f) = f a := rfl

@[simp] theorem result_bind_error {α β : Type} (e : Stop) (f : α → Result β) :
    ((.error e : Result α) >>= f) = .error e := rfl

/-- A sequence gives a value exactly when both of its parts do. -/
theorem result_bind_eq_ok {α β : Type} {x : Result α} {f : α → Result β} {b : β} :
    (x >>= f) = .ok b ↔ ∃ a, x = .ok a ∧ f a = .ok b := by
  cases x <;> simp

/-- A sequence ends early where its first part does, or where its second does. -/
theorem result_bind_eq_error {α β : Type} {x : Result α} {f : α → Result β} {e : Stop} :
    (x >>= f) = .error e ↔ x = .error e ∨ ∃ a, x = .ok a ∧ f a = .error e := by
  cases x <;> simp

@[simp] theorem check_eq_ok {c : Prop} [Decidable c] {e : CmdError} {u : Unit} : check c e = .ok u ↔ c := by
  unfold check
  split <;> simp_all

theorem check_of {c : Prop} [Decidable c] (e : CmdError) (h : c) : check c e = .ok () := by simp [h]

theorem check_of_not {c : Prop} [Decidable c] (e : CmdError) (h : ¬c) : check c e = .error (.raise e) := by
  simp [check, h]

theorem check_eq_error {c : Prop} [Decidable c] {e : CmdError} {x : Stop} :
    check c e = .error x ↔ ¬c ∧ x = .raise e := by
  unfold check
  split <;> simp_all [eq_comm]

@[simp] theorem raise_ne_ok {α : Type} {e : CmdError} {a : α} : (raise e : Result α) ≠ .ok a := by simp [raise]

/-! ### The commit step -/

@[simp] theorem finish_ok (s shadow : State) : finish s (.ok shadow) = .next shadow.succeed := rfl

@[simp] theorem finish_raise (s : State) (e : CmdError) : finish s (.error (.raise e)) = .next (s.failWith e) := rfl

@[simp] theorem finish_fault (s : State) (f : Fault) : finish s (.error (.fault f)) = .fault f := rfl

/-- Everything a commit step that answers a next state can have done (R173, R174). -/
theorem finish_eq_next {s t : State} {r : Result State} :
    finish s r = .next t ↔
      (∃ shadow, r = .ok shadow ∧ t = shadow.succeed) ∨ ∃ e, r = .error (.raise e) ∧ t = s.failWith e := by
  cases r with
  | ok shadow => simp [eq_comm]
  | error e => cases e <;> simp [eq_comm]

theorem finish_eq_fault {s : State} {r : Result State} {f : Fault} :
    finish s r = .fault f ↔ r = .error (.fault f) := by
  cases r with
  | ok shadow => simp
  | error e => cases e <;> simp

theorem finish_ne_refused (s : State) (r : Result State) (x : Refusal) : finish s r ≠ .refused x := by
  cases r with
  | ok shadow => simp
  | error e => cases e <;> simp

/-! ### Operands -/

theorem latch_of_pending {s : State} {p : Pending} (h : s.pending = some p) : s.latch = p := by
  simp [State.latch, h]

@[simp] theorem issue_latch (s : State) (c : Word) : (s.issue c).latch = s.sample c := rfl

end Sys2Proof.Machine
end

