-- ==== Sys2Proof/Laws/Operands.lean ====
section
/-! SUPPORT. What the shared operand checks and reads of the commands can do, said once (spec/20_memory.md R104, R105,
spec/60_exceptions.md R455). -/

namespace Sys2Proof.Machine

@[simp] theorem rangeArg_eq_ok {s : State} {i : Fin 8} {L : Nat} {u : Unit} :
    rangeArg s i L = .ok u ↔ argN s i + L ≤ s.build.buf.bytes := check_eq_ok

theorem rangeArg_eq_error {s : State} {i : Fin 8} {L : Nat} {x : Stop} :
    rangeArg s i L = .error x ↔ ¬argN s i + L ≤ s.build.buf.bytes ∧ x = .raise (.bufferRange i) := check_eq_error

theorem readArg_length {s : State} {i : Fin 8} {L : Nat} {bs : Bytes} (h : readArg s i L = .ok bs) : bs.length = L :=
  Memory.readBytes_length h

theorem readArg_error {s : State} {i : Fin 8} {L : Nat} {e : Stop} (h : readArg s i L = .error e) :
    ∃ a, argN s i ≤ a ∧ a < argN s i + L ∧ s.buf.read a = none ∧ e = .fault (.unwrittenRead a) :=
  Memory.readBytes_error h

@[simp] theorem needKey_eq_ok {s : State} {u : Unit} : needKey s = .ok u ↔ s.key.valid = true := check_eq_ok

@[simp] theorem needFast_eq_ok {s : State} {u : Unit} : needFast s = .ok u ↔ s.key.strategy = .fast := check_eq_ok

@[simp] theorem needSync_eq_ok {s : State} {u : Unit} :
    needSync s = .ok u ↔ s.key.strategy = .basic ∨ s.bdsSync = true := check_eq_ok

/-- The CFG checks pass exactly for the five supported pairs, and say which one it is. -/
theorem cfgSuite_eq_ok {s : State} {su : Suite} :
    cfgSuite s = .ok su ↔
      (cfgHashFn s = 0 ∧ cfgN s = .n32 ∧ su = .sha2) ∨ (cfgHashFn s = 1 ∧ su = .shake128 (cfgN s)) ∨
        (cfgHashFn s = 2 ∧ su = .shake256 (cfgN s)) := by
  unfold cfgSuite hashFnOf HashFn.ofCode
  by_cases h0 : cfgHashFn s = 0
  · cases hn : cfgN s <;> simp [h0, suiteOf, raise, eq_comm]
  · by_cases h1 : cfgHashFn s = 1
    · simp [h1, suiteOf, eq_comm]
    · by_cases h2 : cfgHashFn s = 2
      · simp [h2, suiteOf, eq_comm]
      · rw [if_neg h0, if_neg h1, if_neg h2]
        constructor
        · intro h
          cases h
        · rintro (⟨h, -⟩ | ⟨h, -⟩ | ⟨h, -⟩)
          · exact absurd h h0
          · exact absurd h h1
          · exact absurd h h2

/-- The byte count n of a command is the one CFG gives. -/
theorem cfgSuite_n {s : State} {su : Suite} (h : cfgSuite s = .ok su) : su.n = (cfgN s).bytes := by
  rcases cfgSuite_eq_ok.1 h with ⟨_, hn, rfl⟩ | ⟨_, rfl⟩ | ⟨_, rfl⟩
  · rw [hn]
    rfl
  · rfl
  · rfl

end Sys2Proof.Machine
end

