-- ==== Sys2Proof/Laws/PerInstr.lean ====
section
/-! SUPPORT. Facts stated per instruction: each family has a Statement and one lemma per constructor of Instr. -/

namespace Sys2Proof.Laws.EncodingLegal

/-- The word of a command has legal fields (spec/30_encoding.md R141), and the fields of that word are the command's. -/
def Statement (i : Instr) : Prop := i.fields.legal = true ∧ fieldsOf (encode i) = i.fields

theorem nop : Statement .nop := ⟨by decide, by decide⟩
theorem keyClear : Statement .keyClear := ⟨by decide, by decide⟩
theorem keccakF : Statement .keccakF := ⟨by decide, by decide⟩
theorem spongeInit (sel : RateSel) : Statement (.spongeInit sel) := by cases sel <;> exact ⟨by decide, by decide⟩
theorem spongeAbsorb : Statement .spongeAbsorb := ⟨by decide, by decide⟩
theorem spongeSqueeze : Statement .spongeSqueeze := ⟨by decide, by decide⟩
theorem shake128 : Statement .shake128 := ⟨by decide, by decide⟩
theorem shake256 : Statement .shake256 := ⟨by decide, by decide⟩
theorem sha256 : Statement .sha256 := ⟨by decide, by decide⟩
theorem coreHash : Statement .coreHash := ⟨by decide, by decide⟩
theorem prf : Statement .prf := ⟨by decide, by decide⟩
theorem hashF : Statement .hashF := ⟨by decide, by decide⟩
theorem hashH : Statement .hashH := ⟨by decide, by decide⟩
theorem hMsg : Statement .hMsg := ⟨by decide, by decide⟩
theorem wotsExpandSeed : Statement .wotsExpandSeed := ⟨by decide, by decide⟩
theorem wotsGenChain : Statement .wotsGenChain := ⟨by decide, by decide⟩
theorem wotsBaseW : Statement .wotsBaseW := ⟨by decide, by decide⟩
theorem wotsDigits : Statement .wotsDigits := ⟨by decide, by decide⟩
theorem wotsPkgen : Statement .wotsPkgen := ⟨by decide, by decide⟩
theorem wotsSign : Statement .wotsSign := ⟨by decide, by decide⟩
theorem wotsPkFromSig : Statement .wotsPkFromSig := ⟨by decide, by decide⟩
theorem otsSeed : Statement .otsSeed := ⟨by decide, by decide⟩
theorem lTree : Statement .lTree := ⟨by decide, by decide⟩
theorem genLeaf : Statement .genLeaf := ⟨by decide, by decide⟩
theorem treehash : Statement .treehash := ⟨by decide, by decide⟩
theorem authpath : Statement .authpath := ⟨by decide, by decide⟩
theorem rootFromAuth : Statement .rootFromAuth := ⟨by decide, by decide⟩
theorem bdsSetup : Statement .bdsSetup := ⟨by decide, by decide⟩
theorem bdsRound : Statement .bdsRound := ⟨by decide, by decide⟩
theorem treehashUpdate : Statement .treehashUpdate := ⟨by decide, by decide⟩
theorem bdsTreehashUpdate : Statement .bdsTreehashUpdate := ⟨by decide, by decide⟩
theorem bdsExport : Statement .bdsExport := ⟨by decide, by decide⟩
theorem keygen : Statement .keygen := ⟨by decide, by decide⟩
theorem keygenXseed : Statement .keygenXseed := ⟨by decide, by decide⟩
theorem getPk : Statement .getPk := ⟨by decide, by decide⟩
theorem getSk : Statement .getSk := ⟨by decide, by decide⟩
theorem getXseed : Statement .getXseed := ⟨by decide, by decide⟩
theorem setIndex : Statement .setIndex := ⟨by decide, by decide⟩
theorem sign : Statement .sign := ⟨by decide, by decide⟩
theorem verify : Statement .verify := ⟨by decide, by decide⟩
theorem sigSize : Statement .sigSize := ⟨by decide, by decide⟩
theorem heightFromSigSize : Statement .heightFromSigSize := ⟨by decide, by decide⟩

end Sys2Proof.Laws.EncodingLegal
end

