-- ==== Sys2Proof/Laws/Xmss.lean ====
section
/-! SUPPORT. The key store and signatures: loading a key and issuing a command keep the invariant, and the length of a signature
(spec/46_xmss.md R400 to R410, spec/40_control.md R172). -/

namespace Sys2Proof.Machine

/-! ### Loading a key (spec/46_xmss.md R410) -/

/-- The parameters that key generation accepts (R400 items 4 to 7). -/
structure ParamsLegal (b : Build) (h k : Nat) (strat : Strategy) : Prop where
  even  : h % 2 = 0
  high  : h ≤ 30
  kLow  : 2 ≤ k
  kHigh : k < h
  kEven : (h - k) % 2 = 0
  cap   : h ≤ b.hMax
  kCap  : strat = .fast → k ≤ b.kMax
  kBits : k < 16

/-- Loading a key made of legal parameters and a 48-byte seed keeps the invariant. -/
theorem loadKey_inv {s : State} {hf : HashFn} {h k : Nat} {strat : Strategy} {S : Bytes} (inv : s.Inv)
    (legal : ParamsLegal s.build h k strat) (hS : S.length = 48) : (loadKey s hf h k strat S).Inv := by
  have hh : (BitVec.ofNat 8 h).toNat = h := by
    have := legal.high
    simp
    omega
  have hk : (BitVec.ofNat 4 k).toNat = k := by
    have := legal.kBits
    simp
    omega
  have params : ∀ key : KeyStore, key.h = BitVec.ofNat 8 h → key.k = BitVec.ofNat 4 k → key.strategy = strat → key.idx = 0 →
      KeyParamsOk s.build key := by
    intro key h1 h2 h3 h4
    obtain ⟨p1, p2, p3, p4, p5, p6, p7, p8⟩ := legal
    refine ⟨?_, ?_, ?_, ?_, ?_, ?_, ?_, ?_, ?_⟩ <;> simp only [h1, h2, h3, h4, hh, hk] <;>
      first
      | omega
      | exact p7
      | simp
  have keyOk : ∀ root : Bytes, root.length = 32 →
      KeyOk s.build
        { valid := true, hf := hf, sigType := 0, addrFmt := 0, h := BitVec.ofNat 8 h, k := BitVec.ofNat 4 k,
          strategy := strat, idx := 0, skSeed := slice (expandKeySeed S) 0 32, skPrf := slice (expandKeySeed S) 32 32,
          pubSeed := slice (expandKeySeed S) 64 32, root := root, rawSeed := S } := by
    intro root hr
    have e : ∀ off, off + 32 ≤ 96 → (slice (expandKeySeed S) off 32).length = 32 := by
      intro off ho
      exact slice_length (by simpa [expandKeySeed] using ho)
    exact ⟨rfl, rfl, e 0 (by omega), e 32 (by omega), e 64 (by omega), hr, hS, fun _ => params _ rfl rfl rfl rfl,
      fun hv => by cases hv⟩
  obtain ⟨i1, i2, i3, i4, i5, i6, i7, i8, i9⟩ := inv
  have reserved : ∀ t : State, t.intEn = s.intEn → t.intStatus = s.intStatus → t.cfg = s.cfg → t.keycfg = s.keycfg →
      t.errCode = s.errCode → ReservedClear t := by
    intro t h1 h2 h3 h4 h5
    refine ⟨?_, ?_, ?_, ?_, ?_⟩ <;> simp only [h1, h2, h3, h4, h5]
    · exact i2.intEn
    · exact i2.intStatus
    · exact i2.cfg
    · exact i2.keycfg
    · exact i2.errCode
  cases strat with
  | fast =>
    refine ⟨i1, reserved _ rfl rfl rfl rfl rfl, i3, i4, i5, keyOk _ ?_, ?_, fun _ => ⟨rfl, rfl⟩, ⟨i9.pending, i9.err, i9.noErr⟩⟩
    · exact bdsSetup_root_length _ _ (suite_n hf)
    · show BdsOk (BitVec.ofNat 8 h).toNat (BitVec.ofNat 4 k).toNat _
      rw [hh, hk]
      exact bdsSetup_ok (c := { tree := _, h := h, k := k }) (suite_n hf) (freshBds_ok h k)
  | basic =>
    refine ⟨i1, reserved _ rfl rfl rfl rfl rfl, i3, i4, i5, keyOk _ (by simp [keyTree]), ?_, fun hv => (by cases hv),
      ⟨i9.pending, i9.err, i9.noErr⟩⟩
    show BdsOk (BitVec.ofNat 8 h).toNat (BitVec.ofNat 4 k).toNat _
    rw [hh, hk]
    exact freshBds_ok h k

/-- The issue step keeps the invariant (spec/40_control.md R172). -/
theorem issue_inv {s : State} (inv : s.Inv) (c : Word) : (s.issue c).Inv := by
  obtain ⟨i1, i2, i3, i4, i5, i6, i7, i8, -⟩ := inv
  refine ⟨i1, ⟨i2.intEn, i2.intStatus, i2.cfg, i2.keycfg, (rfl : BitVec.extractLsb 31 24 (0 : Word) = 0)⟩, i3, i4, i5, i6, i7, i8, ?_, fun h => (by cases h),
    fun _ => rfl⟩
  intro p hp
  obtain rfl : s.sample c = p := Option.some.inj hp
  exact ⟨rfl, rfl, rfl, rfl, rfl, rfl, rfl, rfl, rfl, rfl⟩

/-! ### Signatures (spec/46_xmss.md R407 to R409) -/

theorem flatten_length {l : List Bytes} {n : Nat} (h : ∀ x ∈ l, x.length = n) : l.flatten.length = l.length * n := by
  induction l with
  | nil => simp
  | cons x l ih =>
    simp only [List.flatten_cons, List.length_append, List.length_cons, h x (by simp), ih fun y hy => h y (by simp [hy])]
    rw [Nat.succ_mul, Nat.add_comm]

theorem wotsSign_flatten_length (su : Suite) (M S P : Bytes) (a : Adrs) :
    (wotsSign su M S P a).flatten.length = wotsLen su.n * su.n := by
  have h : ∀ x ∈ wotsSign su M S P a, x.length = su.n := runChains_chunk expandSeed_chunk
  rw [flatten_length h]
  simp [wotsSign]

/-- A signature over a path of 32-byte nodes has 2180 bytes and 32 for each node. -/
theorem signCore_length {key : KeyStore} {i : Nat} {M : Bytes} {auth : List Bytes} (h : NodesOk auth) :
    (signCore key i M auth).length = 2180 + 32 * auth.length := by
  have w : wotsLen 32 = 67 := by decide
  simp only [signCore, List.length_append, toByte_length, prf_length, suite_n, wotsSign_flatten_length, w,
    flatten_length (n := 32) h]
  omega

theorem authPath_nodesOk {c : TreeCtx} (hn : c.su.n = 32) (h i : Nat) : NodesOk (authPath c h i) := by
  intro x hx
  simp only [authPath, List.mem_map] at hx
  obtain ⟨j, -, rfl⟩ := hx
  simp [hn]

end Sys2Proof.Machine
end

