-- ==== Sys2Proof/Tests/Slice0.lean ====
section
/-! SUPPORT. The model's own tests: the WellFormed smoke, a word for every constructor, at most two single-step tests per
command with expected values from spec/95_test_vectors.md or worked by hand from the rule named, and for each statement with
hypotheses a witness that meets them. -/

namespace Sys2Proof.Tests

open Sys2Proof Sys2Proof.Machine

set_option Elab.async false

/-! ### WellFormed: an ill-formed term for each check (spec/30 R141) -/

theorem test_undefined_opcode_refused :
    CmdFields.opcodeDefined { rsvd := 0, flags := 0, opcode := 0x25 } = false ∧
    CmdFields.legal { rsvd := 0, flags := 0, opcode := 0x25 } = false := by decide

theorem test_nonzero_rsvd_refused :
    CmdFields.rsvdZero { rsvd := 1, flags := 0, opcode := 0x66 } = false ∧
    CmdFields.legal { rsvd := 1, flags := 0, opcode := 0x66 } = false := by decide

theorem test_disallowed_flag_refused :
    CmdFields.flagsAllowed { rsvd := 0, flags := 1, opcode := 0x66 } = false ∧
    CmdFields.flagsAllowed { rsvd := 0, flags := 2, opcode := 0x11 } = false ∧
    CmdFields.legal { rsvd := 0, flags := 2, opcode := 0x11 } = false := by decide

theorem test_legal_fields_accepted :
    CmdFields.legal { rsvd := 0, flags := 1, opcode := 0x11 } = true ∧
    CmdFields.legal { rsvd := 0, flags := 0, opcode := 0x69 } = true := by decide

/-! ### Decoding: the words of spec/30 R140 and R146, written out -/

theorem test_decode_control : decode 0x00000000 = .ok .nop ∧ decode 0x00000001 = .ok .keyClear := by decide

theorem test_decode_hash_core :
    decode 0x00000010 = .ok .keccakF ∧ decode 0x00000011 = .ok (.spongeInit .rate168) ∧
    decode 0x00000111 = .ok (.spongeInit .rate136) ∧ decode 0x00000012 = .ok .spongeAbsorb ∧
    decode 0x00000013 = .ok .spongeSqueeze ∧ decode 0x00000014 = .ok .shake128 ∧ decode 0x00000015 = .ok .shake256 ∧
    decode 0x00000016 = .ok .sha256 := by decide

theorem test_decode_derived_hash :
    decode 0x00000020 = .ok .coreHash ∧ decode 0x00000021 = .ok .prf ∧ decode 0x00000022 = .ok .hashF ∧
    decode 0x00000023 = .ok .hashH ∧ decode 0x00000024 = .ok .hMsg := by decide

theorem test_decode_wots :
    decode 0x00000030 = .ok .wotsExpandSeed ∧ decode 0x00000031 = .ok .wotsGenChain ∧
    decode 0x00000032 = .ok .wotsBaseW ∧ decode 0x00000033 = .ok .wotsDigits ∧ decode 0x00000034 = .ok .wotsPkgen ∧
    decode 0x00000035 = .ok .wotsSign ∧ decode 0x00000036 = .ok .wotsPkFromSig ∧ decode 0x00000037 = .ok .otsSeed := by
  decide

theorem test_decode_tree :
    decode 0x00000040 = .ok .lTree ∧ decode 0x00000041 = .ok .genLeaf ∧ decode 0x00000042 = .ok .treehash ∧
    decode 0x00000043 = .ok .authpath ∧ decode 0x00000044 = .ok .rootFromAuth := by decide

theorem test_decode_bds :
    decode 0x00000050 = .ok .bdsSetup ∧ decode 0x00000051 = .ok .bdsRound ∧ decode 0x00000052 = .ok .treehashUpdate ∧
    decode 0x00000053 = .ok .bdsTreehashUpdate ∧ decode 0x00000054 = .ok .bdsExport := by decide

theorem test_decode_xmss :
    decode 0x00000060 = .ok .keygen ∧ decode 0x00000061 = .ok .keygenXseed ∧ decode 0x00000062 = .ok .getPk ∧
    decode 0x00000063 = .ok .getSk ∧ decode 0x00000064 = .ok .getXseed ∧ decode 0x00000065 = .ok .setIndex ∧
    decode 0x00000066 = .ok .sign ∧ decode 0x00000067 = .ok .verify ∧ decode 0x00000068 = .ok .sigSize ∧
    decode 0x00000069 = .ok .heightFromSigSize := by decide

/-- V-E1. -/
theorem test_decode_illegal :
    decode 0x00000002 = .error .opcode ∧ decode 0x000000FF = .error .opcode ∧
    decode 0x00000211 = .error .reservedBits ∧ decode 0x00000160 = .error .reservedBits ∧
    decode 0x00001000 = .error .reservedBits := by decide

/-! ### States for the tests -/

/-- The reset state with the given arguments, CFG, and BUF contents from offset 0 on. -/
def idle (args : List Nat) (cfg : Word) (bytes : Bytes) : State :=
  let a := fun i => BitVec.ofNat 32 (args.getD i 0)
  { State.reset with
    arg := ⟨#[a 0, a 1, a 2, a 3, a 4, a 5, a 6, a 7], rfl⟩
    cfg := cfg
    buf := { cells := cellsFrom 0 bytes } }

/-- The key of V-X1: SHAKE_128, h = 4, k = 2, seed 0^48. -/
def keyed (strat : Strategy) (s : State) : State := loadKey s .shake128 4 2 strat (zeros 48)

/-- A Fast key at index i with a BDS state whose two instances are as given and whose shared stack holds so slots. -/
def stepping (s : State) (i so : Nat) (I₀ I₁ : TreehashInst) : State :=
  let t := keyed .basic s
  { t with
    key := { t.key with strategy := .fast, idx := BitVec.ofNat 32 i }
    bds := { freshBds 4 2 with th := [I₀, I₁], stackOffset := so }
    bdsSync := true }

/-- An instance of level h that is completed. -/
def ready (h : Nat) : TreehashInst := { h := h, nextIdx := 0, stackUsage := 0, completed := true, node := zeros 32 }

/-- An instance of level h whose next leaf is n. -/
def waiting (h n : Nat) : TreehashInst := { h := h, nextIdx := n, stackUsage := 0, completed := false, node := zeros 32 }

/-- A value of the state one step after the command was issued from s. -/
def run {α : Type} (i : Instr) (s : State) (f : State → α) : Option α :=
  match step (s.issue (encode i)) with
  | .next t => some (f t)
  | _ => none

/-- The first n bytes of BUF from p on. -/
def bytesAt (p n : Nat) (t : State) : Option Bytes :=
  match t.buf.readBytes p n with
  | .ok bs => some bs
  | .error _ => none

/-- msg of spec/95: "This is a test X". -/
def msg : Bytes := toByte 0x54686973206973206120746573742058 16

/-! ### Control and Hash Core -/

/-- V-E1. -/
theorem test_nop : run .nop State.reset (fun t => (t.status, t.cmdCount, t.intStatus)) = some (0x2, 1, 0x1) := by
  decide +kernel

/-- V-E1. -/
theorem test_key_clear :
    run .keyClear (keyed .basic State.reset) (fun t => (t.status, t.keyIndex, t.keyInfo)) = some (0x2, 0, 0) := by
  decide +kernel

/-- V-K1. -/
theorem test_keccak_f :
    run .keccakF State.reset (fun t => (csrRead t (.ksLo 0), csrRead t (.ksHi 0), csrRead t (.ksLo 24), csrRead t (.ksHi 24))) =
      some (0x40E1DDE7, 0xF1258F79, 0x5CECA249, 0xEAF1FF7B) := by decide +kernel

/-- V-K1: one round of the zero state: only iota acts. -/
theorem test_keccak_round : keccakRound zeroLanes 1 = zeroLanes.set 0 1 := by decide +kernel

/-- V-E1. -/
theorem test_sponge_init : run (.spongeInit .rate136) State.reset (fun t => csrRead t .sponge) = some 0x00000101 := by
  decide +kernel

/-- V-E1. -/
theorem test_absorb_needs_init : run .spongeAbsorb State.reset State.errCode = some 0x00041207 := by decide +kernel

/-- R202, R216: byte 1 goes to bits 15:8 of lane 0, and POS counts. -/
theorem test_absorb :
    run .spongeAbsorb { idle [0, 2] 0 [0x12, 0x34] with sp := { phase := .absorb, rate := .rate168, pos := 0 } }
      (fun t => (lane t.ks 0, csrRead t .sponge)) = some (0x3412, 0x00020001) := by decide +kernel

/-- V-E1. -/
theorem test_squeeze_needs_init : run .spongeSqueeze State.reset State.errCode = some 0x00041307 := by decide +kernel

/-- R202, R217: byte 8 is the low byte of lane 1. -/
theorem test_squeeze :
    run .spongeSqueeze
      { idle [4, 1] 0 [] with
        ks := zeroLanes.set 1 0xABCD
        sp := { phase := .squeeze, rate := .rate168, pos := 8 } }
      (fun t => (bytesAt 4 1 t, csrRead t .sponge)) = some (some [0xCD], 0x00090002) := by decide +kernel

/-- V-S3. -/
theorem test_shake128 :
    run .shake128 (idle [0, 4] 0 []) (bytesAt 0 4) = some (some [0x7f, 0x9c, 0x2b, 0xa4]) := by decide +kernel

/-- V-S3: a length of 0 writes nothing. -/
theorem test_shake128_empty : run .shake128 (idle [0, 0] 0 []) (fun t => (t.buf, t.err)) = some ({ cells := [] }, false) := by
  decide +kernel

/-- V-S3. -/
theorem test_shake256 :
    run .shake256 (idle [0, 4] 0 []) (bytesAt 0 4) = some (some [0x46, 0xb9, 0xdd, 0x2b]) := by decide +kernel

/-- V-S1. -/
theorem test_sha256 :
    run .sha256 (idle [16, 0, 0, 16] 0 msg) (bytesAt 16 32) =
      some (some (toByte 0xa11609b2cc5f26619fcc865473246c9ac59861383a3c4edd2433230258afa03b 32)) := by decide +kernel

/-- V-E1. -/
theorem test_sha256_range : run .sha256 (idle [0, 0, 16384, 1] 0 []) State.errCode = some 0x00021606 := by decide +kernel

/-! ### Derived hashes -/

/-- V-D1. -/
theorem test_core_hash :
    run .coreHash (idle [64, 3, 0, 32, 32, 32] 0 (zeros 64)) (bytesAt 64 32) =
      some (some (toByte 0x6945a6f13aa83e598cb8d0abebb5cddbd87e576226517f9001c1d36bb320bf80 32)) := by decide +kernel

/-- V-D1. -/
theorem test_core_hash_pair : run .coreHash (idle [] 0x100 []) State.errCode = some 0x00012004 := by decide +kernel

/-- V-D1: PRF is CORE_HASH of type 3 (R252). -/
theorem test_prf :
    run .prf (idle [64, 0, 0, 0, 32] 0 (zeros 64)) (bytesAt 64 32) =
      some (some (toByte 0x6945a6f13aa83e598cb8d0abebb5cddbd87e576226517f9001c1d36bb320bf80 32)) := by decide +kernel

/-- V-D1. -/
theorem test_prf_pair : run .prf (idle [] 0x100 []) State.errCode = some 0x00012104 := by decide +kernel

/-- V-D1. -/
theorem test_hash_f :
    run .hashF
      (idle [64, 0, 0, 0, 32] 1 (toByte 0x3191da3442686282b3d5160f25cf162a517fd2131f83fbf2698a58f9c46afc5d 32 ++ zeros 32))
      (bytesAt 64 32) =
      some (some (toByte 0xc2c71318aad5287a5fe159e16f872f73fa3cc3f1a50204f48082a95bdedbd4e8 32)) := by decide +kernel

/-- R44: HASH_FN 3 maps to no variant. -/
theorem test_hash_f_code : run .hashF (idle [] 3 []) State.errCode = some 0x00012202 := by decide +kernel

/-- R263: the input of HASH_H is 2n bytes long. -/
theorem test_hash_h_range : run .hashH (idle [0, 0, 0, 0, 16321] 0 []) State.errCode = some 0x00042306 := by decide +kernel

/-- V-D1. -/
theorem test_h_msg :
    run .hMsg (idle [128, 0, 0, 96, 96, 16] 0 ((List.range 96).map (BitVec.ofNat 8) ++ msg)) (bytesAt 128 32) =
      some (some (toByte 0x8963030070834ae0f0cccfe2085db71a685f76d38cf180f72374d2488a760b16 32)) := by decide +kernel

/-- R264: the key is 3n bytes long. -/
theorem test_h_msg_length : run .hMsg (idle [0, 0, 0, 95] 0 []) State.errCode = some 0x00042401 := by decide +kernel

/-! ### WOTS+ -/

/-- R300: the output is 67 · 32 = 2144 bytes long. -/
theorem test_expand_seed_range : run .wotsExpandSeed (idle [14241] 0 []) State.errCode = some 0x00003006 := by decide +kernel

/-- V-W3: no step past rung 15. -/
theorem test_gen_chain_capped :
    run .wotsGenChain (idle [64, 15, 0, 5, 32] 1 (zeros 32 ++ toByte 7 32)) (bytesAt 64 32) = some (some (toByte 7 32)) := by
  decide +kernel

/-- V-W2. -/
theorem test_base_w : run .wotsBaseW (idle [2, 0, 0, 3, 0, 2] 0 [0x12, 0x34]) (bytesAt 2 3) = some (some [1, 2, 3]) := by
  decide +kernel

/-- R302: the digits must fit in the input. -/
theorem test_base_w_operand : run .wotsBaseW (idle [2, 0, 0, 5, 0, 2] 0 []) State.errCode = some 0x00093201 := by
  decide +kernel

/-- V-W2. -/
theorem test_digits :
    run .wotsDigits (idle [32] 0 (zeros 32)) (bytesAt 95 4) = some (some [0, 3, 12, 0]) := by decide +kernel

/-- V-W2. -/
theorem test_digits_rising :
    run .wotsDigits (idle [32] 0 ((List.range 32).map (BitVec.ofNat 8))) (bytesAt 94 5) = some (some [1, 15, 2, 12, 0]) := by
  decide +kernel

/-- R455. -/
theorem test_pkgen_pair : run .wotsPkgen (idle [] 0x100 []) State.errCode = some 0x00013404 := by decide +kernel

/-- R305: the digest is n bytes long. -/
theorem test_wots_sign_range : run .wotsSign (idle [0, 0, 0, 0, 0, 16353] 0 []) State.errCode = some 0x00053506 := by
  decide +kernel

/-- R306: the signature is len · n bytes long. -/
theorem test_pk_from_sig_range : run .wotsPkFromSig (idle [0, 0, 0, 0, 14241] 0 []) State.errCode = some 0x00043606 := by
  decide +kernel

/-- R455. -/
theorem test_ots_seed_pair : run .otsSeed (idle [] 0x100 []) State.errCode = some 0x00013704 := by decide +kernel

/-! ### Trees -/

/-- R330: the key is len · n bytes long. -/
theorem test_l_tree_range : run .lTree (idle [0, 0, 0, 0, 14241] 0 []) State.errCode = some 0x00044006 := by decide +kernel

/-- R455. -/
theorem test_gen_leaf_code : run .genLeaf (idle [] 15 []) State.errCode = some 0x00014102 := by decide +kernel

/-- V-T2. -/
theorem test_treehash_unaligned : run .treehash (idle [0, 2, 0, 2] 1 []) State.errCode = some 0x00094201 := by decide +kernel

/-- V-T2. -/
theorem test_authpath_index : run .authpath (idle [0, 16, 0, 4] 1 []) State.errCode = some 0x00054301 := by decide +kernel

/-- R334: the height is at least 1. -/
theorem test_root_from_auth_height : run .rootFromAuth (idle [] 1 []) State.errCode = some 0x00024401 := by decide +kernel

/-! ### BDS -/

/-- V-B5. -/
theorem test_bds_setup_index :
    run .bdsSetup (stepping State.reset 1 0 (ready 0) (ready 1)) State.errCode = some 0x00075007 := by decide +kernel

/-- V-B5. -/
theorem test_bds_round :
    run .bdsRound (stepping (idle [0, 3] 0 []) 0 0 (ready 0) (ready 1))
      (fun t => (t.res0, t.bdsSync, (instAt t.bds 0).nextIdx, (instAt t.bds 1).nextIdx, (instAt t.bds 1).completed)) =
      some (2, false, 7, 10, false) := by decide +kernel

/-- V-B5. -/
theorem test_bds_round_index :
    run .bdsRound (stepping (idle [0, 15] 0 []) 0 0 (ready 0) (ready 1)) State.errCode = some 0x00055101 := by decide +kernel

/-- V-B5. -/
theorem test_treehash_update :
    run .treehashUpdate (stepping (idle [0, 1] 0 []) 0 0 (waiting 0 7) (waiting 1 10))
      (fun t => (t.bds.stackOffset, t.bds.stackLevels.getD 0 9, (instAt t.bds 1).nextIdx, (instAt t.bds 1).stackUsage)) =
      some (1, 0, 11, 1) := by decide +kernel

/-- R373: a completed instance is not advanced. -/
theorem test_treehash_update_completed :
    run .treehashUpdate (stepping (idle [0, 1] 0 []) 0 0 (ready 0) (ready 1)) State.errCode = some 0x00065207 := by
  decide +kernel

/-- V-B5. -/
theorem test_bds_treehash_update :
    run .bdsTreehashUpdate (stepping (idle [0, 0, 0, 5] 0 []) 0 0 (waiting 0 7) (waiting 1 10))
      (fun t => (t.res0, t.res1, t.bds.stackOffset, (instAt t.bds 0).completed, (instAt t.bds 1).completed)) =
      some (2, 3, 0, true, true) := by decide +kernel

/-- V-B1. -/
theorem test_bds_export :
    run .bdsExport (stepping State.reset 0 0 (ready 0) (ready 1)) (fun t => (t.res0, bytesAt 0 4 t)) =
      some (473, some [4, 2, 0, 1]) := by decide +kernel

/-- R372. -/
theorem test_bds_export_basic : run .bdsExport (keyed .basic State.reset) State.errCode = some 0x00025407 := by
  decide +kernel

/-! ### XMSS -/

/-- V-X6. -/
theorem test_keygen_checks :
    run .keygen { idle [0, 48] 0 [] with keycfg := 0x00000401 } State.errCode = some 0x00036001 ∧
    run .keygen { idle [0, 48] 0 [] with keycfg := 0x02000301 } State.errCode = some 0x00026001 ∧
    run .keygen { idle [0, 48] 0 [] with keycfg := 0x02000403 } State.errCode = some 0x00016002 := by decide +kernel

/-- V-X6. -/
theorem test_keygen_seed_length :
    run .keygen { idle [0, 47] 0 [] with keycfg := 0x02000401 } State.errCode = some 0x00016001 := by decide +kernel

/-- R411: the descriptor's reserved byte. -/
theorem test_keygen_xseed_reserved :
    run .keygenXseed { idle [0, 51] 0 [1, 2, 1] with keycfg := 0x02000000 } State.errCode = some 0x00076101 := by
  decide +kernel

/-- V-X6. -/
theorem test_get_pk_no_key : run .getPk State.reset State.errCode = some 0x00016207 := by decide +kernel

/-- V-X4: the descriptor and the size. -/
theorem test_get_pk :
    run .getPk (keyed .basic State.reset) (fun t => (bytesAt 0 3 t, t.res0)) = some (some [0x01, 0x02, 0x00], 67) := by
  decide +kernel

/-- V-X4: the index leads. -/
theorem test_get_sk :
    run .getSk (stepping State.reset 5 0 (ready 0) (ready 1)) (fun t => (bytesAt 0 4 t, t.res0)) =
      some (some [0, 0, 0, 5], 132) := by decide +kernel

/-- V-X4. -/
theorem test_get_xseed :
    run .getXseed (keyed .basic State.reset) (fun t => (bytesAt 0 51 t, t.res0)) =
      some (some ([0x01, 0x02, 0x00] ++ zeros 48), 51) := by decide +kernel

/-- V-X6. -/
theorem test_set_index :
    run .setIndex (keyed .basic (idle [0, 5] 0 [])) (fun t => (t.res0, t.keyIndex)) = some (5, 5) := by decide +kernel

/-- V-X6. -/
theorem test_set_index_checks :
    run .setIndex (stepping (idle [0, 4] 0 []) 5 0 (ready 0) (ready 1)) State.errCode = some 0x00066501 ∧
    run .setIndex (stepping (idle [0, 16] 0 []) 5 0 (ready 0) (ready 1)) State.errCode = some 0x00056501 := by decide +kernel

/-- V-X6: the last index. -/
theorem test_sign_last :
    run .sign (stepping (idle [0, 0, 0, 0] 0 []) 15 0 (ready 0) (ready 1))
      (fun t => (t.res0, t.res1, t.keyIndex, t.status.getLsbD 7)) = some (2308, 15, 16, true) := by decide +kernel

/-- V-X6. -/
theorem test_sign_exhausted :
    run .sign (stepping State.reset 16 0 (ready 0) (ready 1)) State.errCode = some 0x00056601 := by decide +kernel

/-- V-X3: the length checks. -/
theorem test_verify_lengths :
    run .verify (idle [0, 2308, 0, 0, 0, 66] 0 []) State.errCode = some 0x00046701 ∧
    run .verify (idle [0, 2307, 0, 0, 0, 67] 0 [1, 2, 0]) State.errCode = some 0x00086701 := by decide +kernel

/-- V-Z1. -/
theorem test_sig_size :
    run .sigSize (idle [0, 0, 0, 4] 0 []) State.res0 = some 2308 ∧
    run .sigSize (idle [0, 0, 0, 255] 0 []) State.errCode = some 0x00026801 := by decide +kernel

/-- V-Z1. -/
theorem test_height_from_sig_size :
    run .heightFromSigSize (idle [0, 10308] 0 []) State.res0 = some 254 ∧
    run .heightFromSigSize (idle [0, 2309] 0 []) State.errCode = some 0x00086901 ∧
    run .heightFromSigSize (idle [0, 10340] 0 []) State.errCode = some 0x00086901 := by decide +kernel

/-! ### Witnesses: states and operands that meet the hypotheses of the statements -/

/-- The next state an outcome gives satisfies f. -/
def nextWith (f : State → Bool) : Host.Outcome State Fault Refusal → Bool
  | .next t => f t
  | .fault _ => false
  | .refused _ => false

theorem nextWith_spec {f : State → Bool} {o : Host.Outcome State Fault Refusal} (h : nextWith f o = true) :
    ∃ t, o = .next t ∧ f t = true := by
  cases o with
  | next t => exact ⟨t, rfl, h⟩
  | fault r => exact absurd h Bool.false_ne_true
  | refused r => exact absurd h Bool.false_ne_true

/-- The address an outcome faults at. -/
def faultAt : Host.Outcome State Fault Refusal → Option Nat
  | .fault (.unwrittenRead a) => some a
  | _ => none

theorem faultAt_spec {a : Nat} {o : Host.Outcome State Fault Refusal} (h : faultAt o = some a) :
    o = .fault (.unwrittenRead a) := by
  unfold faultAt at h
  split at h
  · cases h
    rfl
  · cases h

/-- BUF written everywhere with zeros. -/
def full (args : List Nat) (cfg : Word) : State := idle args cfg (zeros 16384)

theorem full_read {s : State} {i : Fin 8} {p : Nat} (L : Nat) (hb : s.buf = { cells := cellsFrom 0 (zeros 16384) })
    (hp : argN s i = p) (h : p + L ≤ 16384) : readArg s i L = .ok (zeros L) := by
  unfold readArg
  rw [hb, hp, Memory.readBytes_image _ (by simpa using h)]
  have : slice (zeros 16384) p L = zeros L := by
    simp only [slice, zeros, List.drop_replicate, List.take_replicate]
    congr 1
    omega
  rw [this]

theorem idle_inv (args : List Nat) {cfg : Word} {bytes : Bytes} (hc : cfg &&& ~~~cfgMask = 0) (hb : bytes.length ≤ 16384) :
    (idle args cfg bytes).Inv where
  build := (by decide : Build.default.Legal)
  reserved :=
    ⟨(by decide : (0 : Word) &&& ~~~intMask = 0), (by decide : (0 : Word) &&& ~~~intMask = 0), hc,
      (by decide : (0 : Word) &&& ~~~keycfgMask = 0), (by decide : (0 : Word).extractLsb 31 24 = 0)⟩
  sponge := (⟨by decide, by decide, by decide⟩ : SpongeOk State.reset.sp)
  bufForm := cellsFrom_rising 0 bytes
  bufRange := by
    intro c h
    have := (cellsFrom_bounds h).2
    show c.1 < 16384
    omega
  key :=
    (⟨rfl, rfl, by decide, by decide, by decide, by decide, by decide, fun h => absurd h (by decide), fun _ => rfl⟩ :
      KeyOk Build.default State.reset.key)
  bds := freshBds_ok 0 0
  sync := fun h => absurd h Bool.false_ne_true
  report :=
    ⟨fun p h => (by simp [idle, State.reset] at h), fun h => absurd h Bool.false_ne_true, fun _ => rfl⟩

theorem keyed_inv {s : State} (strat : Strategy) (h : s.Inv) (hb : s.build = Build.default) : (keyed strat s).Inv := by
  refine loadKey_inv h ⟨by decide, by decide, by decide, by decide, by decide, ?_, ?_, by decide⟩ (by simp)
  · rw [hb]
    decide
  · rw [hb]
    exact fun _ => by decide

/-- A state of each key strategy, with messages and pointers at 0, that satisfies the invariant. -/
theorem keyed_idle_inv (strat : Strategy) (args : List Nat) : (keyed strat (idle args 0 [])).Inv :=
  keyed_inv strat (idle_inv _ (by decide) (by simp)) rfl

theorem wit_CommandWordLegality :
    (∃ p, (State.reset.issue 0x00000002).pending = some p ∧ (fieldsOf p.word).opcodeDefined = false) ∧
    (∃ p, (State.reset.issue 0x00000166).pending = some p ∧ (fieldsOf p.word).opcodeDefined = true ∧
      ((fieldsOf p.word).rsvdZero && (fieldsOf p.word).flagsAllowed) = false) ∧
    (∃ p, (State.reset.issue 0x00000111).pending = some p ∧ (fieldsOf p.word).legal = true) :=
  ⟨⟨_, rfl, by decide⟩, ⟨_, rfl, by decide, by decide⟩, ⟨_, rfl, by decide⟩⟩

theorem wit_StepRunsDecodedCommand :
    (∃ p, (State.reset.issue 0x00000066).pending = some p ∧ decode p.word = .ok .sign) ∧
    State.reset.pending = none ∧ decodeTableWord 32 0x00000066 = some .sign :=
  ⟨⟨_, rfl, by decide⟩, rfl, by decide⟩

theorem wit_StepKeepsInvariant :
    ((keyed .basic (idle [] 0 [])).issue (encode .sign)).Inv ∧
      ∃ t, step ((keyed .basic (idle [] 0 [])).issue (encode .sign)) = .next t ∧ (!t.err) = true :=
  ⟨issue_inv (keyed_idle_inv .basic []) _, nextWith_spec (by decide +kernel)⟩

theorem keyed_sound (s : State) : (keyed .basic s).KeySound := by
  intro _
  have h : ∀ E : Bytes, E.length = 96 → slice E 0 32 ++ slice E 32 32 ++ slice E 64 32 = E := by
    intro E hE
    have h1 : slice E 64 32 = E.drop 64 := by
      simp only [slice]
      exact List.take_of_length_le (by simp; omega)
    have h2 : slice E 32 32 ++ slice E 64 32 = E.drop 32 := by
      rw [h1, ← List.take_append_drop 32 (E.drop 32), List.drop_drop]
      rfl
    rw [List.append_assoc, h2]
    exact List.take_append_drop 32 E
  have e : (BitVec.ofNat 8 4).toNat = 4 := by decide
  unfold keyed loadKey
  exact ⟨h (expandKeySeed (zeros 48)) (by simp [expandKeySeed]), by simp only [keyTree, e]⟩

theorem wit_StepKeepsKeySound :
    ∃ t, (keyed .basic (idle [] 0 [])).Inv ∧ (keyed .basic (idle [] 0 [])).KeySound ∧
      (keyed .basic (idle [] 0 [])).key.valid = true ∧ step (keyed .basic (idle [] 0 [])) = .next t :=
  ⟨_, keyed_idle_inv .basic [], keyed_sound _, rfl, rfl⟩

theorem keyed_lockStep (s : State) : (keyed .fast s).LockStep := by
  intro _
  have e : (BitVec.ofNat 8 4).toNat = 4 := by decide
  have e' : (BitVec.ofNat 4 2).toNat = 2 := by decide
  unfold keyed loadKey
  simp only [keyBds, keyTree, e, e']
  have e₀ : min (BitVec.toNat (0 : Word)) (2 ^ 4 - 1) = 0 := by decide
  rw [e₀]
  rfl

theorem wit_StepKeepsLockStep :
    ∃ t, (keyed .fast (idle [] 0 [])).Inv ∧ (keyed .fast (idle [] 0 [])).LockStep ∧
      (keyed .fast (idle [] 0 [])).bdsSync = true ∧ step (keyed .fast (idle [] 0 [])) = .next t :=
  ⟨_, keyed_idle_inv .fast [], keyed_lockStep _, rfl, rfl⟩

theorem wit_CommandsFaultOnlyOnUnwrittenInputs :
    exec .shake128 (idle [0, 1, 16383, 1] 0 []) = .fault (.unwrittenRead 16383) ∧
    passes (idle [0, 1, 16383, 1] 0 []) .shake128 ∧ unwrittenInput (idle [0, 1, 16383, 1] 0 []) .shake128 16383 := by
  refine ⟨faultAt_spec (by decide +kernel), by unfold passes; decide +kernel, ⟨(16383, 1), ?_, by decide, by decide⟩, rfl⟩
  show (16383, 1) ∈ [(argN (idle [0, 1, 16383, 1] 0 []) 2, argN (idle [0, 1, 16383, 1] 0 []) 3)]
  have : (argN (idle [0, 1, 16383, 1] 0 []) 2, argN (idle [0, 1, 16383, 1] 0 []) 3) = (16383, 1) := by decide +kernel
  rw [this]
  exact List.mem_cons_self ..

theorem wit_FirstFailingCheckIsReported :
    firstError (checks State.reset .sign) = some (.stateError .noKey) ∧
    firstError (checks (idle [0, 0, 0, 255] 0 []) .sigSize) = some (.invalidArgument .height) := by decide +kernel

/-- A BUF with a descriptor at offset 16317 and zeros elsewhere. -/
def withDescriptor (args : List Nat) (keycfg : Word) (d : Bytes) : State :=
  { idle args 0 (zeros 16317 ++ d ++ zeros 64) with keycfg := keycfg }

theorem descriptor_read {s : State} {i : Fin 8} {d : Bytes} (L : Nat) (hd : d.length = 3)
    (hb : s.buf = { cells := cellsFrom 0 (zeros 16317 ++ d ++ zeros 64) }) (hp : decide (argN s i = 16317) = true) (hL : L ≤ 64) :
    readArg s i (3 + L) = .ok (d ++ zeros L) := by
  unfold readArg
  rw [hb, of_decide_eq_true hp, Memory.readBytes_image _ (by simp [hd]; omega)]
  have : slice (zeros 16317 ++ d ++ zeros 64) 16317 (3 + L) = d ++ zeros L := by
    rw [slice, List.append_assoc, List.drop_left' (by simp), List.take_append, hd, List.take_of_length_le (by omega)]
    congr 1
    simp only [zeros, List.take_replicate]
    congr 1
    omega
  rw [this]

theorem wit_DescriptorChecksAreReported :
    (∃ s d e, passes s .keygenXseed ∧ readArg s 0 3 = .ok d ∧
      firstError (descChecks d ++ descFollowUp s .keygenXseed (descHeight d)) = some e) ∧
    (∃ s d e, passes s .verify ∧ readArg s 4 3 = .ok d ∧
      firstError (descChecks d ++ descFollowUp s .verify (descHeight d)) = some e) := by
  have k := descriptor_read (s := withDescriptor [16317, 51] 0x0E000000 [1, 0x0F, 0]) (i := 0) (d := [1, 0x0F, 0]) 0 rfl
    rfl (by decide +kernel) (by omega)
  have v := descriptor_read (s := withDescriptor [0, 2308, 0, 0, 16317, 67] 0 [1, 2, 1]) (i := 4) (d := [1, 2, 1]) 0 rfl
    rfl (by decide +kernel) (by omega)
  refine ⟨⟨_, _, .capacity .height, ?_, k, by decide +kernel⟩,
    ⟨_, _, .invalidArgument .descriptorReserved, ?_, v, by decide +kernel⟩⟩ <;>
  · unfold passes
    decide +kernel

theorem wit_CompletionFrame :
    (∃ t, exec .nop State.reset = .next t) ∧ Instr.usesSponge .nop = false ∧ Instr.writesKey .nop = false ∧
      Instr.writesRes0 .nop = false ∧ Instr.writesRes1 .nop = false := ⟨⟨_, rfl⟩, rfl, rfl, rfl, rfl⟩

theorem wit_BufFrame :
    (idle [16381, 0, 0, 3, 0, 2] 0 [0x12, 0x34]).Inv ∧ outLen (idle [16381, 0, 0, 3, 0, 2] 0 [0x12, 0x34]) .wotsBaseW = 3 ∧
    ∃ t, exec .wotsBaseW (idle [16381, 0, 0, 3, 0, 2] 0 [0x12, 0x34]) = .next t ∧
      (!t.err && (t.buf.read 16383 == some 3) && (t.buf.read 16380 == none)) = true :=
  ⟨idle_inv _ (by decide) (by decide), by decide +kernel, nextWith_spec (by decide +kernel)⟩

theorem wit_ErrorsCommitNothing :
    (∃ t, exec .sign State.reset = .next t ∧ State.reset.err = false ∧ t.err = true) ∧
    (∃ t, exec .nop State.reset = .next t ∧ t.err = State.reset.err ∧ State.reset.err = false) :=
  ⟨⟨_, rfl, rfl, rfl⟩, ⟨_, rfl, rfl, rfl⟩⟩

theorem wit_PrivateHashContexts : Instr.usesSponge .verify = false ∧ Instr.usesSponge .keygen = false := by decide

theorem wit_KeyIndependence : Instr.usesKey .verify = false ∧ Instr.usesKey .treehash = false := by decide

theorem wit_IndexMonotone :
    ((keyed .basic (idle [] 0 [])).Inv ∧ (keyed .basic (idle [] 0 [])).err = false ∧
      ∃ t, exec .sign (keyed .basic (idle [] 0 [])) = .next t ∧ (!t.err) = true) ∧
    ((keyed .basic (idle [0, 15] 0 [])).Inv ∧
      ∃ t, exec .setIndex (keyed .basic (idle [0, 15] 0 [])) = .next t ∧ (!t.err) = true) ∧
    ((keyed .basic (idle [0, 16] 0 [])).Inv ∧
      ∃ t, exec .setIndex (keyed .basic (idle [0, 16] 0 [])) = .next t ∧ t.err = true) :=
  ⟨⟨keyed_idle_inv .basic [], rfl, nextWith_spec (by decide +kernel)⟩,
    ⟨keyed_idle_inv .basic [0, 15], nextWith_spec (by decide +kernel)⟩,
    ⟨keyed_idle_inv .basic [0, 16], nextWith_spec (by decide +kernel)⟩⟩

theorem wit_LatencyIndependence :
    ∃ p t, (State.reset.issue (encode .nop)).pending = some p ∧
      step { State.reset.issue (encode .nop) with sched := [.sequencer] } = .next t := ⟨_, _, rfl, rfl⟩

/-- Each of the eight conditions of R103 at an offset next to one where it does not hold. -/
theorem wit_BusErrors :
    reservedOffset State.reset 0x00C ∧ reservedOffset State.reset 0x8000 ∧ ¬ reservedOffset State.reset 0x7FFF ∧
    (∃ a : Access, a = .read 0x1C4 .half ∧ a.offset < 0x200 ∧ a.size = .half) ∧
    (∃ a : Access, a = .read 0x7FFD .word ∧ ∃ n, a.size.bytes = some n ∧ a.offset % n ≠ 0 ∧ inBuf State.reset a.offset ∧
      0x4000 + State.reset.build.buf.bytes < a.offset + n) ∧
    (∃ a : Access, a = .read 0x4000 .other ∧ a.size = .other) ∧
    (∃ off v r, Access.write off .word v = .write 0x07C .word 0 ∧ regOf off.toNat = some r ∧ r.readOnly = true) ∧
    (inBuf (State.reset.issue 0) 0x4000 ∧ (State.reset.issue 0).busy = true) ∧
    (∃ r, regOf 0x040 = some r ∧ r.writableBusy = false ∧ (State.reset.issue 0).busy = true) := by
  refine ⟨⟨by decide +kernel, ?_⟩, ⟨by decide +kernel, ?_⟩, ?_, ⟨_, rfl, by decide, rfl⟩, ⟨_, rfl, 4, rfl, by decide, ?_, by decide⟩,
    ⟨_, rfl, rfl⟩, ⟨_, _, .cmdCount, rfl, by decide +kernel, rfl⟩, ⟨?_, rfl⟩, ⟨.arg 0, by decide +kernel, rfl, rfl⟩⟩
  · exact fun h => absurd h.1 (by decide)
  · exact fun h => absurd h.2 (by decide)
  · exact fun h => h.2 ⟨by decide, by decide⟩
  · exact ⟨by decide, by decide⟩
  · exact ⟨by decide, by decide⟩

theorem wit_RegisterReads : ∃ off, off ∈ (List.range 50).map (fun i => 0x100 + 4 * i) ∧ off = 0x1C4 :=
  ⟨_, by decide, rfl⟩

theorem wit_RegisterWrites : State.reset.pending = none := rfl

theorem wit_BusyWrites :
    (State.reset.issue 0).pending.isSome = true ∧ 16383 < (State.reset.issue 0).build.buf.bytes ∧
    0x1C4 ∈ (List.range 50).map (fun i => 0x100 + 4 * i) := ⟨rfl, by decide, by decide⟩

theorem wit_CmdWriteIssues :
    State.reset.pending = none ∧ ∃ t, hostAccess State.reset (.write 0x010 .word 0x66) = .next t := ⟨rfl, _, rfl⟩

theorem wit_BufHostAccess :
    State.reset.pending = none ∧ AccessSize.bytes .word = some 4 ∧ 16380 % 4 = 0 ∧
    16380 + 4 ≤ State.reset.build.buf.bytes ∧
    (∀ i, i < 4 → (full [] 0).buf.read (16380 + i) = (zeros 4)[i]?) ∧ State.reset.buf.read 16383 = none := by
  refine ⟨rfl, rfl, by decide, by decide, fun i hi => ?_, rfl⟩
  have h := lookup_cellsFrom_in (p := 0) (a := 16380 + i) (v := zeros 16384) (by omega) (by simp; omega)
  refine h.trans ?_
  simp only [zeros, List.getElem?_replicate]
  rw [if_pos (by omega), if_pos hi]

theorem full_buf (args : List Nat) (cfg : Word) : (full args cfg).buf = { cells := cellsFrom 0 (zeros 16384) } := rfl

/-- A part of a full BUF that ends at its last byte. -/
theorem full_at {args : List Nat} {cfg : Word} {i : Fin 8} (p L : Nat) (hp : decide (argN (full args cfg) i = p) = true)
    (h : p + L ≤ 16384) : readArg (full args cfg) i L = .ok (zeros L) :=
  full_read L (full_buf args cfg) (of_decide_eq_true hp) h

theorem passesOf {s : State} {i : Instr} (h : decide (firstError (checks s i) = none) = true) : passes s i := by
  unfold passes
  exact of_decide_eq_true h

theorem wit_HashCoreResults :
    (∃ s M, passes s .spongeAbsorb ∧ readArg s 0 (argN s 1) = .ok M) ∧
    passes { State.reset with sp := { phase := .squeeze, rate := .rate136, pos := 136 } } .spongeSqueeze ∧
    passes { State.reset with sp := { phase := .absorb, rate := .rate168, pos := 167 } } .spongeSqueeze ∧
    (∃ s M, readArg s 2 (argN s 3) = .ok M ∧ passes s .shake128 ∧ passes s .shake256 ∧ passes s .sha256) := by
  refine ⟨⟨{ full [0, 0] 0 with sp := { phase := .absorb, rate := .rate168, pos := 0 } }, [], ?_, rfl⟩, ?_, ?_,
    ⟨full [16352, 32, 16383, 1] 0, zeros 1, ?_, ?_, ?_, ?_⟩⟩
  · exact passesOf (by decide +kernel)
  · exact passesOf (by decide +kernel)
  · exact passesOf (by decide +kernel)
  · exact full_at 16383 1 (by decide +kernel) (by decide)
  · exact passesOf (by decide +kernel)
  · exact passesOf (by decide +kernel)
  · exact passesOf (by decide +kernel)

theorem argN_of {s : State} {i : Fin 8} {n : Nat} (h : decide (argN s i = n) = true) : argN s i = n := of_decide_eq_true h

/-- The operands of the derived-hash commands, each ending at the last byte of BUF. -/
def derivedArgs : State := full [16352, 0xFFFFFFFF, 16288, 96, 16320, 64] 1

/-- CFG of a state, split as R44 says. -/
def cfgFields (cfg : Word) : Nat × Bool := ((idle [] cfg []).latch.cfg.toNat % 16, (idle [] cfg []).latch.cfg.getLsbD 8)

theorem wit_DerivedHashResults_pairs :
    cfgFields 0x000 = (0, false) ∧ cfgFields 0x100 = (0, true) ∧ cfgFields 0x001 = (1, false) ∧ cfgFields 0x101 = (1, true) ∧
    cfgFields 0x002 = (2, false) ∧ cfgFields 0x102 = (2, true) ∧ cfgFields 0x003 = (3, false) ∧ cfgFields 0x10F = (15, true) := by
  decide +kernel

theorem wit_DerivedHashResults :
    cfgSuite derivedArgs = .ok (.shake128 .n32) ∧
    (passes derivedArgs .coreHash ∧ readArg derivedArgs 2 (argN derivedArgs 3) = .ok (zeros 96) ∧
      readArg derivedArgs 4 (argN derivedArgs 5) = .ok (zeros 64)) ∧
    (passes derivedArgs .prf ∧ readArg derivedArgs 2 32 = .ok (zeros 32) ∧ readArg derivedArgs 4 32 = .ok (zeros 32)) ∧
    passes derivedArgs .hashF ∧
    (passes derivedArgs .hashH ∧ readArg derivedArgs 4 64 = .ok (zeros 64)) ∧
    (passes derivedArgs .hMsg ∧ readArg derivedArgs 2 96 = .ok (zeros 96)) := by
  refine ⟨rfl, ⟨passesOf (by decide +kernel), ?_, ?_⟩, ⟨passesOf (by decide +kernel), ?_, ?_⟩, passesOf (by decide +kernel),
    ⟨passesOf (by decide +kernel), ?_⟩, ⟨passesOf (by decide +kernel), ?_⟩⟩
  · rw [argN_of (s := derivedArgs) (i := 3) (n := 96) (by decide +kernel)]
    exact full_at 16288 96 (by decide +kernel) (by decide)
  · rw [argN_of (s := derivedArgs) (i := 5) (n := 64) (by decide +kernel)]
    exact full_at 16320 64 (by decide +kernel) (by decide)
  · exact full_at 16288 32 (by decide +kernel) (by decide)
  · exact full_at 16320 32 (by decide +kernel) (by decide)
  · exact full_at 16320 64 (by decide +kernel) (by decide)
  · exact full_at 16288 96 (by decide +kernel) (by decide)

theorem wit_BaseWDigits : (4 : Nat) ≤ 2 * ([0x12, 0x34] : Bytes).length ∧ (3 : Nat) < 4 := by decide

theorem wit_ChecksumDigits : (zeros 32).length = 32 ∧ (zeros 64).length = 64 := by simp

theorem wit_ChainRungs : (14 : Nat) < 15 ∧ 15 ≤ (15 : Nat) := by decide

/-- The operands of the WOTS+ commands, each ending at the last byte of BUF. -/
def wotsArgs : State := full [14240, 14, 16352, 64, 16352, 32] 1

/-- As wotsArgs, with a whole signature or key as the input. -/
def wotsKeyArgs : State := full [14240, 0, 16352, 0, 14240, 16352] 2

theorem wit_WotsPartResults :
    cfgSuite wotsArgs = .ok (.shake128 .n32) ∧ readArg wotsArgs 4 32 = .ok (zeros 32) ∧
    passes wotsArgs .wotsExpandSeed ∧ (passes wotsArgs .wotsGenChain ∧ readArg wotsArgs 2 32 = .ok (zeros 32)) ∧
    passes { wotsArgs with arg := wotsArgs.arg.set 0 16352 } .otsSeed ∧
    (passes wotsArgs .wotsBaseW ∧ readArg wotsArgs 4 (argN wotsArgs 5) = .ok (zeros 32)) ∧
    (passes wotsArgs .wotsDigits ∧
      readArg wotsArgs 4 (if wotsArgs.latch.cfg.getLsbD 8 then 64 else 32) = .ok (zeros 32)) := by
  have r : readArg wotsArgs 4 32 = .ok (zeros 32) := full_at 16352 32 (by decide +kernel) (by decide)
  refine ⟨rfl, r, passesOf (by decide +kernel), ⟨passesOf (by decide +kernel), ?_⟩, passesOf (by decide +kernel),
    ⟨passesOf (by decide +kernel), ?_⟩, ⟨passesOf (by decide +kernel), r⟩⟩
  · exact full_at 16352 32 (by decide +kernel) (by decide)
  · rw [argN_of (s := wotsArgs) (i := 5) (n := 32) (by decide +kernel)]
    exact r

theorem wit_WotsKeyResults :
    (cfgSuite wotsArgs = .ok (.shake128 .n32) ∧ readArg wotsArgs 2 32 = .ok (zeros 32) ∧ passes wotsArgs .wotsPkgen ∧
      readArg wotsArgs 4 32 = .ok (zeros 32)) ∧
    (passes wotsArgs .wotsSign ∧ readArg wotsArgs 5 32 = .ok (zeros 32)) ∧
    (cfgSuite wotsKeyArgs = .ok (.shake256 .n32) ∧ readArg wotsKeyArgs 2 32 = .ok (zeros 32) ∧
      passes wotsKeyArgs .wotsPkFromSig ∧ readArg wotsKeyArgs 4 2144 = .ok (zeros 2144) ∧
      readArg wotsKeyArgs 5 32 = .ok (zeros 32)) := by
  refine ⟨⟨rfl, ?_, passesOf (by decide +kernel), ?_⟩, ⟨passesOf (by decide +kernel), ?_⟩, ⟨rfl, ?_,
    passesOf (by decide +kernel), ?_, ?_⟩⟩
  · exact full_at 16352 32 (by decide +kernel) (by decide)
  · exact full_at 16352 32 (by decide +kernel) (by decide)
  · exact full_at 32 32 (by decide +kernel) (by decide)
  · exact full_at 16352 32 (by decide +kernel) (by decide)
  · exact full_at 14240 2144 (by decide +kernel) (by decide)
  · exact full_at 16352 32 (by decide +kernel) (by decide)

theorem wit_LTreeHalves : ([zeros 32] : List Bytes) ≠ [] ∧ List.replicate 67 (zeros 32) ≠ [] := ⟨by simp, by simp⟩

theorem wit_LeafResults :
    (cfgSuite wotsKeyArgs = .ok (.shake256 .n32) ∧ readArg wotsKeyArgs 2 32 = .ok (zeros 32) ∧
      passes wotsKeyArgs .lTree ∧ readArg wotsKeyArgs 4 2144 = .ok (zeros 2144)) ∧
    (passes wotsKeyArgs .genLeaf ∧ readArg wotsKeyArgs 4 32 = .ok (zeros 32)) := by
  refine ⟨⟨rfl, ?_, passesOf (by decide +kernel), ?_⟩, passesOf (by decide +kernel), ?_⟩
  · exact full_at 16352 32 (by decide +kernel) (by decide)
  · exact full_at 14240 2144 (by decide +kernel) (by decide)
  · exact full_at 14240 32 (by decide +kernel) (by decide)

theorem wit_TreehashBuildsNode : 0xFFF00000 % 2 ^ 20 = 0 := by decide

theorem wit_AuthPathLeadsToRoot : (15 : Nat) < 2 ^ 4 ∧ (0 : Nat) < 2 ^ 0 := by decide

/-- The last aligned subtree of height 20. -/
def treehashArgs : State := full [16352, 0xFFF00000, 16352, 20, 16352] 0

/-- The last index of a tree of height 20. -/
def authpathArgs : State := full [15712, 0xFFFFF, 16352, 20, 16352] 0

/-- The last index of a tree of height 32. -/
def rootArgs : State := full [16352, 0xFFFFFFFF, 16352, 32, 16352, 15360] 0

theorem wit_TreeResults :
    (cfgSuite treehashArgs = .ok .sha2 ∧ passes treehashArgs .treehash ∧ readArg treehashArgs 2 32 = .ok (zeros 32) ∧
      readArg treehashArgs 4 32 = .ok (zeros 32)) ∧
    (cfgSuite authpathArgs = .ok .sha2 ∧ passes authpathArgs .authpath ∧ readArg authpathArgs 2 32 = .ok (zeros 32) ∧
      readArg authpathArgs 4 32 = .ok (zeros 32)) ∧
    (cfgSuite rootArgs = .ok .sha2 ∧ passes rootArgs .rootFromAuth ∧ readArg rootArgs 2 32 = .ok (zeros 32) ∧
      readArg rootArgs 4 32 = .ok (zeros 32) ∧ readArg rootArgs 5 (argN rootArgs 3 * 32) = .ok (zeros 1024)) := by
  refine ⟨⟨rfl, passesOf (by decide +kernel), ?_, ?_⟩, ⟨rfl, passesOf (by decide +kernel), ?_, ?_⟩,
    rfl, passesOf (by decide +kernel), ?_, ?_, ?_⟩
  · exact full_at 16352 32 (by decide +kernel) (by decide)
  · exact full_at 16352 32 (by decide +kernel) (by decide)
  · exact full_at 16352 32 (by decide +kernel) (by decide)
  · exact full_at 16352 32 (by decide +kernel) (by decide)
  · exact full_at 16352 32 (by decide +kernel) (by decide)
  · exact full_at 16352 32 (by decide +kernel) (by decide)
  · rw [argN_of (s := rootArgs) (i := 3) (n := 32) (by decide +kernel)]
    exact full_at 15360 1024 (by decide +kernel) (by decide)

/-- The parameters (4, 2) over some tree. -/
def ctx42 : BdsCtx := { tree := keyTree State.reset.key, h := 4, k := 2 }

theorem wit_SetupSnapshots :
    2 ≤ ctx42.k ∧ ctx42.k < ctx42.h ∧ (freshBds 4 2).auth.length = ctx42.h ∧
    (freshBds 4 2).th.length = ctx42.h - ctx42.k ∧ (freshBds 4 2).retain.length = 2 ^ ctx42.k - ctx42.k - 1 ∧
    3 < ctx42.h ∧ 1 < ctx42.h - ctx42.k ∧
    (ctx42.h - ctx42.k ≤ 2 ∧ 2 ≤ ctx42.h - 2 ∧ 3 % 2 = 1 ∧ 3 ≤ 3 ∧ 3 < 2 ^ (ctx42.h - 2)) := by decide +kernel

theorem wit_LockStepPathAtHeightFour : (15 : Nat) ≤ 15 ∧ (0 : Nat) ≤ 15 := by decide

/-- A Fast key whose two instances wait for their leaves 7 and 10, as after BDS_ROUND(3). -/
def traversing (args : List Nat) : State := stepping (idle args 0 []) 0 0 (waiting 0 7) (waiting 1 10)

theorem wit_BestInstanceRule :
    bestInst (keyBds (traversing []).key) (traversing []).bds = some 0 ∧
    bestInst (keyBds (traversing []).key) { (traversing []).bds with th := [ready 0, ready 1] } = none ∧
    (instAt { (traversing []).bds with th := [ready 0, ready 1] } 1).completed = true ∧
    ((instAt (traversing []).bds 1).completed = false ∧ (instAt (traversing []).bds 1).stackUsage = 0) ∧
    0 < (instAt { (traversing []).bds with th := [ready 0, { waiting 1 11 with stackUsage := 1 }] } 1).stackUsage := by
  decide +kernel

/-- The name of the error that ends a procedure. -/
def errorOf {α : Type} : Result α → Option CmdError
  | .error (.raise e) => some e
  | _ => none

theorem errorOf_spec {α : Type} {r : Result α} {e : CmdError} (h : errorOf r = some e) : r = .error (.raise e) := by
  unfold errorOf at h
  split at h
  · cases h
    rfl
  · cases h

/-- A procedure gives a value. -/
def gives {α : Type} : Result α → Bool
  | .ok _ => true
  | .error _ => false

theorem gives_spec {α : Type} {r : Result α} (h : gives r = true) : ∃ a, r = .ok a := by
  cases r with
  | ok a => exact ⟨a, rfl⟩
  | error e => exact absurd h Bool.false_ne_true

/-- The hypotheses of the clause on BdsRound, at the first and the last index, at one with tau = 3 (both kinds of pull) and at one
that restarts level 0 but not level 1. -/
theorem wit_BdsStepResults_round :
    (freshBds 4 2).auth.length = ctx42.h ∧ (freshBds 4 2).keep.length = ctx42.h / 2 ∧
    (freshBds 4 2).th.length = ctx42.h - ctx42.k ∧ (0 < 2 ^ ctx42.h - 1 ∧ bdsTau ctx42.h 0 = 0) ∧
    (14 < 2 ^ ctx42.h - 1 ∧ bdsTau ctx42.h 14 = 0) ∧
    (bdsTau ctx42.h 7 = 3 ∧ 1 < ctx42.h - ctx42.k ∧ ctx42.h - ctx42.k ≤ 2 ∧ 7 + 1 + 3 * 2 ^ 1 < 2 ^ ctx42.h) ∧
    (bdsTau ctx42.h 11 = 2 ∧ 11 + 1 + 3 * 2 ^ 0 < 2 ^ ctx42.h ∧ ¬11 + 1 + 3 * 2 ^ 1 < 2 ^ ctx42.h) := by
  decide +kernel

/-- The cases of the clause on ThUpdate: the last leaf, no leaf left, a node at its target, a push, a full stack, a fold. -/
theorem wit_BdsStepResults_update :
    ((waiting 0 15).nextIdx < 2 ^ ctx42.h ∧ 2 ^ ctx42.h ≤ (waiting 0 16).nextIdx) ∧
    (∀ (b : Bds) (node : Bytes) (so : Nat), ThFoldRun ctx42 b 15 node 0 0 so node 0 0 so) ∧
    ((waiting 0 15).h = 0 ∧ (waiting 1 15).h ≠ 0 ∧ (4 : Nat) ≠ ctx42.h + 1 ∧ (5 : Nat) = ctx42.h + 1) ∧
    (∀ node : Bytes, ∃ x, ThFoldRun ctx42 { freshBds 4 2 with stackOffset := 1 } 11 node 0 1 1 x 1 0 0) := by
  refine ⟨by decide +kernel, fun b node so => .stop _ _ _ _ (.inl rfl), by decide +kernel,
    fun node => ⟨_, .fold node 0 0 1 _ 1 0 0 rfl (.stop _ _ _ _ (.inl rfl))⟩⟩

theorem wit_BdsStepResults_loop :
    (let s := traversing [];
      bestInst (keyBds s.key) s.bds = some 0 ∧ (∃ b, thUpdate (keyBds s.key) s.bds 0 = .ok b) ∧
        bestInst (keyBds s.key) { s.bds with th := [ready 0, ready 1] } = none) ∧
    (let s := stepping (idle [] 0 []) 0 5 (ready 0) (waiting 1 10);
      bestInst (keyBds s.key) s.bds = some 1 ∧
        thUpdate (keyBds s.key) s.bds 1 = .error (.raise (.stateError .bdsStackFull))) ∧
    (let s := stepping (idle [] 0 []) 14 0 (ready 0) (ready 1);
      ∃ r, bdsThUpdate (keyBds s.key) 1 0 (bdsRound (keyBds s.key) s.bds 14).1 = .ok r) ∧
    (let s := stepping (idle [] 0 []) 0 0 (waiting 0 16) (ready 1);
      bdsThUpdate (keyBds s.key) 1 0 (bdsRound (keyBds s.key) s.bds 0).1 = .error (.raise (.stateError .bdsDesync))) :=
  ⟨⟨by decide +kernel, gives_spec (by decide +kernel), by decide +kernel⟩,
    ⟨by decide +kernel, errorOf_spec (by decide +kernel)⟩, gives_spec (by decide +kernel),
    errorOf_spec (by decide +kernel)⟩

theorem wit_BdsStepResults :
    passes (stepping (idle [] 0 []) 0 0 (ready 0) (ready 1)) .bdsSetup ∧
    passes (stepping (idle [0, 14] 0 []) 0 0 (ready 0) (ready 1)) .bdsRound ∧
    (let s := stepping (idle [0, 1] 0 []) 0 4 (ready 0) (waiting 1 15);
      passes s .treehashUpdate ∧ (instAt s.bds (argN s 1)).nextIdx < 2 ^ s.key.h.toNat ∧
        s.bds.stackOffset ≤ s.key.h.toNat ∧ ∃ b, thUpdate (keyBds s.key) s.bds (argN s 1) = .ok b) ∧
    (let s := stepping (idle [0, 0, 0, 4] 0 []) 0 1 (waiting 0 12) (waiting 1 12);
      passes s .bdsTreehashUpdate ∧ s.bds.stackOffset + argN s 3 ≤ s.key.h.toNat + 1 ∧
        (∀ t, t < s.key.h.toNat - s.key.k.toNat → (instAt s.bds t).nextIdx + argN s 3 ≤ 2 ^ s.key.h.toNat) ∧
        ∃ r, bdsThUpdate (keyBds s.key) (argN s 3) 0 s.bds = .ok r) ∧
    (let s := stepping (idle [0, 1] 0 []) 0 0 (ready 0) (waiting 1 16);
      passes s .treehashUpdate ∧
        thUpdate (keyBds s.key) s.bds (argN s 1) = .error (.raise (.stateError .bdsDesync))) ∧
    (let s := stepping (idle [0, 0, 0, 1] 0 []) 0 5 (ready 0) (waiting 1 10);
      passes s .bdsTreehashUpdate ∧
        bdsThUpdate (keyBds s.key) (argN s 3) 0 s.bds = .error (.raise (.stateError .bdsStackFull))) := by
  refine ⟨passesOf (by decide +kernel), passesOf (by decide +kernel),
    ⟨passesOf (by decide +kernel), by decide +kernel, by decide +kernel, gives_spec (by decide +kernel)⟩,
    ⟨passesOf (by decide +kernel), by decide +kernel, by decide +kernel, gives_spec (by decide +kernel)⟩,
    ⟨passesOf (by decide +kernel), errorOf_spec (by decide +kernel)⟩,
    ⟨passesOf (by decide +kernel), errorOf_spec (by decide +kernel)⟩⟩

theorem wit_BdsExportResult :
    (keyed .fast (idle [15911] 0 [])).Inv ∧ passes (keyed .fast (idle [15911] 0 [])) .bdsExport :=
  ⟨keyed_idle_inv .fast [15911], passesOf (by decide +kernel)⟩

theorem wit_KeygenResults_fresh : (1 : Nat) < 4 - 2 ∧ (0 : Nat) < 4 - 2 := by decide

theorem wit_KeygenResults :
    (let s := { full [16336, 48] 0 with keycfg := 0x12000401 };
      passes s .keygen ∧ readArg s 0 48 = .ok (zeros 48) ∧ HashFn.code .shake128 = keycfgHashFn s) ∧
    (let s := withDescriptor [16317, 51] 0x02000000 [1, 2, 0];
      passes s .keygenXseed ∧ readArg s 0 3 = .ok [1, 2, 0] ∧ s.buf.readBytes (argN s 0 + 3) 48 = .ok (zeros 48) ∧
        firstError (descChecks [1, 2, 0] ++ descFollowUp s .keygenXseed (descHeight [1, 2, 0])) = none ∧
        (HashFn.code .shake128).toNat = descHash [1, 2, 0]) := by
  refine ⟨⟨passesOf (by decide +kernel), ?_, by decide +kernel⟩, ⟨passesOf (by decide +kernel), ?_, ?_, by decide +kernel, by decide⟩⟩
  · exact full_read (p := 16336) 48 rfl (argN_of (by decide +kernel)) (by decide)
  · exact descriptor_read (d := [1, 2, 0]) 0 rfl rfl (by decide +kernel) (by decide)
  · show Memory.readBytes { cells := cellsFrom 0 (zeros 16317 ++ [1, 2, 0] ++ zeros 64) } (argN _ 0 + 3) 48 = _
    rw [argN_of (n := 16317) (by decide +kernel), Memory.readBytes_image _ (by simp)]
    have : slice (zeros 16317 ++ [1, 2, 0] ++ zeros 64) (16317 + 3) 48 = zeros 48 := by
      rw [slice, List.drop_left' (by simp)]
      simp [zeros]
    rw [this]

/-- An extended seed at offset 0. -/
def xseedArgs : State := { idle [0, 51] 0 ([1, 2, 0] ++ zeros 48) with keycfg := 0x02000000 }

theorem wit_ExtendedSeedRoundTrip :
    xseedArgs.err = false ∧ readArg xseedArgs 0 51 = .ok ([1, 2, 0] ++ zeros 48) ∧
    ∃ t, exec .keygenXseed xseedArgs = .next t ∧ t.err = false ∧ passes t .getXseed ∧ ∃ v, exec .getXseed t = .next v := by
  refine ⟨rfl, ?_, ?_⟩
  · have h : argN xseedArgs 0 = 0 := argN_of (by decide +kernel)
    unfold readArg
    rw [h]
    exact Memory.readBytes_image _ (by decide)
  · obtain ⟨t, ht, h⟩ := nextWith_spec (o := exec .keygenXseed xseedArgs)
      (f := fun t => !t.err && (decide (firstError (checks t .getXseed) = none) && nextWith (fun _ => true) (exec .getXseed t)))
      (by decide +kernel)
    simp only [Bool.and_eq_true, Bool.not_eq_true'] at h
    obtain ⟨v, hv, -⟩ := nextWith_spec h.2.2
    exact ⟨t, ht, h.1, passesOf h.2.1, v, hv⟩

theorem wit_DescriptorRoundTrip :
    (30 % 2 = 0 ∧ 30 ≤ 30) ∧
    (∃ (d : Bytes) (r : Descriptor), d = [2, 15, 0] ∧ d.length = 3 ∧ decodeDesc d = .ok r) ∧
    firstError (descChecks [3, 0, 0]) = some (.failedConversion .hashFunction) := by
  refine ⟨by decide, ?_, by decide +kernel⟩
  obtain ⟨r, hr⟩ := gives_spec (r := decodeDesc [2, 15, 0]) (by decide +kernel)
  exact ⟨_, r, rfl, rfl, hr⟩

theorem wit_KeyExportResults :
    ((keyed .basic (idle [16317] 0 [])).Inv ∧ passes (keyed .basic (idle [16317] 0 [])) .getPk) ∧
    ((keyed .basic (idle [16252] 0 [])).Inv ∧ passes (keyed .basic (idle [16252] 0 [])) .getSk) ∧
    ((keyed .basic (idle [16333] 0 [])).Inv ∧ passes (keyed .basic (idle [16333] 0 [])) .getXseed) :=
  ⟨⟨keyed_idle_inv .basic _, passesOf (by decide +kernel)⟩, ⟨keyed_idle_inv .basic _, passesOf (by decide +kernel)⟩,
    ⟨keyed_idle_inv .basic _, passesOf (by decide +kernel)⟩⟩

theorem wit_SetIndexResult :
    (passes (keyed .basic (idle [0, 15] 0 [])) .setIndex ∧ (keyed .basic (idle [0, 15] 0 [])).key.strategy = .basic) ∧
    (let s := stepping (idle [0, 15] 0 []) 14 0 (ready 0) (ready 1);
      passes s .setIndex ∧ s.key.strategy = .fast ∧
        ∃ b, bdsSteps (keyBds s.key) (argN s 1 - s.key.idx.toNat) s.key.idx.toNat s.bds = .ok b) ∧
    (let s := stepping (idle [0, 1] 0 []) 0 0 (waiting 0 16) (ready 1);
      passes s .setIndex ∧ s.key.strategy = .fast ∧
        bdsSteps (keyBds s.key) (argN s 1 - s.key.idx.toNat) s.key.idx.toNat s.bds =
          .error (.raise (.stateError .bdsDesync))) :=
  ⟨⟨passesOf (by decide +kernel), rfl⟩, ⟨passesOf (by decide +kernel), rfl, gives_spec (by decide +kernel)⟩,
    ⟨passesOf (by decide +kernel), rfl, errorOf_spec (by decide +kernel)⟩⟩

theorem wit_SignResult :
    (let s := keyed .basic (full [14076, 0, 16383, 1] 0);
      passes s .sign ∧ readArg s 2 (argN s 3) = .ok (zeros 1) ∧ s.key.strategy = .basic) ∧
    (let s := stepping (idle [] 0 []) 14 0 (ready 0) (ready 1);
      passes s .sign ∧ readArg s 2 (argN s 3) = .ok [] ∧ s.key.strategy = .fast ∧
        s.key.idx.toNat < 2 ^ s.key.h.toNat - 1 ∧ ∃ b, bdsStep (keyBds s.key) s.bds s.key.idx.toNat = .ok b) ∧
    (let s := stepping (idle [] 0 []) 15 0 (ready 0) (ready 1);
      passes s .sign ∧ readArg s 2 (argN s 3) = .ok [] ∧ s.key.strategy = .fast ∧
        s.key.idx.toNat = 2 ^ s.key.h.toNat - 1) ∧
    (let s := stepping (idle [] 0 []) 0 0 (waiting 0 16) (ready 1);
      passes s .sign ∧ readArg s 2 (argN s 3) = .ok [] ∧ s.key.strategy = .fast ∧
        s.key.idx.toNat < 2 ^ s.key.h.toNat - 1 ∧
        bdsStep (keyBds s.key) s.bds s.key.idx.toNat = .error (.raise (.stateError .bdsDesync))) := by
  refine ⟨⟨passesOf (by decide +kernel), ?_, rfl⟩,
    ⟨passesOf (by decide +kernel), rfl, rfl, by decide +kernel, gives_spec (by decide +kernel)⟩,
    ⟨passesOf (by decide +kernel), rfl, rfl, by decide +kernel⟩,
    ⟨passesOf (by decide +kernel), rfl, rfl, by decide +kernel, errorOf_spec (by decide +kernel)⟩⟩
  rw [argN_of (s := keyed .basic (full [14076, 0, 16383, 1] 0)) (i := 3) (n := 1) (by decide +kernel)]
  exact full_read (p := 16383) 1 rfl (argN_of (by decide +kernel)) (by decide)

theorem wit_SignatureLayout : NodesOk (List.replicate 4 (zeros 32)) ∧ (66 : Nat) < 67 ∧ (3 : Nat) < 4 :=
  ⟨NodesOk.zeros 4, by decide, by decide⟩

/-- A public key at offset 16317, a signature of zeros at 0 and a message of one byte. -/
def verifyArgs : State := withDescriptor [0, 2308, 16316, 1, 16317, 67] 0 [1, 2, 0]

theorem wit_VerifyResult :
    passes verifyArgs .verify ∧ readArg verifyArgs 4 67 = .ok ([1, 2, 0] ++ zeros 64) ∧
    readArg verifyArgs 0 (argN verifyArgs 1) = .ok (slice (zeros 16317 ++ [1, 2, 0] ++ zeros 64) 0 2308) ∧
    readArg verifyArgs 2 (argN verifyArgs 3) = .ok (slice (zeros 16317 ++ [1, 2, 0] ++ zeros 64) 16316 1) ∧
    firstError (descChecks ([1, 2, 0] ++ zeros 64) ++
      descFollowUp verifyArgs .verify (descHeight ([1, 2, 0] ++ zeros 64))) = none ∧
    (HashFn.code .shake128).toNat = descHash ([1, 2, 0] ++ zeros 64) := by
  have image : ∀ (i : Fin 8) (p L : Nat), argN verifyArgs i = p → p + L ≤ 16384 →
      readArg verifyArgs i L = .ok (slice (zeros 16317 ++ [1, 2, 0] ++ zeros 64) p L) := by
    intro i p L hp h
    unfold readArg
    rw [hp]
    exact Memory.readBytes_image _ (by simpa using h)
  refine ⟨passesOf (by decide +kernel), descriptor_read 64 rfl rfl (by decide +kernel) (by decide), ?_, ?_,
    by decide +kernel, by decide +kernel⟩
  · rw [argN_of (s := verifyArgs) (i := 1) (n := 2308) (by decide +kernel)]
    exact image 0 0 2308 (argN_of (by decide +kernel)) (by decide)
  · rw [argN_of (s := verifyArgs) (i := 3) (n := 1) (by decide +kernel)]
    exact image 2 16316 1 (argN_of (by decide +kernel)) (by decide)

theorem wit_CandidateRootSteps :
    (0xFFFFFFFF : Nat) < 2 ^ 32 ∧ (zeros 32).length = 32 ∧ (zeros 2144).length = 2144 ∧ (zeros 128).length = 32 * 4 :=
  ⟨by decide, by simp, by simp, by simp⟩

/-- The key of V-X1. -/
def keyVX1 : KeyStore := (keyed .basic State.reset).key

/-- The signature of a one-byte message at index 15 of a key of height 4. -/
def lastSig (key : KeyStore) : Bytes := signCore key 15 [0x58] (authPath (keyTree key) 4 15)

/-- Its public key. -/
def lastPk (key : KeyStore) : Bytes := [1, 2, 0] ++ key.root ++ key.pubSeed

/-- Its public key, signature and message in BUF. -/
def signedArgs (key : KeyStore) : State :=
  idle [67, 2308, 2375, 1, 0, 67] 0 (lastPk key ++ lastSig key ++ [0x58])

theorem wit_SignaturesVerify :
    (keyVX1.h.toNat ≤ 30 ∧ 15 < 2 ^ keyVX1.h.toNat ∧ keyVX1.root = treeNode (keyTree keyVX1) keyVX1.h.toNat 0) ∧
    (keyVX1.h.toNat % 2 = 0 ∧ 4 ≤ keyVX1.h.toNat ∧ passes (signedArgs keyVX1) .verify ∧
      argN (signedArgs keyVX1) 1 = 2180 + 32 * keyVX1.h.toNat ∧
      readArg (signedArgs keyVX1) 4 67 =
        .ok ([BitVec.ofNat 8 keyVX1.hf.code.toNat, BitVec.ofNat 8 (keyVX1.h.toNat / 2), 0] ++ keyVX1.root ++ keyVX1.pubSeed) ∧
      readArg (signedArgs keyVX1) 0 (argN (signedArgs keyVX1) 1) =
        .ok (signCore keyVX1 15 [0x58] (authPath (keyTree keyVX1) keyVX1.h.toNat 15)) ∧
      readArg (signedArgs keyVX1) 2 (argN (signedArgs keyVX1) 3) = .ok [0x58]) := by
  have hh : keyVX1.h.toNat = 4 := by decide +kernel
  have hd : [BitVec.ofNat 8 keyVX1.hf.code.toNat, BitVec.ofNat 8 (keyVX1.h.toNat / 2), 0] = ([1, 2, 0] : Bytes) := by
    decide +kernel
  have sound : keyVX1.root = treeNode (keyTree keyVX1) keyVX1.h.toNat 0 := (keyed_sound State.reset rfl).2
  have hsu : (keyTree keyVX1).su.n = 32 := suite_n keyVX1.hf
  have hsig : (lastSig keyVX1).length = 2308 := by
    rw [lastSig, signCore_length (authPath_nodesOk hsu 4 15), authPath_length]
  have hr : keyVX1.root.length = 32 := by simp [keyVX1, keyed, loadKey, keyTree]
  have hp : keyVX1.pubSeed.length = 32 := by
    simp only [keyVX1, keyed, loadKey]
    exact slice_length (by simp [expandKeySeed])
  have a : ∀ bytes, argN (idle [67, 2308, 2375, 1, 0, 67] 0 bytes) 0 = 67 ∧
      argN (idle [67, 2308, 2375, 1, 0, 67] 0 bytes) 1 = 2308 ∧ argN (idle [67, 2308, 2375, 1, 0, 67] 0 bytes) 2 = 2375 ∧
      argN (idle [67, 2308, 2375, 1, 0, 67] 0 bytes) 3 = 1 ∧ argN (idle [67, 2308, 2375, 1, 0, 67] 0 bytes) 4 = 0 := by
    have h : argN (idle [67, 2308, 2375, 1, 0, 67] 0 []) 0 = 67 ∧ argN (idle [67, 2308, 2375, 1, 0, 67] 0 []) 1 = 2308 ∧
        argN (idle [67, 2308, 2375, 1, 0, 67] 0 []) 2 = 2375 ∧ argN (idle [67, 2308, 2375, 1, 0, 67] 0 []) 3 = 1 ∧
        argN (idle [67, 2308, 2375, 1, 0, 67] 0 []) 4 = 0 := by decide +kernel
    exact fun _ => h
  have pass : ∀ bytes, passes (idle [67, 2308, 2375, 1, 0, 67] 0 bytes) .verify := by
    have h : passes (idle [67, 2308, 2375, 1, 0, 67] 0 []) .verify := passesOf (by decide +kernel)
    exact fun _ => h
  generalize keyVX1 = key at hh hd sound hsu hsig hr hp ⊢
  have a := a (lastPk key ++ lastSig key ++ [0x58])
  have pass := pass (lastPk key ++ lastSig key ++ [0x58])
  change argN (signedArgs key) 0 = 67 ∧ argN (signedArgs key) 1 = 2308 ∧ argN (signedArgs key) 2 = 2375 ∧
    argN (signedArgs key) 3 = 1 ∧ argN (signedArgs key) 4 = 0 at a
  have hpk : (lastPk key).length = 67 := by
    rw [lastPk, List.length_append, List.length_append, hr, hp]
    rfl
  have image : ∀ (i : Fin 8) (p L : Nat), argN (signedArgs key) i = p → p + L ≤ 2376 →
      readArg (signedArgs key) i L = .ok (slice (lastPk key ++ lastSig key ++ [0x58]) p L) := by
    intro i p L hp h
    unfold readArg
    rw [hp]
    refine Memory.readBytes_image _ ?_
    rw [List.length_append, List.length_append, hpk, hsig]
    exact h
  refine ⟨⟨by omega, by rw [hh]; decide, sound⟩, by omega, by omega, pass, by rw [hh, a.2.1], ?_, ?_, ?_⟩
  · rw [hd, image 4 0 67 a.2.2.2.2 (by decide), slice, List.drop_zero, List.append_assoc, List.take_left' hpk, lastPk]
  · rw [hh, a.2.1, image 0 67 2308 a.1 (by decide), slice, List.append_assoc, List.drop_left' hpk,
      List.take_left' hsig, lastSig]
  · rw [a.2.2.2.1, image 2 2375 1 a.2.2.1 (by decide), slice,
      List.drop_left' (by rw [List.length_append, hpk, hsig])]
    rfl

theorem wit_SizeResults :
    argN (idle [0, 0, 0, 254] 0 []) 3 = 254 ∧ argN (idle [0, 0, 0, 255] 0 []) 3 = 255 ∧
    argN (idle [0, 10308] 0 []) 1 = 2180 + 32 * 254 ∧
    (∀ h, h ≤ 254 → argN (idle [0, 2181] 0 []) 1 ≠ 2180 + 32 * h) := by
  refine ⟨argN_of (by decide +kernel), argN_of (by decide +kernel), argN_of (by decide +kernel), fun h _ => ?_⟩
  rw [argN_of (s := idle [0, 2181] 0 []) (i := 1) (n := 2181) (by decide +kernel)]
  omega

end Sys2Proof.Tests
end

section
/-! PROOFS. The big-endian encoding of integers (spec/00_scope.md R12, R13): its bytes, and its inverse. -/

namespace Sys2Proof.Machine

/-! ### The bytes of an encoding -/

/-- Byte i of a big-endian encoding, counted from the most significant byte. -/
theorem toByte_getElem? (x : Nat) {k i : Nat} (h : i < k) :
    (toByte x k)[i]? = some (BitVec.ofNat 8 (x / 256 ^ (k - 1 - i))) := by
  induction k generalizing x with
  | zero => omega
  | succ k ih =>
    by_cases hi : i < k
    · have weight : k + 1 - 1 - i = k - 1 - i + 1 := by omega
      rw [toByte, List.getElem?_append_left (by simpa using hi), ih _ hi, Nat.div_div_eq_div_mul, weight, Nat.pow_succ']
    · obtain rfl : i = k := by omega
      simp [toByte]

/-! ### Decoding -/

@[simp] theorem fromBE_append_singleton (bs : Bytes) (b : Byte) : fromBE (bs ++ [b]) = 256 * fromBE bs + b.toNat := by
  simp [fromBE]

/-- Decoding an encoding gives the integer back, up to the k bytes that were kept. -/
theorem fromBE_toByte (x k : Nat) : fromBE (toByte x k) = x % 2 ^ (8 * k) := by
  induction k generalizing x with
  | zero => simp [toByte, fromBE, Nat.mod_one]
  | succ k ih =>
    have split : 2 ^ (8 * (k + 1)) = 256 * 2 ^ (8 * k) := by rw [Nat.mul_succ, Nat.pow_add]; omega
    calc fromBE (toByte x (k + 1))
        = 256 * (x / 256 % 2 ^ (8 * k)) + x % 256 := by rw [toByte, fromBE_append_singleton, ih, BitVec.toNat_ofNat]
      _ = x % 2 ^ (8 * (k + 1)) := by rw [split, Nat.mod_mul, Nat.add_comm]

/-- Settles O27: the encoding's bytes by `toByte_getElem?`, its inverse by `fromBE_toByte`, each an induction on the number of
bytes with the least significant byte split off. -/
theorem toByteIsBigEndian : Obligations.ToByteIsBigEndian :=
  fun x k => ⟨toByte_length x k, fun _ h => toByte_getElem? x h, fromBE_toByte x k⟩

end Sys2Proof.Machine
end

section
/-! PROOFS. Treehash builds the node it is asked for (spec/44_tree.md R323, R325), and BdsSetup's local stack is Treehash's, so
the root it returns is the root of the tree (spec/45_bds.md R355). -/

namespace Sys2Proof.Machine

/-- The loop of Treehash (R323) over the m leaves from leaf s on, on a stack whose head is its top. -/
def pushLeaves (c : TreeCtx) (s m : Nat) (st : List (Bytes × Nat)) : List (Bytes × Nat) :=
  (List.range' s m).foldl (fun st idx => treehashPush c idx (genLeaf c idx) 0 st) st

theorem treehash_eq_pushLeaves (c : TreeCtx) (ht s : Nat) :
    treehash c ht s = ((pushLeaves c s (2 ^ ht) []).headD ([], 0)).1 := rfl

theorem pushLeaves_add (c : TreeCtx) (s m n : Nat) (st : List (Bytes × Nat)) :
    pushLeaves c s (m + n) st = pushLeaves c (s + m) n (pushLeaves c s m st) := by
  simp [pushLeaves, ← List.range'_append_1, List.foldl_append]

/-- A node meets no partner on a stack whose entries at the top are higher. -/
theorem treehashPush_of_lower {c : TreeCtx} {idx nh : Nat} {node : Bytes} {st : List (Bytes × Nat)}
    (higher : ∀ e ∈ st.head?, nh < e.2) : treehashPush c idx node nh st = (node, nh) :: st := by
  cases st with
  | nil => rfl
  | cons e rest =>
    have ne : e.2 ≠ nh := Nat.ne_of_gt (higher e rfl)
    simp [treehashPush, ne]

/-- A node meets its left sibling on top of the stack and their parent goes on. -/
theorem treehashPush_sibling (c : TreeCtx) (idx nh : Nat) (left node : Bytes) (st : List (Bytes × Nat)) :
    treehashPush c idx node nh ((left, nh) :: st) =
      treehashPush c idx (hashH c.su c.pub (nodeAddr c.base nh (idx >>> (nh + 1))) (left ++ node)) (nh + 1) st := by
  simp [treehashPush]

/-- The leaves below Node(j, m), pushed on a stack whose top is at height j or above, have the effect of that one node: by
induction on j, the left half leaves its node on the stack and the right half's node meets it there. -/
theorem pushLeaves_subtree (c : TreeCtx) (j m : Nat) {st : List (Bytes × Nat)} (high : ∀ e ∈ st.head?, j ≤ e.2) :
    pushLeaves c (m * 2 ^ j) (2 ^ j) st = treehashPush c (m * 2 ^ j + (2 ^ j - 1)) (treeNode c j m) j st := by
  induction j generalizing m st with
  | zero => simp [pushLeaves, treeNode]
  | succ j ih =>
    have double : 2 ^ (j + 1) = 2 ^ j + 2 ^ j := by rw [Nat.pow_succ]; omega
    have start : m * 2 ^ (j + 1) = 2 * m * 2 ^ j := by rw [Nat.pow_succ]; ring
    have middle : 2 * m * 2 ^ j + 2 ^ j = (2 * m + 1) * 2 ^ j := by ring
    have last : m * 2 ^ (j + 1) + (2 ^ (j + 1) - 1) = (2 * m + 1) * 2 ^ j + (2 ^ j - 1) := by
      have := Nat.two_pow_pos j
      omega
    have parent : ((2 * m + 1) * 2 ^ j + (2 ^ j - 1)) >>> (j + 1) = m := by
      have := Nat.two_pow_pos j
      rw [← last, Nat.shiftRight_eq_div_pow, Nat.mul_comm, Nat.mul_add_div (by omega), Nat.div_eq_of_lt (by omega)]
      rfl
    calc pushLeaves c (m * 2 ^ (j + 1)) (2 ^ (j + 1)) st
        = pushLeaves c ((2 * m + 1) * 2 ^ j) (2 ^ j) (pushLeaves c (2 * m * 2 ^ j) (2 ^ j) st) := by
          rw [start, double, pushLeaves_add, middle]
      _ = pushLeaves c ((2 * m + 1) * 2 ^ j) (2 ^ j) ((treeNode c j (2 * m), j) :: st) := by
          rw [ih (2 * m) fun e he => Nat.le_of_succ_le (high e he), treehashPush_of_lower high]
      _ = treehashPush c ((2 * m + 1) * 2 ^ j + (2 ^ j - 1)) (treeNode c j (2 * m + 1)) j
            ((treeNode c j (2 * m), j) :: st) := ih (2 * m + 1) (by simp)
      _ = treehashPush c (m * 2 ^ (j + 1) + (2 ^ (j + 1) - 1)) (treeNode c (j + 1) m) (j + 1) st := by
          rw [treehashPush_sibling, parent, last, treeNode]

/-- Treehash over the leaves below Node(ht, m) gives that node (R323, R325). -/
theorem treehash_eq_treeNode (c : TreeCtx) (ht m : Nat) : treehash c ht (m * 2 ^ ht) = treeNode c ht m := by
  rw [treehash_eq_pushLeaves, pushLeaves_subtree c ht m (by simp)]
  rfl

/-- What the inner loop of BdsSetup does to its stack does not depend on the BDS state: it is Treehash's. -/
theorem setupPush_stack (c : BdsCtx) (idx : Nat) (b : Bds) (node : Bytes) (nh : Nat) (st : List (Bytes × Nat)) :
    (setupPush c idx b node nh st).2 = treehashPush c.tree idx node nh st := by
  induction st generalizing b node nh with
  | nil => rfl
  | cons e rest ih =>
    obtain ⟨below, hb⟩ := e
    unfold setupPush treehashPush
    split
    · rw [ih, bdsHash]
    · rfl

/-- BdsSetup returns the root of the tree (R355, R325). -/
theorem bdsSetup_root (c : BdsCtx) (b : Bds) : (bdsSetup c b).2 = treeNode c.tree c.h 0 := by
  have root := treehash_eq_treeNode c.tree c.h 0
  rw [treehash, Nat.zero_mul, ← List.range_eq_range'] at root
  rw [bdsSetup, ← root]
  exact congrArg (fun stack : List (Bytes × Nat) => (stack.headD ([], 0)).1)
    (List.foldl_hom Prod.snd fun st idx => (setupPush_stack c idx st.1 (bdsLeaf c idx) 0 st.2).symm).symm

end Sys2Proof.Machine
end

section
/-! PROOFS. The procedures of the BDS state machine keep its shape (spec/45_bds.md R356 to R360), and BdsSteps of two runs in a
row are those of one (spec/46_xmss.md R416). -/

namespace Sys2Proof.Machine

/-! ### ThUpdate (R356) -/

@[simp] theorem bdsHash_length (c : BdsCtx) (j i : Nat) (X : Bytes) : (bdsHash c j i X).length = c.tree.su.n :=
  hashH_length ..

@[simp] theorem bdsLeaf_length (c : BdsCtx) (i : Nat) : (bdsLeaf c i).length = c.tree.su.n := genLeaf_length ..

/-- What the fold loop of ThUpdate keeps: a node of n bytes, the height tag that fits its slot, and the count of slots the other
records hold. -/
structure FoldKeeps (c : BdsCtx) (nh held offset : Nat) (r : Bytes × Nat × Nat × Nat) : Prop where
  node   : r.1.length = c.tree.su.n
  height : r.2.1 + r.2.2.2 = nh + offset
  fewer  : r.2.2.1 ≤ held
  others : r.2.2.2 + held = offset + r.2.2.1

/-- Every slot that is folded in raises the node by one level and frees one slot of the stack and of th[t]. -/
theorem thFold_keeps (c : BdsCtx) (b : Bds) (idx : Nat) {usage nh offset : Nat} {node : Bytes}
    (hn : node.length = c.tree.su.n) (hu : usage ≤ offset) :
    FoldKeeps c nh usage offset (thFold c b idx usage node nh offset) := by
  induction usage generalizing node nh offset with
  | zero => exact ⟨hn, rfl, Nat.le_refl _, rfl⟩
  | succ usage ih =>
    unfold thFold
    split
    · obtain ⟨node, height, usage, others⟩ := ih (nh := nh + 1) (offset := offset - 1) (bdsHash_length ..) (by omega)
      exact ⟨node, by omega, by omega, by omega⟩
    · exact ⟨hn, rfl, Nat.le_refl _, rfl⟩

/-- Everything a ThUpdate that raises no error can have done: its leaf was left to build, and the folded node completes
th[t] or goes on the stack. -/
theorem thUpdate_eq_ok {c : BdsCtx} {b b' : Bds} {t : Nat} (h : thUpdate c b t = .ok b') :
    (instAt b t).nextIdx < 2 ^ c.h ∧
    ∃ node nh usage offset,
      thFold c b (instAt b t).nextIdx (instAt b t).stackUsage (bdsLeaf c (instAt b t).nextIdx) 0 b.stackOffset =
        (node, nh, usage, offset) ∧
      (b' = { b with
              th := b.th.set t { instAt b t with node := node, completed := true, stackUsage := usage }
              stackOffset := offset } ∨
        offset ≠ c.h + 1 ∧
          b' = { b with
                 stack := b.stack.set offset node
                 stackLevels := b.stackLevels.set offset nh
                 stackOffset := offset + 1
                 th := b.th.set t
                   { instAt b t with stackUsage := usage + 1, nextIdx := (instAt b t).nextIdx + 1 } }) := by
  unfold thUpdate at h
  simp only at h
  split at h
  · exact absurd h raise_ne_ok
  · next left =>
    refine ⟨Nat.lt_of_not_le left, ?_⟩
    generalize hf : thFold c b _ _ _ 0 _ = r at h
    obtain ⟨node, nh, usage, offset⟩ := r
    refine ⟨node, nh, usage, offset, rfl, ?_⟩
    simp only at h
    split at h
    · exact .inl (Except.ok.inj h).symm
    · split at h
      · exact absurd h raise_ne_ok
      · next room => exact .inr ⟨room, (Except.ok.inj h).symm⟩

theorem list_sum_set {l : List Nat} {t : Nat} (ht : t < l.length) (x : Nat) :
    (l.set t x).sum + l[t] = l.sum + x := by
  induction l generalizing t with
  | nil => simp at ht
  | cons y l ih =>
    cases t with
    | zero => simp; omega
    | succ t =>
      have := ih (t := t) (by simpa using ht)
      simp only [List.set_cons_succ, List.sum_cons, List.getElem_cons_succ]
      omega

/-- Replacing th[t] changes the slots in use by the difference of the two counts. -/
theorem usage_setTh {b : Bds} {t : Nat} (ht : t < b.th.length) (I : TreehashInst) :
    ((b.th.set t I).map TreehashInst.stackUsage).sum + (instAt b t).stackUsage =
      (b.th.map TreehashInst.stackUsage).sum + I.stackUsage := by
  have := list_sum_set (l := b.th.map TreehashInst.stackUsage) (t := t) (by simpa using ht) I.stackUsage
  rw [List.map_set]
  simpa [instAt_eq ht] using this

theorem usage_le {b : Bds} {t : Nat} (ht : t < b.th.length) :
    (instAt b t).stackUsage ≤ (b.th.map TreehashInst.stackUsage).sum := by
  rw [instAt_eq ht]
  exact List.le_sum_of_mem (List.mem_map_of_mem (List.getElem_mem ht))

/-- Replacing th[t] by a record of the same level with a legal node and next index keeps the levels and the nodes. -/
theorem BdsOk.th_set {h k : Nat} {b : Bds} (ok : BdsOk h k b) {t : Nat} (ht : t < h - k) {I : TreehashInst}
    (hh : I.h = (instAt b t).h) (hI : I.node.length = 32 ∧ I.nextIdx ≤ 2 ^ h) :
    (b.th.set t I).map TreehashInst.h = List.range (h - k) ∧
      ∀ u ∈ b.th.set t I, u.node.length = 32 ∧ u.nextIdx ≤ 2 ^ h := by
  have hl : t < b.th.length := by rw [ok.th_length]; exact ht
  constructor
  · have same : I.h = (b.th.map TreehashInst.h)[t]'(by simpa using hl) := by rw [hh, instAt_eq hl]; simp
    rw [List.map_set, same, List.set_getElem_self, ok.th]
  · intro u hu
    rcases List.mem_or_eq_of_mem_set hu with hu | rfl
    · exact ok.thNodes u hu
    · exact hI

/-- ThUpdate keeps the shape. -/
theorem thUpdate_ok {c : BdsCtx} {b b' : Bds} {t : Nat} (hn : c.tree.su.n = 32) (ok : BdsOk c.h c.k b) (ht : t < c.h - c.k)
    (h : thUpdate c b t = .ok b') : BdsOk c.h c.k b' := by
  have hl : t < b.th.length := by rw [ok.th_length]; exact ht
  obtain ⟨instNode, instNext⟩ := ok.instAt_ok ht
  have held := usage_le hl
  have total := ok.usage
  have bound := ok.stackOffset
  obtain ⟨left, node, nh, usage, offset, fold, result⟩ := thUpdate_eq_ok h
  obtain ⟨foldNode, height, fewer, others⟩ : FoldKeeps c 0 (instAt b t).stackUsage b.stackOffset (node, nh, usage, offset) :=
    fold ▸ thFold_keeps c b _ (bdsLeaf_length ..) (Nat.le_trans held total)
  simp only at foldNode height fewer others
  rcases result with rfl | ⟨room, rfl⟩
  · obtain ⟨th, thNodes⟩ := ok.th_set ht (I := { instAt b t with node := node, completed := true, stackUsage := usage }) rfl
      ⟨foldNode.trans hn, instNext⟩
    refine { ok with stackOffset := (?_ : offset ≤ _), th := th, thNodes := thNodes, usage := (?_ : List.sum _ ≤ offset) }
    · omega
    · have := usage_setTh hl { instAt b t with node := node, completed := true, stackUsage := usage }
      simp only at this ⊢
      omega
  · obtain ⟨th, thNodes⟩ := ok.th_set ht
      (I := { instAt b t with stackUsage := usage + 1, nextIdx := (instAt b t).nextIdx + 1 }) rfl ⟨instNode, left⟩
    refine { ok with
      stack := ⟨by simpa using ok.stack.1, ok.stack.2.set offset (foldNode.trans hn)⟩
      stackLevels := by simpa using ok.stackLevels
      stackOffset := (?_ : offset + 1 ≤ _)
      th := th
      thNodes := thNodes
      usage := (?_ : List.sum _ ≤ offset + 1)
      levels := ?_ }
    · omega
    · have := usage_setTh hl { instAt b t with stackUsage := usage + 1, nextIdx := (instAt b t).nextIdx + 1 }
      simp only at this ⊢
      omega
    · intro p hp
      by_cases hpo : p = offset
      · subst hpo
        have slot : p < b.stackLevels.length := by rw [ok.stackLevels]; exact hp
        simp only [List.getD_eq_getElem?_getD, List.getElem?_set_self slot, Option.getD_some]
        omega
      · simpa [List.getD_eq_getElem?_getD, List.getElem?_set_ne (Ne.symm hpo)] using ok.levels p hp

/-! ### BdsThUpdate (R358) -/

/-- The record th[t] that BdsThUpdate advances is one of the key's. -/
theorem bestInst_lt {c : BdsCtx} {b : Bds} {t : Nat} (h : bestInst c b = some t) : t < c.h - c.k := by
  unfold bestInst at h
  refine List.foldlRecOn (motive := fun best : Option Nat × Nat => ∀ u ∈ best.1, u < c.h - c.k) _ _ (by simp) ?_ t h
  intro best low i hi
  split
  · intro u hu
    cases hu
    exact List.mem_range.1 hi
  · exact low

/-- BdsThUpdate keeps the shape. -/
theorem bdsThUpdate_ok {c : BdsCtx} (hn : c.tree.su.n = 32) {count used : Nat} {b : Bds} {r : Bds × Nat × Nat}
    (ok : BdsOk c.h c.k b) (h : bdsThUpdate c count used b = .ok r) : BdsOk c.h c.k r.1 := by
  induction count generalizing used b with
  | zero =>
    cases h
    exact ok
  | succ count ih =>
    unfold bdsThUpdate at h
    split at h
    · cases h
      exact ok
    · next t best =>
      split at h
      · cases h
      · next b' step => exact ih (thUpdate_ok hn ok (bestInst_lt best) step) h

/-! ### BdsRound (R359) -/

/-- tau is the least zero bit of an index below 2^h - 1. -/
theorem bdsTau_spec {h i : Nat} (hi : i < 2 ^ h - 1) :
    bdsTau h i < h ∧ i.testBit (bdsTau h i) = false ∧ ∀ j, j < bdsTau h i → i.testBit j = true := by
  have bit : ∀ j, ((i >>> j) % 2 == 0) = !i.testBit j := by
    intro j
    rw [Nat.testBit_eq_decide_div_mod_eq, Nat.shiftRight_eq_div_pow]
    rcases Nat.mod_two_eq_zero_or_one (i / 2 ^ j) with e | e <;> simp [e]
  unfold bdsTau
  simp only [bit]
  cases found : (List.range h).find? fun j => !i.testBit j with
  | some t =>
    obtain ⟨zero, below⟩ := List.find?_range_eq_some.1 found
    obtain ⟨ht, least⟩ := below
    exact ⟨by simpa using ht, by simpa using zero, fun j hj => by simpa using least j hj⟩
  | none =>
    have ones : ∀ j, j < h → i.testBit j = true := by simpa using found
    have all : i = 2 ^ h - 1 := by
      apply Nat.eq_of_testBit_eq
      intro j
      rw [Nat.testBit_two_pow_sub_one]
      by_cases hj : j < h
      · simp [hj, ones j hj]
      · rw [Nat.testBit_lt_two_pow (Nat.lt_of_lt_of_le (by omega) (Nat.pow_le_pow_right (by omega) (Nat.le_of_not_lt hj)))]
        simp [hj]
    omega

/-- At a level j below tau the index is odd but not all ones, so at least one odd node of that level comes after it. -/
theorem shiftRight_add_three_le {h i j tau : Nat} (hi : i < 2 ^ h) (hj : j < tau) (ht : tau < h)
    (one : i.testBit j = true) (zero : i.testBit tau = false) : i >>> j + 3 ≤ 2 ^ (h - j) := by
  have range : i >>> j < 2 ^ (h - j) := by
    rw [Nat.shiftRight_eq_div_pow]
    exact Nat.div_lt_of_lt_mul (by rwa [← Nat.pow_add, Nat.add_sub_cancel' (by omega)])
  have odd : (i >>> j) % 2 = 1 := by simpa [Nat.testBit, Nat.one_and_eq_mod_two] using one
  have even : 2 ^ (h - j) % 2 = 0 := by
    obtain ⟨m, hm⟩ : ∃ m, h - j = m + 1 := ⟨h - j - 1, by omega⟩
    rw [hm, Nat.pow_succ]
    omega
  have notAll : i >>> j ≠ 2 ^ (h - j) - 1 := by
    intro all
    have bit := Nat.testBit_two_pow_sub_one (h - j) (tau - j)
    rw [← all, Nat.testBit_shiftRight, Nat.add_sub_cancel' (by omega), zero] at bit
    simp at bit
    omega
  generalize i >>> j = node at *
  generalize 2 ^ (h - j) = nodes at *
  omega

/-- The retained node that BdsRound pulls at level j lies in the retain array (R350, R359). -/
theorem retain_index_lt {h k i j : Nat} (hk : h - k ≤ j) (hj : j + 1 < h) (room : i >>> j + 3 ≤ 2 ^ (h - j)) :
    (1 <<< (h - 1 - j)) + j - h + (((i >>> j) - 1) >>> 1) < 2 ^ k - k - 1 := by
  obtain ⟨m, rfl⟩ : ∃ m, h = j + 1 + m := ⟨h - j - 1, by omega⟩
  obtain ⟨d, rfl⟩ : ∃ d, k = m + 1 + d := ⟨k - m - 1, by omega⟩
  have growth : 2 ^ (m + 1) + d ≤ 2 ^ (m + 1 + d) := by
    have large : 1 ≤ 2 ^ (m + 1) := Nat.two_pow_pos _
    have step := Nat.lt_two_pow_self (n := d)
    calc 2 ^ (m + 1) + d ≤ 2 ^ (m + 1) * (1 + d) := by nlinarith
      _ ≤ 2 ^ (m + 1) * 2 ^ d := Nat.mul_le_mul_left _ (by omega)
      _ = 2 ^ (m + 1 + d) := (Nat.pow_add ..).symm
  have double : 2 ^ (m + 1) = 2 * 2 ^ m := Nat.pow_succ' ..
  have lower : m < 2 ^ m := Nat.lt_two_pow_self
  rw [show j + 1 + m - j = m + 1 by omega] at room
  rw [show j + 1 + m - 1 - j = m by omega, Nat.shiftLeft_eq, Nat.one_mul, Nat.shiftRight_eq_div_pow _ 1]
  omega

/-- A node that BdsRound pulls is 32 bytes. -/
theorem roundPull_length {c : BdsCtx} {b : Bds} {i j : Nat} (ok : BdsOk c.h c.k b) (hj : j + 1 < c.h)
    (room : i >>> j + 3 ≤ 2 ^ (c.h - j)) : (roundPull c b i j).length = 32 := by
  unfold roundPull
  split
  · next low => exact (ok.instAt_ok low).1
  · next high =>
    refine ok.retain.2.nodeAt ?_
    rw [ok.retain.1]
    exact retain_index_lt (Nat.le_of_not_lt high) hj room

theorem roundReset_ok {c : BdsCtx} {b : Bds} (i : Nat) {j : Nat} (ok : BdsOk c.h c.k b) (hj : j < c.h - c.k) :
    BdsOk c.h c.k (roundReset c i b j) := by
  unfold roundReset
  simp only
  split
  · next start => exact ok.setTh j _ (ok.instAt_h hj).symm (ok.instAt_ok hj).1 (Nat.le_of_lt start) (Nat.zero_le _)
  · exact ok

/-- BdsRound keeps the shape, for an index below the last one. -/
theorem bdsRound_ok {c : BdsCtx} {b : Bds} {i : Nat} (hn : c.tree.su.n = 32) (ok : BdsOk c.h c.k b)
    (hi : i < 2 ^ c.h - 1) : BdsOk c.h c.k (bdsRound c b i).1 := by
  obtain ⟨ht, zero, ones⟩ := bdsTau_spec hi
  unfold bdsRound
  generalize bdsTau c.h i = tau at ht zero ones
  have kept : BdsOk c.h c.k
      (if (i >>> (tau + 1)) % 2 = 0 ∧ tau < c.h - 1 then
        { b with keep := b.keep.set (tau >>> 1) (nodeAt b.auth tau) }
      else b) := by
    split
    · exact ok.setKeep _ (ok.auth.2.nodeAt (by rw [ok.auth.1]; exact ht))
    · exact ok
  simp only
  generalize (if (i >>> (tau + 1)) % 2 = 0 ∧ tau < c.h - 1 then
    { b with keep := b.keep.set (tau >>> 1) (nodeAt b.auth tau) } else b) = b₁ at kept
  split
  · exact kept.setAuth 0 (by simp [hn])
  · have hashed := kept.setAuth tau (x := bdsHash c (tau - 1) (i >>> tau)
      (nodeAt b.auth (tau - 1) ++ nodeAt b.keep ((tau - 1) >>> 1))) (by simp [hn])
    refine List.foldlRecOn (motive := BdsOk c.h c.k) _ _ (List.foldlRecOn (motive := BdsOk c.h c.k) _ _ hashed ?_) ?_
    · intro b₂ ok₂ j hj
      have below : j < tau := List.mem_range.1 hj
      exact ok₂.setAuth j (roundPull_length ok₂ (by omega)
        (shiftRight_add_three_le (by omega) below ht (ones j below) zero))
    · intro b₂ ok₂ j hj
      have below := List.mem_range.1 hj
      exact roundReset_ok i ok₂ (by omega)

/-! ### BdsStep (R360) -/

theorem bdsStep_eq_ok {c : BdsCtx} {b b' : Bds} {i : Nat} :
    bdsStep c b i = .ok b' ↔ ∃ r, bdsThUpdate c ((c.h - c.k) / 2) 0 (bdsRound c b i).1 = .ok r ∧ r.1 = b' := by
  unfold bdsStep
  cases bdsThUpdate c ((c.h - c.k) / 2) 0 (bdsRound c b i).1 <;> simp

/-- BdsStep keeps the shape. -/
theorem bdsStep_ok {c : BdsCtx} {b b' : Bds} {i : Nat} (hn : c.tree.su.n = 32) (ok : BdsOk c.h c.k b)
    (hi : i < 2 ^ c.h - 1) (h : bdsStep c b i = .ok b') : BdsOk c.h c.k b' := by
  obtain ⟨r, updated, rfl⟩ := bdsStep_eq_ok.1 h
  exact bdsThUpdate_ok hn (bdsRound_ok hn ok hi) updated

theorem bdsSteps_succ_eq_ok {c : BdsCtx} {m i : Nat} {b b' : Bds} :
    bdsSteps c (m + 1) i b = .ok b' ↔ ∃ b₁, bdsStep c b i = .ok b₁ ∧ bdsSteps c m (i + 1) b₁ = .ok b' := by
  rw [bdsSteps]
  cases bdsStep c b i <;> simp

@[simp] theorem bdsSteps_one (c : BdsCtx) (i : Nat) (b : Bds) : bdsSteps c 1 i b = bdsStep c b i := by
  rw [bdsSteps]
  cases bdsStep c b i <;> rfl

/-- BdsSteps keep the shape, for indices below the last one. -/
theorem bdsSteps_ok {c : BdsCtx} (hn : c.tree.su.n = 32) {m i : Nat} {b b' : Bds} (ok : BdsOk c.h c.k b)
    (hi : i + m ≤ 2 ^ c.h - 1) (h : bdsSteps c m i b = .ok b') : BdsOk c.h c.k b' := by
  induction m generalizing i b with
  | zero =>
    cases h
    exact ok
  | succ m ih =>
    obtain ⟨b₁, first, rest⟩ := bdsSteps_succ_eq_ok.1 h
    exact ih (bdsStep_ok hn ok (by omega) first) (by omega) rest

/-- m steps from i and then m' steps from i + m are m + m' steps from i. -/
theorem bdsSteps_add {c : BdsCtx} {m m' i : Nat} {b b₁ b₂ : Bds} (first : bdsSteps c m i b = .ok b₁)
    (second : bdsSteps c m' (i + m) b₁ = .ok b₂) : bdsSteps c (m + m') i b = .ok b₂ := by
  induction m generalizing i b with
  | zero =>
    cases first
    simpa using second
  | succ m ih =>
    obtain ⟨b', step, rest⟩ := bdsSteps_succ_eq_ok.1 first
    rw [Nat.add_right_comm, bdsSteps_succ_eq_ok]
    exact ⟨b', step, ih rest (by rwa [Nat.add_assoc, Nat.add_comm 1])⟩

end Sys2Proof.Machine
end

section
/-! PROOFS. The lengths of what the commands store (spec/30_encoding.md R150): digits, chains, roots, exports; and the position of
the streaming sponge (spec/41_keccak_sha.md R216, R217). -/

namespace Sys2Proof.Machine

/-! ### WOTS+ and trees -/

/-- Every chunk of a byte string of m chunks of n bytes has n bytes. -/
theorem chunks_chunk {n m : Nat} {bs : Bytes} (h : bs.length = m * n) : ∀ x ∈ chunks n m bs, x.length = n := by
  induction m generalizing bs with
  | zero => simp [chunks]
  | succ m ih =>
    rw [Nat.succ_mul] at h
    intro x hx
    rcases List.mem_cons.1 hx with rfl | hx
    · simp
      omega
    · exact ih (by simp; omega) x hx

theorem baseW_length_le (X : Bytes) (outLen : Nat) : (baseW X outLen).length ≤ outLen := by simp [baseW]

theorem digitBytes_length (D : List Nat) : (digitBytes D).length = D.length := by simp [digitBytes]

theorem wotsDigits_length_le (M : Bytes) (n : Nat) : (wotsDigits M n).length ≤ wotsLen n := by
  have message := baseW_length_le M (wotsLen1 n)
  simp only [wotsDigits, List.length_append, wotsLen]
  exact Nat.add_le_add message (baseW_length_le _ _)

theorem expandSeed_flatten_length (su : Suite) (S : Bytes) : (expandSeed su S).flatten.length = wotsLen su.n * su.n := by
  rw [flatten_length expandSeed_chunk, expandSeed_length]

theorem wotsPkgen_flatten_length (su : Suite) (S P : Bytes) (a : Adrs) :
    (wotsPkgen su S P a).flatten.length = wotsLen su.n * su.n := by
  have chunk : ∀ x ∈ wotsPkgen su S P a, x.length = su.n := runChains_chunk expandSeed_chunk
  rw [flatten_length chunk]
  simp [wotsPkgen]

theorem wotsPkFromSig_flatten_length {su : Suite} {Sig : List Bytes} (M P : Bytes) (a : Adrs)
    (h : ∀ x ∈ Sig, x.length = su.n) : (wotsPkFromSig su Sig M P a).flatten.length = Sig.length * su.n := by
  have chunk : ∀ x ∈ wotsPkFromSig su Sig M P a, x.length = su.n := runChains_chunk h
  rw [flatten_length chunk]
  simp [wotsPkFromSig]

theorem otsSeed_length (su : Suite) (SK : Bytes) (a : Adrs) : (otsSeed su SK a).length = su.n := prf_length ..

/-- Treehash of aligned leaves is a node of n bytes. -/
theorem treehash_length {c : TreeCtx} {ht s : Nat} (aligned : s % 2 ^ ht = 0) : (treehash c ht s).length = c.su.n := by
  obtain ⟨m, rfl⟩ := Nat.dvd_of_mod_eq_zero aligned
  rw [Nat.mul_comm, treehash_eq_treeNode, treeNode_length]

theorem authPath_flatten_length (c : TreeCtx) (h i : Nat) : (authPath c h i).flatten.length = h * c.su.n := by
  have nodes : ∀ x ∈ authPath c h i, x.length = c.su.n := by
    intro x hx
    obtain ⟨j, -, rfl⟩ := List.mem_map.1 hx
    exact treeNode_length ..
  rw [flatten_length nodes, authPath_length]

theorem rootFromAuth_length {su : Suite} {L : Bytes} (P : Bytes) (b : TreeBase) (i : Nat) (auth : List Bytes)
    (h : L.length = su.n) : (rootFromAuth su P b i L auth).length = su.n := by
  unfold rootFromAuth
  generalize 0 = j
  induction auth generalizing L j with
  | nil => exact h
  | cons sib auth ih => exact ih (hashH_length ..) _

/-! ### The sponge -/

/-- Absorbing leaves the position below the rate (R216). -/
theorem absorbStream_pos_lt {rate : Nat} (A : Lanes) {pos : Nat} (M : Bytes) (h : pos < rate) :
    (absorbStream rate A pos M).2 < rate := by
  induction M generalizing A pos with
  | nil => exact h
  | cons b M ih =>
    simp only [absorbStream]
    split
    · exact ih _ (by omega)
    · exact ih _ (by omega)

/-- Squeezing L bytes gives L bytes and leaves the position in its block (R217). -/
theorem squeezeStream_bounds {rate : Nat} (L : Nat) (A : Lanes) {pos : Nat} (h : pos ≤ rate) (hr : 0 < rate) :
    (squeezeStream rate L A pos).2.1 ≤ rate ∧ (squeezeStream rate L A pos).2.2.length = L := by
  induction L generalizing A pos with
  | zero => exact ⟨h, rfl⟩
  | succ L ih =>
    have next : (if pos = rate then (keccakF A, 0) else (A, pos)).2 + 1 ≤ rate := by split <;> simp <;> omega
    obtain ⟨bound, count⟩ := ih (if pos = rate then (keccakF A, 0) else (A, pos)).1 next
    exact ⟨bound, congrArg (· + 1) count⟩

theorem rateOf_pos (sel : RateSel) : 0 < rateOf sel := by cases sel <;> decide

/-! ### Keys and exports -/

theorem descBytes_length (hf : HashFn) (st : BitVec 4) (h : Nat) (af : BitVec 4) : (descBytes hf st h af).length = 3 := rfl

theorem publicKey_length {b : Build} {key : KeyStore} (ok : KeyOk b key) : (publicKey key).length = 67 := by
  simp [publicKey, keyDesc, descBytes_length, ok.root, ok.pubSeed]

theorem secretKey_length {b : Build} {key : KeyStore} (ok : KeyOk b key) : (secretKey key).length = 132 := by
  simp [secretKey, ok.root, ok.pubSeed, ok.skSeed, ok.skPrf]

theorem extendedSeed_length {b : Build} {key : KeyStore} (ok : KeyOk b key) : (extendedSeed key).length = 51 := by
  simp [extendedSeed, keyDesc, descBytes_length, ok.rawSeed]

/-- m records of w bytes each are m w bytes. -/
theorem flatMap_range_length {f : Nat → Bytes} {m w : Nat} (h : ∀ i, i < m → (f i).length = w) :
    ((List.range m).flatMap f).length = m * w := by
  have records : ∀ x ∈ (List.range m).map f, x.length = w := by
    intro x hx
    obtain ⟨i, hi, rfl⟩ := List.mem_map.1 hx
    exact h i (List.mem_range.1 hi)
  rw [List.flatMap_def, flatten_length records, List.length_map, List.length_range]

/-- What BDS_EXPORT writes for a state of the right shape has the size E of R372. -/
theorem bdsExport_length {c : BdsCtx} {b : Bds} (sync : Bool) (ok : BdsOk c.h c.k b) (even : c.h % 2 = 0) (hk : c.k < c.h) :
    (bdsExport c sync b).length = exportSize c.h c.k := by
  have levels := flatMap_range_length (m := c.h + 1) (w := 1)
    (f := fun i => if i < b.stackOffset then toByte (b.stackLevels.getD i 0) 1 else [0])
    fun i _ => by split <;> simp
  have stack := flatMap_range_length (m := c.h + 1) (w := 32)
    (f := fun i => if i < b.stackOffset then nodeAt b.stack i else zeros 32)
    fun i hi => by
      split
      · exact ok.stack.2.nodeAt (by rw [ok.stack.1]; exact hi)
      · simp
  have auth := flatMap_range_length (m := c.h) (w := 32) (f := fun i => nodeAt b.auth i)
    fun i hi => ok.auth.2.nodeAt (by rw [ok.auth.1]; exact hi)
  have keep := flatMap_range_length (m := c.h / 2) (w := 32) (f := fun i => nodeAt b.keep i)
    fun i hi => ok.keep.2.nodeAt (by rw [ok.keep.1]; exact hi)
  have th := flatMap_range_length (m := c.h - c.k) (w := 40) (f := fun i => thRecord (instAt b i))
    fun i hi => by simp [thRecord, (ok.instAt_ok hi).1]
  have retain := flatMap_range_length (m := 2 ^ c.k - c.k - 1) (w := 32) (f := fun i => nodeAt b.retain i)
    fun i hi => ok.retain.2.nodeAt (by rw [ok.retain.1]; exact hi)
  have large : c.k < 2 ^ c.k := Nat.lt_two_pow_self
  simp only [bdsExport, exportSize, List.length_append, toByte_length, List.length_singleton, levels, stack, auth, keep, th,
    retain]
  omega

end Sys2Proof.Machine
end

section
/-! PROOFS. What a completed command leaves, said once for all 42 of them (spec/40_control.md R173, R174): a body that raises no
error stores inside BUF, keeps the sponge in its block, and does one of six things to the key store and the BDS state. -/

namespace Sys2Proof.Machine

/-! ### Results -/

/-- Whatever value x gives, it satisfies P; nothing is said of an early end. -/
def Yields {α : Type} (P : α → Prop) (x : Result α) : Prop := ∀ a, x = .ok a → P a

@[simp] theorem yields_pure {α : Type} {P : α → Prop} {a : α} : Yields P (pure a) ↔ P a := by simp [Yields]

@[simp] theorem yields_bind {α β : Type} {P : β → Prop} {x : Result α} {f : α → Result β} :
    Yields P (x >>= f) ↔ ∀ a, x = .ok a → Yields P (f a) := by
  simp only [Yields, result_bind_eq_ok]
  exact ⟨fun h a ha b hb => h b ⟨a, ha, hb⟩, fun h b ⟨a, ha, hb⟩ => h a ha b hb⟩

/-! ### Completions -/

/-- What a command's body may do to the key store, the BDS state and BDS_SYNC (R55, R59). -/
inductive KeyEffect (s : State) : KeyStore → Bds → Bool → Prop
  | unchanged : KeyEffect s s.key s.bds s.bdsSync
  | cleared : KeyEffect s clearedKey (freshBds 0 0) false
  | loaded {hf : HashFn} {h k : Nat} {strat : Strategy} {S : Bytes} (legal : ParamsLegal s.build h k strat)
      (seed : S.length = 48) :
      KeyEffect s (loadKey s hf h k strat S).key (loadKey s hf h k strat S).bds (loadKey s hf h k strat S).bdsSync
  | setUp (valid : s.key.valid = true) (fast : s.key.strategy = .fast) (zero : s.key.idx = 0) :
      KeyEffect s s.key (bdsSetup (keyBds s.key) (freshBds s.key.h.toNat s.key.k.toNat)).1 true
  | stepped {b : Bds} (shape : BdsOk s.key.h.toNat s.key.k.toNat s.bds → BdsOk s.key.h.toNat s.key.k.toNat b) :
      KeyEffect s s.key b false
  | moved {j : Nat} {b : Bds} (valid : s.key.valid = true) (below : s.key.idx.toNat < 2 ^ s.key.h.toNat)
      (le : s.key.idx.toNat ≤ j) (bound : j ≤ 2 ^ s.key.h.toNat) (basic : s.key.strategy = .basic → b = s.bds)
      (fast : s.key.strategy = .fast → s.bdsSync = true ∧
        bdsSteps (keyBds s.key) (min j (2 ^ s.key.h.toNat - 1) - s.key.idx.toNat) s.key.idx.toNat s.bds = .ok b) :
      KeyEffect s (keyAt s.key j) b s.bdsSync

/-- What holds of the shadow copy when a command's body ends without an error. -/
structure BodyOk (s shadow : State) : Prop where
  frame    : shadow =
    { s with
      ks := shadow.ks, sp := shadow.sp, buf := shadow.buf, key := shadow.key, bds := shadow.bds,
      bdsSync := shadow.bdsSync, verifyOk := shadow.verifyOk, res0 := shadow.res0, res1 := shadow.res1 }
  sponge   : SpongeOk shadow.sp
  bufForm  : shadow.buf.wf
  bufRange : shadow.buf.below s.build.buf.bytes
  key      : KeyEffect s shadow.key shadow.bds shadow.bdsSync

/-- What the commit step of a command leaves. -/
inductive Completion (s : State) : State → Prop
  | success {shadow : State} (ok : BodyOk s shadow) : Completion s shadow.succeed
  | failure (e : CmdError) : Completion s (s.failWith e)

theorem completion_of_finish {s t : State} {r : Result State} (h : finish s r = .next t) (body : Yields (BodyOk s) r) :
    Completion s t := by
  rcases finish_eq_next.1 h with ⟨shadow, value, rfl⟩ | ⟨e, -, rfl⟩
  · exact .success (body shadow value)
  · exact .failure e

theorem BodyOk.refl {s : State} (inv : s.Inv) : BodyOk s s :=
  ⟨rfl, inv.sponge, inv.bufForm, inv.bufRange, .unchanged⟩

theorem BodyOk.withRes0 {s shadow : State} (ok : BodyOk s shadow) (v : Nat) : BodyOk s (shadow.withRes0 v) :=
  ⟨congrArg (State.withRes0 · v) ok.frame, ok.sponge, ok.bufForm, ok.bufRange, ok.key⟩

theorem BodyOk.withRes1 {s shadow : State} (ok : BodyOk s shadow) (v : Nat) : BodyOk s (shadow.withRes1 v) :=
  ⟨congrArg (State.withRes1 · v) ok.frame, ok.sponge, ok.bufForm, ok.bufRange, ok.key⟩

theorem BodyOk.writeBuf {s shadow : State} (ok : BodyOk s shadow) {p : Nat} {v : Bytes}
    (fits : p + v.length ≤ s.build.buf.bytes) : BodyOk s (shadow.writeBuf p v) :=
  ⟨congrArg (State.writeBuf · p v) ok.frame, ok.sponge, Memory.write_wf p v ok.bufForm, Memory.write_below ok.bufRange fits,
    ok.key⟩

/-- A body that only stores a string at ARG0. -/
theorem BodyOk.writeArg {s : State} (inv : s.Inv) {i : Fin 8} {v : Bytes} {L : Nat} (len : v.length ≤ L)
    (fits : argN s i + L ≤ s.build.buf.bytes) : BodyOk s (writeArg s i v) :=
  (BodyOk.refl inv).writeBuf (by omega)

/-- A body that changes the key store, the BDS state and BDS_SYNC only. -/
theorem BodyOk.ofKey {s : State} (inv : s.Inv) {key : KeyStore} {bds : Bds} {sync : Bool} (effect : KeyEffect s key bds sync) :
    BodyOk s { s with key := key, bds := bds, bdsSync := sync } :=
  ⟨rfl, inv.sponge, inv.bufForm, inv.bufRange, effect⟩

/-! ### Control and Hash Core -/

section
variable {s t : State}

theorem execNop_completion (inv : s.Inv) (h : execNop s = .next t) : Completion s t :=
  completion_of_finish h (yields_pure.2 (.refl inv))

theorem execKeyClear_completion (inv : s.Inv) (h : execKeyClear s = .next t) : Completion s t :=
  completion_of_finish h (yields_pure.2 (.ofKey inv .cleared))

/-- A body that changes KS and SP only. -/
theorem BodyOk.ofSponge (inv : s.Inv) (ks : Lanes) {sp : SpongeCtl} (ok : SpongeOk sp) :
    BodyOk s { s with ks := ks, sp := sp } :=
  ⟨rfl, ok, inv.bufForm, inv.bufRange, .unchanged⟩

theorem execKeccakF_completion (inv : s.Inv) (h : execKeccakF s = .next t) : Completion s t :=
  completion_of_finish h (yields_pure.2 (.ofSponge inv _ inv.sponge))

theorem execSpongeInit_completion {sel : RateSel} (inv : s.Inv) (h : execSpongeInit sel s = .next t) : Completion s t :=
  completion_of_finish h (by
    simp only [yields_pure]
    exact .ofSponge inv _ ⟨Nat.zero_le _, fun _ => rateOf_pos sel, fun idle => by cases idle⟩)

theorem execSpongeAbsorb_completion (inv : s.Inv) (h : execSpongeAbsorb s = .next t) : Completion s t :=
  completion_of_finish h (by
    simp only [yields_bind, yields_pure, check_eq_ok]
    intro _ absorbing _ _ M _
    have pos := absorbStream_pos_lt s.ks M (inv.sponge.absorb absorbing)
    exact .ofSponge inv _ ⟨Nat.le_of_lt pos, fun _ => pos, fun idle => by rw [absorbing] at idle; cases idle⟩)

theorem squeezeStart_pos_le {ks : Lanes} {sp : SpongeCtl} (ok : SpongeOk sp) : (squeezeStart ks sp).2 ≤ rateOf sp.rate := by
  unfold squeezeStart
  split
  · exact Nat.zero_le _
  · exact ok.pos

theorem execSpongeSqueeze_completion (inv : s.Inv) (h : execSpongeSqueeze s = .next t) : Completion s t :=
  completion_of_finish h (by
    simp only [yields_bind, yields_pure, rangeArg_eq_ok]
    intro _ _ _ fits
    obtain ⟨pos, len⟩ := squeezeStream_bounds (argN s 1) (squeezeStart s.ks s.sp).1 (squeezeStart_pos_le inv.sponge)
      (rateOf_pos s.sp.rate)
    exact (BodyOk.ofSponge inv _ ⟨pos, fun absorb => (by cases absorb), fun idle => (by cases idle)⟩).writeBuf
      (Nat.le_trans (Nat.add_le_add_left (Nat.le_of_eq len) _) fits))

theorem execShake128_completion (inv : s.Inv) (h : execShake128 s = .next t) : Completion s t :=
  completion_of_finish h (by
    simp only [yields_bind, yields_pure, rangeArg_eq_ok]
    exact fun _ fits _ _ M _ => .writeArg inv (Nat.le_of_eq (shake128_length ..)) fits)

theorem execShake256_completion (inv : s.Inv) (h : execShake256 s = .next t) : Completion s t :=
  completion_of_finish h (by
    simp only [yields_bind, yields_pure, rangeArg_eq_ok]
    exact fun _ fits _ _ M _ => .writeArg inv (Nat.le_of_eq (shake256_length ..)) fits)

theorem execSha256_completion (inv : s.Inv) (h : execSha256 s = .next t) : Completion s t :=
  completion_of_finish h (by
    simp only [yields_bind, yields_pure, rangeArg_eq_ok]
    exact fun _ fits _ _ M _ => .writeArg inv (Nat.le_of_eq (sha256_length M)) fits)

/-! ### Derived hashes -/

theorem execCoreHash_completion (inv : s.Inv) (h : execCoreHash s = .next t) : Completion s t :=
  completion_of_finish h (by
    simp only [yields_bind, yields_pure, rangeArg_eq_ok]
    exact fun su _ _ fits _ _ _ _ K _ X _ => .writeArg inv (Nat.le_of_eq (coreHash_length ..)) fits)

theorem execPrf_completion (inv : s.Inv) (h : execPrf s = .next t) : Completion s t :=
  completion_of_finish h (by
    simp only [yields_bind, yields_pure, rangeArg_eq_ok]
    exact fun su _ _ fits _ _ _ _ K _ X _ => .writeArg inv (Nat.le_of_eq (prf_length ..)) fits)

theorem execHashF_completion (inv : s.Inv) (h : execHashF s = .next t) : Completion s t :=
  completion_of_finish h (by
    simp only [yields_bind, yields_pure, rangeArg_eq_ok]
    exact fun su _ _ fits _ _ _ _ P _ X _ => .writeArg inv (Nat.le_of_eq (hashF_length ..)) fits)

theorem execHashH_completion (inv : s.Inv) (h : execHashH s = .next t) : Completion s t :=
  completion_of_finish h (by
    simp only [yields_bind, yields_pure, rangeArg_eq_ok]
    exact fun su _ _ fits _ _ _ _ P _ X _ => .writeArg inv (Nat.le_of_eq (hashH_length ..)) fits)

theorem execHMsg_completion (inv : s.Inv) (h : execHMsg s = .next t) : Completion s t :=
  completion_of_finish h (by
    simp only [yields_bind, yields_pure, rangeArg_eq_ok]
    exact fun su _ _ _ _ fits _ _ _ _ K _ M _ => .writeArg inv (Nat.le_of_eq (hMsg_length ..)) fits)

/-! ### WOTS+ -/

theorem execWotsExpandSeed_completion (inv : s.Inv) (h : execWotsExpandSeed s = .next t) : Completion s t :=
  completion_of_finish h (by
    simp only [yields_bind, yields_pure, rangeArg_eq_ok]
    exact fun su _ _ fits _ _ S _ => .writeArg inv (Nat.le_of_eq (expandSeed_flatten_length ..)) fits)

theorem execWotsGenChain_completion (inv : s.Inv) (h : execWotsGenChain s = .next t) : Completion s t :=
  completion_of_finish h (by
    simp only [yields_bind, yields_pure, rangeArg_eq_ok]
    exact fun su _ _ fits _ _ _ _ P _ X hX =>
      .writeArg inv (Nat.le_of_eq (genChain_length _ _ _ _ (readArg_length hX))) fits)

theorem execWotsBaseW_completion (inv : s.Inv) (h : execWotsBaseW s = .next t) : Completion s t :=
  completion_of_finish h (by
    simp only [yields_bind, yields_pure, rangeArg_eq_ok]
    exact fun _ _ _ fits _ _ X _ => .writeArg inv (digitBytes_length _ ▸ baseW_length_le ..) fits)

theorem execWotsDigits_completion (inv : s.Inv) (h : execWotsDigits s = .next t) : Completion s t :=
  completion_of_finish h (by
    simp only [yields_bind, yields_pure, rangeArg_eq_ok]
    exact fun _ fits _ _ M _ => .writeArg inv (digitBytes_length _ ▸ wotsDigits_length_le ..) fits)

theorem execWotsPkgen_completion (inv : s.Inv) (h : execWotsPkgen s = .next t) : Completion s t :=
  completion_of_finish h (by
    simp only [yields_bind, yields_pure, rangeArg_eq_ok]
    exact fun su _ _ fits _ _ _ _ P _ S _ => .writeArg inv (Nat.le_of_eq (wotsPkgen_flatten_length ..)) fits)

theorem execWotsSign_completion (inv : s.Inv) (h : execWotsSign s = .next t) : Completion s t :=
  completion_of_finish h (by
    simp only [yields_bind, yields_pure, rangeArg_eq_ok]
    exact fun su _ _ fits _ _ _ _ _ _ P _ S _ M _ => .writeArg inv (Nat.le_of_eq (wotsSign_flatten_length ..)) fits)

theorem execWotsPkFromSig_completion (inv : s.Inv) (h : execWotsPkFromSig s = .next t) : Completion s t :=
  completion_of_finish h (by
    simp only [yields_bind, yields_pure, rangeArg_eq_ok]
    intro su _ _ fits _ _ _ _ _ _ P _ Sig hSig M _
    have len := wotsPkFromSig_flatten_length M P (adrsArg s) (chunks_chunk (readArg_length hSig))
    exact .writeArg inv (Nat.le_of_eq (len.trans (by rw [chunks_length]))) fits)

theorem execOtsSeed_completion (inv : s.Inv) (h : execOtsSeed s = .next t) : Completion s t :=
  completion_of_finish h (by
    simp only [yields_bind, yields_pure, rangeArg_eq_ok]
    exact fun su _ _ fits _ _ SK _ => .writeArg inv (Nat.le_of_eq (otsSeed_length ..)) fits)

/-! ### Trees -/

theorem execLTree_completion (inv : s.Inv) (h : execLTree s = .next t) : Completion s t :=
  completion_of_finish h (by
    simp only [yields_bind, yields_pure, rangeArg_eq_ok]
    intro su _ _ fits _ _ _ _ P _ pk hpk
    have nonempty : chunks su.n (wotsLen su.n) pk ≠ [] := by simp [← List.length_pos_iff, wotsLen, wotsLen2]
    exact .writeArg inv (Nat.le_of_eq (lTree_length P (adrsArg s) (chunks_chunk (readArg_length hpk)) nonempty)) fits)

theorem execGenLeaf_completion (inv : s.Inv) (h : execGenLeaf s = .next t) : Completion s t :=
  completion_of_finish h (by
    simp only [yields_bind, yields_pure, rangeArg_eq_ok]
    exact fun su _ _ fits _ _ _ _ P _ SK _ => .writeArg inv (Nat.le_of_eq (genLeaf_length ..)) fits)

theorem execTreehash_completion (inv : s.Inv) (h : execTreehash s = .next t) : Completion s t :=
  completion_of_finish h (by
    simp only [yields_bind, yields_pure, check_eq_ok, rangeArg_eq_ok]
    exact fun su _ _ _ _ aligned _ _ _ _ _ fits _ _ _ _ P _ SK _ =>
      .writeArg inv (Nat.le_of_eq (treehash_length aligned)) fits)

theorem execAuthpath_completion (inv : s.Inv) (h : execAuthpath s = .next t) : Completion s t :=
  completion_of_finish h (by
    simp only [yields_bind, yields_pure, rangeArg_eq_ok]
    intro su _ _ _ _ _ _ _ _ fits _ _ _ _ P _ SK _
    refine .writeArg inv (Nat.le_of_eq ?_) fits
    rw [List.length_append, authPath_flatten_length, treeNode_length, Nat.succ_mul])

theorem execRootFromAuth_completion (inv : s.Inv) (h : execRootFromAuth s = .next t) : Completion s t :=
  completion_of_finish h (by
    simp only [yields_bind, yields_pure, rangeArg_eq_ok]
    exact fun su _ _ _ _ _ _ fits _ _ _ _ _ _ P _ L hL auth _ =>
      .writeArg inv (Nat.le_of_eq (rootFromAuth_length _ _ _ _ (readArg_length hL))) fits)

/-! ### BDS -/

theorem execBdsSetup_completion (inv : s.Inv) (h : execBdsSetup s = .next t) : Completion s t :=
  completion_of_finish h (by
    simp only [yields_bind, yields_pure, check_eq_ok, needKey_eq_ok, needFast_eq_ok]
    exact fun _ valid _ fast _ zero => .ofKey inv (.setUp valid fast zero))

theorem execBdsRound_completion (inv : s.Inv) (h : execBdsRound s = .next t) : Completion s t :=
  completion_of_finish h (by
    simp only [yields_bind, yields_pure, check_eq_ok]
    exact fun _ _ _ _ _ below =>
      (BodyOk.ofKey inv (.stepped fun ok => bdsRound_ok (c := keyBds s.key) (suite_n _) ok below)).withRes0 _)

theorem execTreehashUpdate_completion (inv : s.Inv) (h : execTreehashUpdate s = .next t) : Completion s t :=
  completion_of_finish h (by
    simp only [yields_bind, yields_pure, check_eq_ok]
    exact fun _ _ _ _ _ inst _ _ b update =>
      .ofKey inv (.stepped fun ok => thUpdate_ok (c := keyBds s.key) (suite_n _) ok inst update))

theorem execBdsTreehashUpdate_completion (inv : s.Inv) (h : execBdsTreehashUpdate s = .next t) : Completion s t :=
  completion_of_finish h (by
    simp only [yields_bind, yields_pure]
    exact fun _ _ _ _ r update =>
      ((BodyOk.ofKey inv (.stepped fun ok =>
        bdsThUpdate_ok (c := keyBds s.key) (suite_n _) ok update)).withRes0 _).withRes1 _)

theorem execBdsExport_completion (inv : s.Inv) (h : execBdsExport s = .next t) : Completion s t :=
  completion_of_finish h (by
    simp only [yields_bind, yields_pure, needKey_eq_ok, rangeArg_eq_ok]
    intro _ valid _ _ _ fits
    have params := inv.key.loaded valid
    have len := bdsExport_length (c := keyBds s.key) s.bdsSync inv.bds params.even params.kHigh
    exact (BodyOk.writeArg inv (Nat.le_of_eq len) fits).withRes0 _)

/-! ### XMSS -/

theorem keycfgK_lt (s : State) : keycfgK s < 16 := BitVec.isLt _

/-- The checks of key generation make the parameters legal (R400). -/
theorem paramsLegal_of_checks {b : Build} {h k : Nat} {strat : Strategy} (height : h % 2 = 0 ∧ h ≤ 30)
    (relation : 2 ≤ k ∧ k < h ∧ (h - k) % 2 = 0) (cap : h ≤ b.hMax) (kCap : strat = .basic ∨ k ≤ b.kMax) (bits : k < 16) :
    ParamsLegal b h k strat :=
  ⟨height.1, height.2, relation.1, relation.2.1, relation.2.2, cap,
    fun fast => kCap.resolve_left fun basic => (by rw [fast] at basic; cases basic), bits⟩

/-- DecodeDesc succeeds exactly where its four checks hold, and gives the hash function and twice the height nibble
(R402). -/
theorem decodeDesc_eq_ok {d : Bytes} {r : Descriptor} :
    decodeDesc d = .ok r ↔
      hashFnOf ((d.getD 0 0).extractLsb 3 0) = .ok r.hf ∧ d.getD 0 0 >>> 4 = 0 ∧ d.getD 1 0 >>> 4 = 0 ∧ d.getD 2 0 = 0 ∧
        r.h = 2 * (d.getD 1 0 &&& 0x0F).toNat := by
  simp only [decodeDesc, result_bind_eq_ok, check_eq_ok, result_pure, Except.ok.injEq, exists_and_left, exists_const]
  constructor
  · rintro ⟨hf, hash, sigType, addrFmt, reserved, rfl⟩
    exact ⟨hash, sigType, addrFmt, reserved, rfl⟩
  · rintro ⟨hash, sigType, addrFmt, reserved, height⟩
    exact ⟨r.hf, hash, sigType, addrFmt, reserved, by rw [← height]⟩

theorem decodeDesc_height {d : Bytes} {r : Descriptor} (h : decodeDesc d = .ok r) : r.h % 2 = 0 ∧ r.h ≤ 30 := by
  obtain ⟨-, -, -, -, height⟩ := decodeDesc_eq_ok.1 h
  have nibble : (d.getD 1 0 &&& 0x0F).toNat ≤ 15 := by
    rw [BitVec.toNat_and]
    exact Nat.and_le_right
  omega

/-- Loading a key changes the key store, the BDS state and BDS_SYNC only. -/
theorem loadKey_eq (s : State) (hf : HashFn) (h k : Nat) (strat : Strategy) (S : Bytes) :
    loadKey s hf h k strat S =
      { s with
        key := (loadKey s hf h k strat S).key
        bds := (loadKey s hf h k strat S).bds
        bdsSync := (loadKey s hf h k strat S).bdsSync } := by
  cases strat <;> rfl

theorem BodyOk.loadKey {hf : HashFn} {h k : Nat} {strat : Strategy} {S : Bytes} (inv : s.Inv)
    (legal : ParamsLegal s.build h k strat) (seed : S.length = 48) : BodyOk s (loadKey s hf h k strat S) :=
  loadKey_eq s hf h k strat S ▸ .ofKey inv (.loaded legal seed)

theorem execKeygen_completion (inv : s.Inv) (h : execKeygen s = .next t) : Completion s t :=
  completion_of_finish h (by
    simp only [yields_bind, yields_pure, keyRelation, keyHeightCap, keyKCap, check_eq_ok]
    exact fun hf _ _ _ _ height _ relation _ cap _ kCap _ _ S hS =>
      .loadKey inv (paramsLegal_of_checks height relation cap kCap (keycfgK_lt s)) (readArg_length hS))

theorem execKeygenXseed_completion (inv : s.Inv) (h : execKeygenXseed s = .next t) : Completion s t :=
  completion_of_finish h (by
    simp only [yields_bind, yields_pure, keyRelation, keyHeightCap, keyKCap, check_eq_ok]
    exact fun _ _ _ kCap _ _ head _ d desc _ relation _ cap S hS =>
      .loadKey inv (paramsLegal_of_checks (decodeDesc_height desc) relation cap kCap (keycfgK_lt s))
        (Memory.readBytes_length hS))

theorem execGetPk_completion (inv : s.Inv) (h : execGetPk s = .next t) : Completion s t :=
  completion_of_finish h (by
    simp only [yields_bind, yields_pure, rangeArg_eq_ok]
    exact fun _ _ _ fits => (BodyOk.writeArg inv (Nat.le_of_eq (publicKey_length inv.key)) fits).withRes0 _)

theorem execGetSk_completion (inv : s.Inv) (h : execGetSk s = .next t) : Completion s t :=
  completion_of_finish h (by
    simp only [yields_bind, yields_pure, rangeArg_eq_ok]
    exact fun _ _ _ fits => (BodyOk.writeArg inv (Nat.le_of_eq (secretKey_length inv.key)) fits).withRes0 _)

theorem execGetXseed_completion (inv : s.Inv) (h : execGetXseed s = .next t) : Completion s t :=
  completion_of_finish h (by
    simp only [yields_bind, yields_pure, rangeArg_eq_ok]
    exact fun _ _ _ fits => (BodyOk.writeArg inv (Nat.le_of_eq (extendedSeed_length inv.key)) fits).withRes0 _)

theorem execSetIndex_completion (inv : s.Inv) (h : execSetIndex s = .next t) : Completion s t :=
  completion_of_finish h (by
    simp only [yields_bind, check_eq_ok, needKey_eq_ok, needSync_eq_ok]
    intro _ valid _ sync _ below _ le
    have moved : ∀ b, (s.key.strategy = .basic → b = s.bds) →
        (s.key.strategy = .fast → bdsSteps (keyBds s.key) (argN s 1 - s.key.idx.toNat) s.key.idx.toNat s.bds = .ok b) →
        KeyEffect s (keyAt s.key (argN s 1)) b s.bdsSync := fun b basic fast =>
      .moved valid (by omega) le (by omega) basic fun isFast =>
        ⟨by simpa [isFast] using sync, by rw [Nat.min_eq_left (by omega)]; exact fast isFast⟩
    split
    · next fast =>
      simp only [yields_bind, yields_pure]
      exact fun b steps => (BodyOk.ofKey inv (moved b (by simp [fast]) fun _ => steps)).withRes0 _
    · next basic =>
      simp only [pure_bind, yields_pure]
      exact (BodyOk.ofKey inv (moved s.bds (fun _ => rfl) fun fast => absurd fast basic)).withRes0 _)

/-- The path of a signature is h nodes of 32 bytes. -/
theorem signPath_ok (inv : s.Inv) (i : Nat) : (signPath s i).length = s.key.h.toNat ∧ NodesOk (signPath s i) := by
  unfold signPath
  cases s.key.strategy with
  | fast => exact inv.bds.auth
  | basic => exact ⟨authPath_length .., authPath_nodesOk (suite_n _) _ _⟩

/-- The index after SIGN, with the BDS state that SIGN leaves, is a legal move of the key. -/
theorem signStep_effect {b : Bds} (valid : s.key.valid = true) (sync : s.key.strategy = .basic ∨ s.bdsSync = true)
    (below : s.key.idx.toNat < 2 ^ s.key.h.toNat) (step : signStep s s.key.idx.toNat = .ok b) :
    KeyEffect s (keyAt s.key (s.key.idx.toNat + 1)) b s.bdsSync := by
  refine .moved valid below (Nat.le_succ _) below (fun basic => ?_) (fun fast => ?_)
  · rw [signStep, if_neg (by simp [basic])] at step
    exact (Except.ok.inj step).symm
  · refine ⟨by simpa [fast] using sync, ?_⟩
    by_cases last : s.key.idx.toNat < 2 ^ s.key.h.toNat - 1
    · rw [signStep, if_pos ⟨fast, last⟩] at step
      rwa [Nat.min_eq_left (by omega), Nat.add_sub_cancel_left, bdsSteps_one]
    · rw [signStep, if_neg (by simp [last])] at step
      rw [Nat.min_eq_right (by omega), Nat.sub_eq_zero_of_le (by omega)]
      exact step.symm ▸ rfl

theorem execSign_completion (inv : s.Inv) (h : execSign s = .next t) : Completion s t :=
  completion_of_finish h (by
    simp only [yields_bind, yields_pure, check_eq_ok, needKey_eq_ok, needSync_eq_ok, rangeArg_eq_ok]
    intro _ valid _ sync _ below _ fits _ _ M _ b step
    obtain ⟨levels, nodes⟩ := signPath_ok inv s.key.idx.toNat
    have len : (signCore s.key s.key.idx.toNat M (signPath s s.key.idx.toNat)).length = sigSize s.key.h.toNat := by
      rw [signCore_length nodes, levels, sigSize]
    exact (((BodyOk.ofKey inv (signStep_effect valid sync below step)).writeBuf (len.symm ▸ fits)).withRes0 _).withRes1 _)

theorem execVerify_completion (inv : s.Inv) (h : execVerify s = .next t) : Completion s t :=
  completion_of_finish h (by
    simp only [yields_bind, yields_pure]
    intros
    exact ⟨rfl, inv.sponge, inv.bufForm, inv.bufRange, .unchanged⟩)

theorem execSigSize_completion (inv : s.Inv) (h : execSigSize s = .next t) : Completion s t :=
  completion_of_finish h (by
    simp only [yields_bind, yields_pure]
    exact fun _ _ => (BodyOk.refl inv).withRes0 _)

theorem execHeightFromSigSize_completion (inv : s.Inv) (h : execHeightFromSigSize s = .next t) : Completion s t :=
  completion_of_finish h (by
    simp only [yields_bind, yields_pure]
    exact fun _ _ _ _ _ _ => (BodyOk.refl inv).withRes0 _)

/-! ### All commands -/

/-- Every command's commit step, from a state that meets the invariant, is a completion. -/
theorem exec_completion {i : Instr} (inv : s.Inv) (h : exec i s = .next t) : Completion s t := by
  cases i with
  | nop => exact execNop_completion inv h
  | keyClear => exact execKeyClear_completion inv h
  | keccakF => exact execKeccakF_completion inv h
  | spongeInit sel => exact execSpongeInit_completion inv h
  | spongeAbsorb => exact execSpongeAbsorb_completion inv h
  | spongeSqueeze => exact execSpongeSqueeze_completion inv h
  | shake128 => exact execShake128_completion inv h
  | shake256 => exact execShake256_completion inv h
  | sha256 => exact execSha256_completion inv h
  | coreHash => exact execCoreHash_completion inv h
  | prf => exact execPrf_completion inv h
  | hashF => exact execHashF_completion inv h
  | hashH => exact execHashH_completion inv h
  | hMsg => exact execHMsg_completion inv h
  | wotsExpandSeed => exact execWotsExpandSeed_completion inv h
  | wotsGenChain => exact execWotsGenChain_completion inv h
  | wotsBaseW => exact execWotsBaseW_completion inv h
  | wotsDigits => exact execWotsDigits_completion inv h
  | wotsPkgen => exact execWotsPkgen_completion inv h
  | wotsSign => exact execWotsSign_completion inv h
  | wotsPkFromSig => exact execWotsPkFromSig_completion inv h
  | otsSeed => exact execOtsSeed_completion inv h
  | lTree => exact execLTree_completion inv h
  | genLeaf => exact execGenLeaf_completion inv h
  | treehash => exact execTreehash_completion inv h
  | authpath => exact execAuthpath_completion inv h
  | rootFromAuth => exact execRootFromAuth_completion inv h
  | bdsSetup => exact execBdsSetup_completion inv h
  | bdsRound => exact execBdsRound_completion inv h
  | treehashUpdate => exact execTreehashUpdate_completion inv h
  | bdsTreehashUpdate => exact execBdsTreehashUpdate_completion inv h
  | bdsExport => exact execBdsExport_completion inv h
  | keygen => exact execKeygen_completion inv h
  | keygenXseed => exact execKeygenXseed_completion inv h
  | getPk => exact execGetPk_completion inv h
  | getSk => exact execGetSk_completion inv h
  | getXseed => exact execGetXseed_completion inv h
  | setIndex => exact execSetIndex_completion inv h
  | sign => exact execSign_completion inv h
  | verify => exact execVerify_completion inv h
  | sigSize => exact execSigSize_completion inv h
  | heightFromSigSize => exact execHeightFromSigSize_completion inv h

end

end Sys2Proof.Machine
end

section
/-! PROOFS. The invariants of every step (spec/10_state.md R39 to R60): what a host access can do, what one step can do, and from
that that the invariant, the sound key and the lock step of BDS_SYNC are kept. -/

namespace Sys2Proof.Machine

/-! ### Host accesses (spec/20_memory.md R101 to R103, spec/40_control.md R170 to R172) -/

/-- Everything a host access that answers a next state can have done. -/
inductive HostEffect (s : State) : State → Prop
  | read (v : Word) : HostEffect s { s with readData := v }
  | busErrorRead : HostEffect s s.busErrorRead
  | busErrorWrite : HostEffect s s.busErrorWrite
  | overrun : HostEffect s s.overrun
  | issue (c : Word) : HostEffect s (s.issue c)
  | intEn (v : Word) : HostEffect s { s with intEn := v &&& intMask }
  | intStatus (v : Word) : HostEffect s { s with intStatus := s.intStatus &&& ~~~v }
  | cfg (idle : s.pending = none) (v : Word) : HostEffect s { s with cfg := v &&& cfgMask }
  | keycfg (idle : s.pending = none) (v : Word) : HostEffect s { s with keycfg := v &&& keycfgMask }
  | arg (idle : s.pending = none) (a : Args) : HostEffect s { s with arg := a }
  | adrs (idle : s.pending = none) (a : Adrs) : HostEffect s { s with adrs := a }
  | ks (A : Lanes) : HostEffect s { s with ks := A }
  | buf {p : Nat} {v : Bytes} (fits : p + v.length ≤ s.build.buf.bytes) : HostEffect s (s.writeBuf p v)

theorem busy_eq_false {s : State} : s.busy = false ↔ s.pending = none := by simp [State.busy]

/-- A write that needs BUSY = 0 either finds it so or is a bus error. -/
theorem whenIdle_effect {s t : State} (h : s.pending = none → HostEffect s t) : HostEffect s (s.whenIdle t) := by
  unfold State.whenIdle
  split
  · exact .busErrorWrite
  · next idle => exact h (busy_eq_false.1 (by simpa using idle))

theorem csrWrite_effect (s : State) (v : Word) (r : Csr) : HostEffect s (csrWrite s v r) := by
  cases r with
  | cmd =>
    rw [csrWrite]
    split
    · exact .overrun
    · exact .issue v
  | intEn => exact .intEn v
  | intStatus => exact .intStatus v
  | cfg => exact whenIdle_effect fun idle => .cfg idle v
  | keycfg => exact whenIdle_effect fun idle => .keycfg idle v
  | arg i => exact whenIdle_effect fun idle => .arg idle _
  | adrs j => exact whenIdle_effect fun idle => .adrs idle _
  | ksLo i => exact whenIdle_effect fun _ => .ks _
  | ksHi i => exact whenIdle_effect fun _ => .ks _
  | _ => exact .busErrorWrite

/-- A BUF access that is performed lies in BUF, is aligned, and finds BUSY = 0 (R101). -/
theorem bufTarget_eq_some {s : State} {off : Nat} {size : AccessSize} {p n : Nat} :
    bufTarget s off size = some (p, n) ↔
      size.bytes = some n ∧ 0x4000 ≤ off ∧ (off - 0x4000) % n = 0 ∧ off - 0x4000 + n ≤ s.build.buf.bytes ∧
        s.busy = false ∧ off - 0x4000 = p := by
  unfold bufTarget
  cases size.bytes with
  | none => simp
  | some m =>
    simp only [Option.ite_none_right_eq_some, Option.some.injEq, Prod.mk.injEq]
    constructor
    · rintro ⟨⟨low, aligned, high, idle⟩, rfl, rfl⟩
      exact ⟨rfl, low, aligned, high, idle, rfl⟩
    · rintro ⟨rfl, low, aligned, high, idle, rfl⟩
      exact ⟨⟨low, aligned, high, idle⟩, rfl, rfl⟩

theorem hostRead_effect {s t : State} {off : Nat} {size : AccessSize} (h : hostRead s off size = .next t) :
    HostEffect s t := by
  unfold hostRead at h
  split at h
  · cases h
    exact .read _
  · split at h
    · cases h
      exact .busErrorRead
    · split at h
      · cases h
        exact .read _
      · cases h
      · cases h
        exact .busErrorRead

theorem hostWrite_effect (s : State) (off : Nat) (size : AccessSize) (v : Word) : HostEffect s (hostWrite s off size v) := by
  unfold hostWrite
  split
  · exact csrWrite_effect ..
  · split
    · exact .busErrorWrite
    · next target =>
      obtain ⟨-, -, -, high, -, rfl⟩ := bufTarget_eq_some.1 target
      exact .buf (by rwa [toLE_length])

theorem hostAccess_effect {s t : State} {a : Access} (h : hostAccess s a = .next t) : HostEffect s t := by
  cases a with
  | read off size => exact hostRead_effect h
  | write off size v =>
    cases h
    exact hostWrite_effect ..

/-! ### One step (spec/70_reset_and_hazards.md R512) -/

/-- Everything a move that answers a next state can have done. -/
inductive MoveEffect (s : State) : State → Prop
  | host {t : State} (effect : HostEffect s t) : MoveEffect s t
  | reset : MoveEffect s (resetMove s)
  | idle : MoveEffect s s
  | commit {p : Pending} {t : State} (busy : s.pending = some p) (completion : Completion s t) : MoveEffect s t

theorem sequencerTurn_effect {s t : State} (inv : s.Inv) (h : sequencerTurn s = .next t) : MoveEffect s t := by
  unfold sequencerTurn at h
  split at h
  · next p busy =>
    unfold commitWord at h
    split at h
    · exact .commit busy (exec_completion inv h)
    · next e _ =>
      cases h
      exact .commit busy (.failure _)
  · cases h
    exact .idle

/-- Every statement of the invariant leaves out the moves still to come. -/
theorem State.Inv.withSched {s : State} (inv : s.Inv) (moves : List Move) : State.Inv { s with sched := moves } :=
  ⟨inv.build, ⟨inv.reserved.intEn, inv.reserved.intStatus, inv.reserved.cfg, inv.reserved.keycfg, inv.reserved.errCode⟩,
    inv.sponge, inv.bufForm, inv.bufRange, inv.key, inv.bds, inv.sync,
    ⟨inv.report.pending, inv.report.err, inv.report.noErr⟩⟩

/-- One step is one move, made in the state whose list of moves is shorter. -/
theorem step_effect {s t : State} (inv : s.Inv) (h : step s = .next t) : ∃ moves, MoveEffect { s with sched := moves } t := by
  unfold step at h
  split at h
  · exact ⟨s.sched, sequencerTurn_effect inv h⟩
  · next m rest _ =>
    refine ⟨rest, ?_⟩
    cases m with
    | host a => exact .host (hostAccess_effect h)
    | sequencer => exact sequencerTurn_effect (inv.withSched rest) h
    | reset =>
      cases h
      exact .reset

/-! ### The invariant -/

/-- Reserved bits that are clear in one word stay clear under OR with defined bits. -/
theorem or_reserved_clear {x f mask : Word} (hx : x &&& ~~~mask = 0) (hf : f &&& ~~~mask = 0) : (x ||| f) &&& ~~~mask = 0 := by
  simp [BitVec.and_or_distrib_right, hx, hf]

theorem and_reserved_clear {x mask : Word} (y : Word) (hx : x &&& ~~~mask = 0) : (x &&& y) &&& ~~~mask = 0 := by
  simp [BitVec.and_assoc, BitVec.and_comm y, ← BitVec.and_assoc x, hx]

theorem masked_reserved_clear (x mask : Word) : (x &&& mask) &&& ~~~mask = 0 := by simp [BitVec.and_assoc]

/-- The invariant of a state that differs from another only in its registers and in BUF. -/
theorem State.Inv.ofRegisters {s t : State} (inv : s.Inv) (form : t.buf.wf) (range : t.buf.below s.build.buf.bytes)
    (reserved : ReservedClear t) (report : ReportOk t) (build : t.build = s.build := by rfl) (sp : t.sp = s.sp := by rfl)
    (key : t.key = s.key := by rfl) (bds : t.bds = s.bds := by rfl) (sync : t.bdsSync = s.bdsSync := by rfl) : t.Inv :=
  ⟨build ▸ inv.build, reserved, sp ▸ inv.sponge, form, build ▸ range, build ▸ key ▸ inv.key, key ▸ bds ▸ inv.bds,
    sync ▸ key ▸ inv.sync, report⟩

/-- The report of a state with an empty latch whose report registers are those of another state. -/
theorem ReportOk.ofIdle {s t : State} (ok : ReportOk s) (idle : t.pending = none) (done : t.done = s.done := by rfl)
    (err : t.err = s.err := by rfl) (verifyOk : t.verifyOk = s.verifyOk := by rfl) (errCode : t.errCode = s.errCode := by rfl)
    (res0 : t.res0 = s.res0 := by rfl) (res1 : t.res1 = s.res1 := by rfl) : ReportOk t :=
  ⟨fun p busy => absurd busy (by simp [idle]), by rw [done, err, verifyOk, res0, res1]; exact ok.err,
    by rw [err, errCode]; exact ok.noErr⟩

/-- A host access keeps the invariant. -/
theorem hostEffect_inv {s t : State} (inv : s.Inv) (h : HostEffect s t) : t.Inv := by
  obtain ⟨intEn, intStatus, cfg, keycfg, errCode⟩ := inv.reserved
  obtain ⟨pending, err, noErr⟩ := inv.report
  have flag : ∀ f, f &&& ~~~intMask = 0 → (s.intStatus ||| f) &&& ~~~intMask = 0 := fun f => or_reserved_clear intStatus
  cases h with
  | read v =>
    exact inv.ofRegisters inv.bufForm inv.bufRange ⟨intEn, intStatus, cfg, keycfg, errCode⟩ ⟨pending, err, noErr⟩
  | busErrorRead =>
    exact inv.ofRegisters inv.bufForm inv.bufRange ⟨intEn, flag busErrIP (by decide), cfg, keycfg, errCode⟩
      ⟨pending, err, noErr⟩
  | busErrorWrite =>
    exact inv.ofRegisters inv.bufForm inv.bufRange ⟨intEn, flag busErrIP (by decide), cfg, keycfg, errCode⟩
      ⟨pending, err, noErr⟩
  | overrun =>
    exact inv.ofRegisters inv.bufForm inv.bufRange ⟨intEn, flag overrunIP (by decide), cfg, keycfg, errCode⟩
      ⟨pending, err, noErr⟩
  | issue c => exact issue_inv inv c
  | intEn v =>
    exact inv.ofRegisters inv.bufForm inv.bufRange ⟨masked_reserved_clear v intMask, intStatus, cfg, keycfg, errCode⟩
      ⟨pending, err, noErr⟩
  | intStatus v =>
    exact inv.ofRegisters inv.bufForm inv.bufRange ⟨intEn, and_reserved_clear (~~~v) intStatus, cfg, keycfg, errCode⟩
      ⟨pending, err, noErr⟩
  | cfg idle v =>
    exact inv.ofRegisters inv.bufForm inv.bufRange ⟨intEn, intStatus, masked_reserved_clear v cfgMask, keycfg, errCode⟩
      (inv.report.ofIdle idle)
  | keycfg idle v =>
    exact inv.ofRegisters inv.bufForm inv.bufRange ⟨intEn, intStatus, cfg, masked_reserved_clear v keycfgMask, errCode⟩
      (inv.report.ofIdle idle)
  | arg idle a =>
    exact inv.ofRegisters inv.bufForm inv.bufRange ⟨intEn, intStatus, cfg, keycfg, errCode⟩ (inv.report.ofIdle idle)
  | adrs idle a =>
    exact inv.ofRegisters inv.bufForm inv.bufRange ⟨intEn, intStatus, cfg, keycfg, errCode⟩ (inv.report.ofIdle idle)
  | ks A =>
    exact inv.ofRegisters inv.bufForm inv.bufRange ⟨intEn, intStatus, cfg, keycfg, errCode⟩ ⟨pending, err, noErr⟩
  | buf fits =>
    exact inv.ofRegisters (Memory.write_wf _ _ inv.bufForm) (Memory.write_below inv.bufRange fits)
      ⟨intEn, intStatus, cfg, keycfg, errCode⟩ ⟨pending, err, noErr⟩

/-- A reset keeps the invariant: the reset state meets it under every legal build. -/
theorem resetMove_inv {s : State} (inv : s.Inv) : (resetMove s).Inv where
  build := inv.build
  reserved :=
    have clear : ∀ mask : Word, 0 &&& ~~~mask = 0 := fun _ => BitVec.zero_and
    ⟨clear _, clear _, clear _, clear _, (rfl : BitVec.extractLsb 31 24 (0 : Word) = 0)⟩
  sponge := ⟨Nat.zero_le _, nofun, fun _ => ⟨rfl, rfl⟩⟩
  bufForm := Memory.reset_wf
  bufRange := Memory.reset_below _
  key := ⟨rfl, rfl, rfl, rfl, rfl, rfl, rfl, nofun, fun _ => rfl⟩
  bds := freshBds_ok 0 0
  sync := nofun
  report := ⟨nofun, nofun, fun _ => rfl⟩

theorem loadKey_build (s : State) (hf : HashFn) (h k : Nat) (strat : Strategy) (S : Bytes) :
    (loadKey s hf h k strat S).build = s.build := by
  rw [loadKey_eq]

theorem keyParamsOk_keyAt {b : Build} {key : KeyStore} {j : Nat} (ok : KeyParamsOk b key) (bound : j ≤ 2 ^ key.h.toNat) :
    KeyParamsOk b (keyAt key j) := by
  refine { ok with idx := ?_ }
  exact Nat.le_trans (by simpa [keyAt] using Nat.mod_le _ _) bound

/-- What a command may do to the key store and the BDS state keeps their invariants. -/
theorem keyEffect_ok {s : State} (inv : s.Inv) {key : KeyStore} {bds : Bds} {sync : Bool} (h : KeyEffect s key bds sync) :
    KeyOk s.build key ∧ BdsOk key.h.toNat key.k.toNat bds ∧
      (sync = true → key.valid = true ∧ key.strategy = .fast) := by
  cases h with
  | unchanged => exact ⟨inv.key, inv.bds, inv.sync⟩
  | cleared =>
    exact ⟨⟨rfl, rfl, rfl, rfl, rfl, rfl, rfl, nofun, fun _ => rfl⟩, freshBds_ok 0 0, nofun⟩
  | @loaded hf _ _ _ _ legal seed =>
    have loaded := loadKey_inv (hf := hf) inv legal seed
    exact ⟨loadKey_build .. ▸ loaded.key, loaded.bds, loaded.sync⟩
  | setUp valid fast zero =>
    exact ⟨inv.key, bdsSetup_ok (c := keyBds s.key) (suite_n _) (freshBds_ok _ _), fun _ => ⟨valid, fast⟩⟩
  | stepped shape => exact ⟨inv.key, shape inv.bds, nofun⟩
  | @moved j _ valid below le bound basic fast =>
    refine ⟨?_, ?_, inv.sync⟩
    · exact ⟨inv.key.sigType, inv.key.addrFmt, inv.key.skSeed, inv.key.skPrf, inv.key.pubSeed, inv.key.root, inv.key.rawSeed,
        fun _ => keyParamsOk_keyAt (inv.key.loaded valid) bound, fun empty => absurd (valid.symm.trans empty) (by decide)⟩
    · show BdsOk s.key.h.toNat s.key.k.toNat bds
      cases strategy : s.key.strategy with
      | basic => exact basic strategy ▸ inv.bds
      | fast => exact bdsSteps_ok (c := keyBds s.key) (suite_n _) inv.bds (by simp only [keyBds]; omega) (fast strategy).2

theorem errorWord_reserved (e : CmdError) (opcode : BitVec 8) : (errorWord e opcode).extractLsb 31 24 = 0 := by
  rw [errorWord, BitVec.extractLsb, BitVec.extractLsb'_append_eq_of_le (by decide),
    BitVec.extractLsb'_append_eq_of_le (by decide), BitVec.extractLsb'_append_eq_of_le (by decide)]
  rfl

/-- The commit step keeps the invariant. -/
theorem completion_inv {s t : State} {p : Pending} (inv : s.Inv) (busy : s.pending = some p) (h : Completion s t) : t.Inv := by
  obtain ⟨done, err, verifyOk, errCode, res0, res1, -⟩ := inv.report.pending p busy
  have flag : ∀ f, f &&& ~~~intMask = 0 → (s.intStatus ||| f) &&& ~~~intMask = 0 :=
    fun f => or_reserved_clear inv.reserved.intStatus
  cases h with
  | @success shadow ok =>
    obtain ⟨key, bds, sync⟩ := keyEffect_ok inv ok.key
    obtain ⟨frame, sponge, bufForm, bufRange, -⟩ := ok
    rw [frame]
    exact ⟨inv.build,
      ⟨inv.reserved.intEn, flag doneIP (by decide), inv.reserved.cfg, inv.reserved.keycfg, inv.reserved.errCode⟩,
      sponge, bufForm, bufRange, key, bds, sync,
      ⟨nofun, fun isErr => absurd (err.symm.trans isErr) (by decide), fun _ => errCode⟩⟩
  | failure e =>
    exact inv.ofRegisters inv.bufForm inv.bufRange
      ⟨inv.reserved.intEn, flag _ (by decide), inv.reserved.cfg, inv.reserved.keycfg, errorWord_reserved ..⟩
      ⟨nofun, fun _ => ⟨rfl, verifyOk, res0, res1⟩, nofun⟩

/-- Settles O7: a step is a move, and the invariant is kept by every host access, by a reset and by every completion. -/
theorem stepKeepsInvariant : Obligations.StepKeepsInvariant := by
  intro s t inv h
  obtain ⟨moves, effect⟩ := step_effect inv h
  have inv := inv.withSched moves
  cases effect with
  | host effect => exact hostEffect_inv inv effect
  | reset => exact resetMove_inv inv
  | idle => exact inv
  | commit busy completion => exact completion_inv inv busy completion

/-! ### The key and the lock step (R55, R59) -/

/-- A host access touches neither the key store nor the BDS state. -/
theorem HostEffect.key_frame {s t : State} (h : HostEffect s t) : t.key = s.key ∧ t.bds = s.bds ∧ t.bdsSync = s.bdsSync := by
  cases h <;> exact ⟨rfl, rfl, rfl⟩

/-- A property of the key store, the BDS state and BDS_SYNC is kept by every step if a reset makes it true and every command's
effect keeps it. -/
theorem step_keeps_key {P : KeyStore → Bds → Bool → Prop} (reset : P clearedKey (freshBds 0 0) false)
    (effect : ∀ {s : State} {key : KeyStore} {bds : Bds} {sync : Bool}, s.Inv → P s.key s.bds s.bdsSync →
      KeyEffect s key bds sync → P key bds sync)
    {s t : State} (inv : s.Inv) (h : P s.key s.bds s.bdsSync) (next : step s = .next t) : P t.key t.bds t.bdsSync := by
  obtain ⟨moves, move⟩ := step_effect inv next
  cases move with
  | host access =>
    obtain ⟨key, bds, sync⟩ := access.key_frame
    rw [key, bds, sync]
    exact h
  | reset => exact reset
  | idle => exact h
  | commit _ completion =>
    cases completion with
    | success ok => exact effect (inv.withSched moves) h ok.key
    | failure e => exact h

/-- Items 5 and 6 of R55, of a key store. -/
def KeyStore.Sound (key : KeyStore) : Prop :=
  key.valid = true →
    key.skSeed ++ key.skPrf ++ key.pubSeed = shake256 key.rawSeed 96 ∧ key.root = treeNode (keyTree key) key.h.toNat 0

theorem keySound_iff {s : State} : s.KeySound ↔ s.key.Sound := Iff.rfl

/-- The three 32-byte parts of a string of 96 bytes make it up. -/
theorem slices_append {E : Bytes} (h : E.length = 96) : slice E 0 32 ++ slice E 32 32 ++ slice E 64 32 = E := by
  have last : (E.drop 64).take 32 = E.drop 64 := List.take_of_length_le (by simp [h])
  rw [slice, slice, slice, last, List.drop_zero, ← List.take_add, List.take_append_drop]

theorem ParamsLegal.toNat_h {b : Build} {h k : Nat} {strat : Strategy} (legal : ParamsLegal b h k strat) :
    (BitVec.ofNat 8 h).toNat = h := by
  have := legal.high
  exact Nat.mod_eq_of_lt (by omega)

theorem ParamsLegal.toNat_k {b : Build} {h k : Nat} {strat : Strategy} (legal : ParamsLegal b h k strat) :
    (BitVec.ofNat 4 k).toNat = k :=
  Nat.mod_eq_of_lt legal.kBits

/-- A loaded key's seeds are the expansion of its raw seed and its root that of its tree, for both strategies: BdsSetup returns
the same root as the recursion of R325. -/
theorem loadKey_sound {s : State} {hf : HashFn} {h k : Nat} {strat : Strategy} {S : Bytes}
    (legal : ParamsLegal s.build h k strat) : (loadKey s hf h k strat S).key.Sound := by
  intro _
  have seeds := slices_append (shake256_length S 96)
  cases strat with
  | fast => exact ⟨seeds, (bdsSetup_root _ _).trans (congrArg (treeNode _ · 0) legal.toNat_h.symm)⟩
  | basic => exact ⟨seeds, congrArg (treeNode _ · 0) legal.toNat_h.symm⟩

/-- Settles O8: only key generation makes a new key, and `loadKey_sound` says that it is sound; SIGN and SET_INDEX move the index
alone. -/
theorem stepKeepsKeySound : Obligations.StepKeepsKeySound := by
  intro s t inv sound next
  rw [keySound_iff] at *
  refine step_keeps_key (P := fun key _ _ => key.Sound) nofun ?_ inv sound next
  intro s key bds sync _ sound effect
  cases effect with
  | cleared => exact nofun
  | loaded legal _ => exact loadKey_sound legal
  | unchanged => exact sound
  | setUp => exact sound
  | stepped => exact sound
  | moved => exact sound

/-- The lock step of R59, of a key store with its BDS state. -/
def LockedAt (key : KeyStore) (bds : Bds) (sync : Bool) : Prop :=
  sync = true →
    bdsSteps (keyBds key) (min key.idx.toNat (2 ^ key.h.toNat - 1)) 0
      (bdsSetup (keyBds key) (freshBds key.h.toNat key.k.toNat)).1 = .ok bds

theorem lockStep_iff {s : State} : s.LockStep ↔ LockedAt s.key s.bds s.bdsSync := Iff.rfl

/-- The state that setup leaves is the one of the scheduling contract for index 0. -/
theorem lockedAt_setup {key : KeyStore} (zero : key.idx = 0) :
    LockedAt key (bdsSetup (keyBds key) (freshBds key.h.toNat key.k.toNat)).1 true := by
  intro _
  rw [zero]
  exact congrArg (bdsSteps _ · 0 _) (Nat.zero_min _)

section
variable {s : State} {hf : HashFn} {h k : Nat} {strat : Strategy} {S : Bytes} (legal : ParamsLegal s.build h k strat)
include legal

theorem loadKey_h : (loadKey s hf h k strat S).key.h.toNat = h := by cases strat <;> exact legal.toNat_h

theorem loadKey_k : (loadKey s hf h k strat S).key.k.toNat = k := by cases strat <;> exact legal.toNat_k

theorem keyBds_loadKey :
    keyBds (loadKey s hf h k strat S).key = { tree := keyTree (loadKey s hf h k strat S).key, h := h, k := k } := by
  rw [keyBds, loadKey_h legal, loadKey_k legal]

/-- A loaded Fast key starts in lock step. -/
theorem loadKey_locked :
    LockedAt (loadKey s hf h k strat S).key (loadKey s hf h k strat S).bds (loadKey s hf h k strat S).bdsSync := by
  cases strat with
  | basic => exact nofun
  | fast =>
    have start := lockedAt_setup (key := (loadKey s hf h k .fast S).key) rfl
    rw [keyBds_loadKey legal, loadKey_h legal, loadKey_k legal] at start
    exact start

end

/-- Moving a key that is in lock step by the steps from its index on keeps it there. -/
theorem lockedAt_moved {key : KeyStore} {bds b : Bds} {j : Nat} (locked : LockedAt key bds true)
    (high : key.h.toNat ≤ 30) (below : key.idx.toNat < 2 ^ key.h.toNat) (le : key.idx.toNat ≤ j)
    (bound : j ≤ 2 ^ key.h.toNat)
    (steps : bdsSteps (keyBds key) (min j (2 ^ key.h.toNat - 1) - key.idx.toNat) key.idx.toNat bds = .ok b) :
    LockedAt (keyAt key j) b true := by
  intro _
  have small : 2 ^ key.h.toNat ≤ 2 ^ 30 := Nat.pow_le_pow_right (by decide) high
  have index : (keyAt key j).idx.toNat = j := Nat.mod_eq_of_lt (by omega)
  have before := locked rfl
  rw [Nat.min_eq_left (by omega)] at before
  have whole := bdsSteps_add before (by rwa [Nat.zero_add])
  rw [Nat.add_sub_cancel' (by omega)] at whole
  rw [index]
  exact whole

/-- Settles O9: setup starts the lock step, SIGN and SET_INDEX go on from the index the key has, and every other command that
touches the BDS state clears BDS_SYNC. -/
theorem stepKeepsLockStep : Obligations.StepKeepsLockStep := by
  intro s t inv locked next
  rw [lockStep_iff] at *
  refine step_keeps_key (P := LockedAt) nofun ?_ inv locked next
  intro s key bds sync inv locked effect
  cases effect with
  | unchanged => exact locked
  | cleared => exact nofun
  | loaded legal _ => exact loadKey_locked legal
  | setUp _ _ zero => exact lockedAt_setup zero
  | stepped => exact nofun
  | moved valid below le bound _ fast =>
    intro isSync
    obtain ⟨-, isFast⟩ := inv.sync isSync
    rw [isSync] at locked
    exact lockedAt_moved locked (inv.key.loaded valid).high below le bound (fast isFast).2 rfl

end Sys2Proof.Machine
end

section
/-! PROOFS. Only the four sponge commands see KS and SP (spec/10_state.md R61): every other command's body, run under another KS
and SP, gives the same value with that KS and SP in it. -/

namespace Sys2Proof.Machine

/-- The state with KS and SP replaced. -/
abbrev State.withSponge (ks : Lanes) (sp : SpongeCtl) (s : State) : State := { s with ks := ks, sp := sp }

/-- A commit step does not look at KS and SP: it carries them over. -/
theorem finish_withSponge {s : State} {ks : Lanes} {sp : SpongeCtl} {r r' : Result State}
    (body : r' = State.withSponge ks sp <$> r) :
    finish (s.withSponge ks sp) r' = mapNext (State.withSponge ks sp) (finish s r) := by
  subst body
  cases r with
  | ok shadow => rfl
  | error e => cases e <;> rfl

theorem loadKey_withSponge (s : State) (ks : Lanes) (sp : SpongeCtl) (hf : HashFn) (h k : Nat) (strat : Strategy) (S : Bytes) :
    loadKey (s.withSponge ks sp) hf h k strat S = (loadKey s hf h k strat S).withSponge ks sp := by
  cases strat <;> rfl

/-- Settles O16. The checks and reads of a body do not look at KS and SP, so replacing these moves through the body's sequence
to the state it returns; a loaded key (`loadKey_withSponge`) and the branch of SET_INDEX are where more than a store happens
there. -/
theorem privateHashContexts : Obligations.PrivateHashContexts := by
  intro i s ks sp outside
  cases i with
  | keccakF => cases outside
  | spongeInit => cases outside
  | spongeAbsorb => cases outside
  | spongeSqueeze => cases outside
  | nop => rfl
  | keyClear => rfl
  | keygen =>
    refine finish_withSponge ?_
    simp only [map_bind, map_pure, ← loadKey_withSponge]
    rfl
  | keygenXseed =>
    refine finish_withSponge ?_
    simp only [map_bind, map_pure, ← loadKey_withSponge]
    rfl
  | setIndex =>
    refine finish_withSponge ?_
    simp only [map_bind, apply_ite (State.withSponge ks sp <$> ·), map_pure]
    rfl
  | _ =>
    refine finish_withSponge ?_
    simp only [map_bind, map_pure]
    rfl

end Sys2Proof.Machine
end

section
/-! PROOFS. The host's view of the registers (spec/10_state.md R37 to R48, R62, R63, R462) and the bus errors
(spec/20_memory.md R103). -/

namespace Sys2Proof.Machine

/-! ### Bus errors (spec/20_memory.md R103) -/

/-- Every register lies in the first 512 bytes of the window, at a multiple of 4 (R63). -/
theorem csrAt_eq_some_bounds {off : Nat} {r : Csr} (h : csrAt off = some r) : off < 0x200 ∧ off % 4 = 0 := by
  have table : ∀ p ∈ csrTable, p.1 < 0x200 := by decide
  unfold csrAt at h
  split at h
  · cases h
  · next aligned =>
    refine ⟨Nat.lt_of_not_le fun high => ?_, by omega⟩
    rw [if_neg (by omega), if_neg (by omega), if_neg (by omega),
      List.lookup_eq_none_iff.2 fun p hp => by simpa using Nat.ne_of_gt (Nat.lt_of_lt_of_le (table p hp) high)] at h
    cases h

theorem csrTarget_eq_some {off : Nat} {size : AccessSize} {r : Csr} :
    csrTarget off size = some r ↔ size = .word ∧ csrAt off = some r := by
  simp [csrTarget]

/-- An access reaches no byte of BUF unless R101 allows it. -/
theorem bufTarget_eq_none {s : State} {off : Nat} {size : AccessSize}
    (h : ∀ n, size.bytes = some n → 0x4000 ≤ off → (off - 0x4000) % n = 0 → off - 0x4000 + n ≤ s.build.buf.bytes →
      s.busy ≠ false) : bufTarget s off size = none := by
  refine Option.eq_none_iff_forall_ne_some.2 fun ⟨p, n⟩ target => ?_
  obtain ⟨count, low, aligned, high, idle, -⟩ := bufTarget_eq_some.1 target
  exact h n count low aligned high idle

theorem bytes_eq_some {size : AccessSize} {n : Nat} (h : size.bytes = some n) : n = 1 ∨ n = 2 ∨ n = 4 := by
  cases size <;> simp_all [AccessSize.bytes]

theorem regOf_eq_some {off : Nat} {r : Csr} (h : regOf off = some r) : off < 0x200 := by
  have := csrAt_eq_some_bounds h
  omega

/-- A 4-byte access at a register's own offset reaches that register. -/
theorem regOf_of_csrTarget {off : Nat} {size : AccessSize} {r : Csr} (h : csrTarget off size = some r) :
    regOf off = some r := by
  obtain ⟨-, found⟩ := csrTarget_eq_some.1 h
  obtain ⟨-, aligned⟩ := csrAt_eq_some_bounds found
  rw [regOf, aligned]
  exact found

/-- The access reaches neither a register nor BUF, or it writes a register that R102 and R171 do not let it write. -/
def Rejected (s : State) (a : Access) : Prop :=
  (csrTarget a.offset a.size = none ∧ bufTarget s a.offset a.size = none) ∨
    ∃ off size v r, a = .write off size v ∧ csrTarget off.toNat size = some r ∧ csrWrite s v r = s.busErrorWrite

/-- What a bus error leaves: BUSERR_IP is set, and a read returns 0. -/
def State.busError (s : State) : Access → State
  | .read _ _ => s.busErrorRead
  | .write _ _ _ => s.busErrorWrite

theorem hostAccess_rejected {s : State} {a : Access} (h : Rejected s a) : hostAccess s a = .next (s.busError a) := by
  rcases h with ⟨csr, buf⟩ | ⟨off, size, v, r, rfl, csr, write⟩
  · cases a with
    | read off size =>
      simp only [Access.offset, Access.size] at csr buf
      simp only [hostAccess, hostRead, csr, buf, State.busError]
    | write off size v =>
      simp only [Access.offset, Access.size] at csr buf
      simp only [hostAccess, hostWrite, csr, buf, State.busError]
  · simp only [hostAccess, hostWrite, csr, write, State.busError]

theorem csrWrite_readOnly {s : State} {v : Word} {r : Csr} (h : r.readOnly = true) : csrWrite s v r = s.busErrorWrite := by
  cases r <;> simp_all [csrWrite, Csr.readOnly]

/-- While BUSY = 1 every register but CMD, INT_EN and INT_STATUS rejects a write (R171). -/
theorem csrWrite_busy {s : State} {v : Word} {r : Csr} (h : r.writableBusy = false) (busy : s.busy = true) :
    csrWrite s v r = s.busErrorWrite := by
  cases readOnly : r.readOnly with
  | true => exact csrWrite_readOnly readOnly
  | false => cases r <;> simp_all [csrWrite, State.whenIdle, Csr.readOnly, Csr.writableBusy]

/-- A write to an offset of a register either reaches that register or reaches nothing. -/
theorem rejected_of_regOf {s : State} {off : BitVec 16} {size : AccessSize} {v : Word} {r : Csr} (reg : regOf off.toNat = some r)
    (write : csrWrite s v r = s.busErrorWrite) : Rejected s (.write off size v) := by
  cases target : csrTarget off.toNat size with
  | none =>
    have low := regOf_eq_some reg
    exact .inl ⟨target, bufTarget_eq_none fun n _ (high : 0x4000 ≤ off.toNat) => by omega⟩
  | some r' =>
    obtain rfl : r' = r := Option.some.inj ((regOf_of_csrTarget target).symm.trans reg)
    exact .inr ⟨off, size, v, r', rfl, target, write⟩

/-- Each of the eight conditions of R103 makes the access one that is rejected. -/
theorem rejected_of_busErrorCase {s : State} {a : Access} (h : busErrorCase s a) : Rejected s a := by
  have noCsr : (∀ r, a.size = .word → csrAt a.offset ≠ some r) → csrTarget a.offset a.size = none := fun absent =>
    Option.eq_none_iff_forall_ne_some.2 fun r target =>
      absent r (csrTarget_eq_some.1 target).1 (csrTarget_eq_some.1 target).2
  have inBuf_noCsr : inBuf s a.offset → csrTarget a.offset a.size = none := fun inside =>
    noCsr fun r _ reg => absurd (csrAt_eq_some_bounds reg).1 (Nat.not_lt.2 (Nat.le_trans (by decide) inside.1))
  rcases h with ⟨noReg, outside⟩ | ⟨low, narrow⟩ | ⟨n, count, misaligned⟩ | other | ⟨n, count, inside, beyond⟩ |
    ⟨off, size, v, r, rfl, reg, readOnly⟩ | ⟨inside, busy⟩ | ⟨off, size, v, r, rfl, reg, writable, busy⟩
  · refine .inl ⟨noCsr fun r _ reg => ?_, bufTarget_eq_none fun n count high _ fits _ => outside ⟨high, ?_⟩⟩
    · rw [regOf, (csrAt_eq_some_bounds reg).2, Nat.sub_zero, reg] at noReg
      cases noReg
    · have := bytes_eq_some count
      omega
  · refine .inl ⟨noCsr fun r word => ?_, bufTarget_eq_none fun n _ high => by omega⟩
    rcases narrow with e | e <;> rw [e] at word <;> cases word
  · refine .inl ⟨noCsr fun r word reg => misaligned ?_, bufTarget_eq_none fun m count' high aligned => absurd ?_ misaligned⟩
    · rw [word] at count
      cases count
      exact (csrAt_eq_some_bounds reg).2
    · obtain rfl : n = m := Option.some.inj (count.symm.trans count')
      rcases bytes_eq_some count with rfl | rfl | rfl <;> omega
  · refine .inl ⟨noCsr fun r word => ?_, bufTarget_eq_none fun n count => ?_⟩
    · rw [other] at word
      cases word
    · rw [other] at count
      cases count
  · refine .inl ⟨inBuf_noCsr inside, bufTarget_eq_none fun m count' high _ fits => ?_⟩
    obtain rfl : n = m := Option.some.inj (count.symm.trans count')
    omega
  · exact rejected_of_regOf reg (csrWrite_readOnly readOnly)
  · exact .inl ⟨inBuf_noCsr inside, bufTarget_eq_none fun _ _ _ _ _ => by simp [busy]⟩
  · exact rejected_of_regOf reg (csrWrite_busy writable busy)

/-- Settles O20: each condition is one of the ways an access is rejected, and a rejected access is a bus error. -/
theorem busErrors : Obligations.BusErrors := by
  intro s a h
  have rejected := hostAccess_rejected (rejected_of_busErrorCase h)
  cases a with
  | read => exact rejected
  | write => exact rejected

/-! ### Registers as numbers -/

theorem toNat_append_add {m n : Nat} (x : BitVec m) (y : BitVec n) : (x ++ y).toNat = x.toNat * 2 ^ n + y.toNat := by
  rw [BitVec.toNat_append, ← Nat.shiftLeft_add_eq_or_of_lt y.isLt, Nat.shiftLeft_eq]

theorem caps_toNat (s : State) :
    s.caps.toNat = s.build.buf.log2 * 2 ^ 24 + s.build.kMax % 256 * 2 ^ 16 + s.build.hMax % 256 * 2 ^ 8 + 63 := by
  have size : s.build.buf.log2 % 2 ^ 8 = s.build.buf.log2 := by cases s.build.buf <;> rfl
  simp only [State.caps, toNat_append_add, BitVec.toNat_ofNat, size]
  omega

theorem spongeReg_toNat (s : State) :
    s.spongeReg.toNat =
      s.sp.pos % 256 * 2 ^ 16 + (if rateOf s.sp.rate = 136 then 256 else 0) + s.sp.phase.code.toNat := by
  have rate : (rateBit s.sp.rate).toNat * 256 = if rateOf s.sp.rate = 136 then 256 else 0 := by cases s.sp.rate <;> rfl
  simp only [State.spongeReg, toNat_append_add, BitVec.toNat_ofNat]
  omega

theorem keyInfo_toNat (s : State) :
    s.keyInfo.toNat =
      if s.key.valid then
        2 ^ 31 + s.key.strategy.bit.toNat * 2 ^ 28 + s.key.k.toNat * 2 ^ 24 + s.key.addrFmt.toNat * 2 ^ 16 +
          s.key.h.toNat * 2 ^ 8 + s.key.sigType.toNat * 2 ^ 4 + s.key.hf.code.toNat
      else 0 := by
  cases valid : s.key.valid with
  | false => simp [State.keyInfo, valid]
  | true =>
    simp only [State.keyInfo, valid, if_true, toNat_append_add, BitVec.toNat_ofNat]
    omega

/-! ### Register reads (R63, R102) -/

/-- The value of a 4-byte read at an offset of a register. -/
def readValue (s : State) (off : Nat) : Word := ((csrAt off).map (csrRead s)).getD 0

theorem readValue_of {s : State} {off : Nat} {r : Csr} (h : csrAt off = some r) : readValue s off = csrRead s r := by
  simp [readValue, h]

/-- A 4-byte read of a register returns its value, busy or not, and changes nothing else. -/
theorem hostAccess_readReg (s : State) {off : Nat} (small : off < 2 ^ 16) (reg : (csrAt off).isSome) :
    hostAccess s (.read (BitVec.ofNat 16 off) .word) = .next { s with readData := readValue s off } := by
  obtain ⟨r, hr⟩ := Option.isSome_iff_exists.1 reg
  have target : csrTarget (BitVec.ofNat 16 off).toNat .word = some r := by
    rw [BitVec.toNat_ofNat, Nat.mod_eq_of_lt small]
    exact csrTarget_eq_some.2 ⟨rfl, hr⟩
  simp only [hostAccess, hostRead, target, readValue_of hr]

theorem csrAt_arg (i : Fin 8) : csrAt (0x040 + 4 * i.val) = some (.arg i) := by decide +revert

theorem csrAt_adrs (j : Fin 8) : csrAt (0x0A0 + 4 * j.val) = some (.adrs j) := by decide +revert

theorem csrAt_ks (i : Fin 25) :
    csrAt (0x100 + 8 * i.val) = some (.ksLo i) ∧ csrAt (0x104 + 8 * i.val) = some (.ksHi i) := by decide +revert

/-- Settles O21: `hostAccess_readReg` for every offset of the map, and the value of each register from `csrRead` and the layouts
of the view registers. -/
theorem registerReads : Obligations.RegisterReads := by
  intro s
  refine ⟨readValue s, fun off listed => ?_, rfl, rfl, rfl, rfl, rfl, rfl, rfl, rfl, rfl, rfl, rfl, rfl, fun i => ?_,
    fun j => ?_, fun i => ?_, caps_toNat s, spongeReg_toNat s, rfl, rfl, keyInfo_toNat s⟩
  · have map : ∀ off ∈ [0x000, 0x004, 0x008, 0x010, 0x014, 0x018, 0x01C, 0x020, 0x028, 0x030, 0x034, 0x060, 0x064, 0x070,
        0x074, 0x078, 0x07C] ++ (List.range 8).map (fun i => 0x040 + 4 * i) ++ (List.range 8).map (fun j => 0x0A0 + 4 * j) ++
        (List.range 50).map (fun i => 0x100 + 4 * i), off < 2 ^ 16 ∧ (csrAt off).isSome := by decide
    exact hostAccess_readReg s (map off listed).1 (map off listed).2
  · exact readValue_of (csrAt_arg i)
  · exact readValue_of (csrAt_adrs j)
  · rw [readValue_of (csrAt_ks i).1, readValue_of (csrAt_ks i).2, csrRead, csrRead, BitVec.extractLsb, BitVec.extractLsb,
      BitVec.extractLsb'_append_extractLsb'_eq_extractLsb' (show 32 = 0 + (31 - 0 + 1) from rfl)]
    exact BitVec.extractLsb'_eq_self.symm

/-! ### STATUS and IRQ (R39, R62, R462) -/

theorem status_bits (s : State) :
    s.status.getLsbD 0 = s.busy ∧ s.status.getLsbD 1 = s.done ∧ s.status.getLsbD 2 = s.err ∧
      s.status.getLsbD 3 = s.verifyOk ∧ s.status.getLsbD 4 = s.key.valid ∧ s.status.getLsbD 5 = s.fastKey ∧
      s.status.getLsbD 6 = s.bdsSync ∧ s.status.getLsbD 7 = s.exhausted := by
  simp only [State.status, BitVec.getLsbD_append]
  simp

theorem status_high (s : State) : s.status.extractLsb 31 8 = 0 := by
  rw [State.status, BitVec.extractLsb]
  iterate 8 rw [BitVec.extractLsb'_append_eq_of_le (by decide)]
  rfl

/-- IRQ is 1 exactly if one of the four interrupts is both pending and enabled. -/
theorem irq_eq_true (s : State) :
    s.irq = true ↔ ∃ b, b < 4 ∧ s.intStatus.getLsbD b = true ∧ s.intEn.getLsbD b = true := by
  have mask : ∀ b : Fin 32, intMask.getLsbD b = decide (b.val < 4) := by decide
  rw [State.irq, bne_iff_ne]
  constructor
  · intro nonzero
    by_contra unset
    refine nonzero (BitVec.eq_of_getLsbD_eq fun b hb => ?_)
    change _ = (0#32).getLsbD b
    rw [BitVec.getLsbD_and, BitVec.getLsbD_and, mask ⟨b, hb⟩, BitVec.getLsbD_zero]
    by_contra bit
    simp only [Bool.not_eq_false, Bool.and_eq_true, decide_eq_true_eq] at bit
    exact unset ⟨b, bit.2, bit.1⟩
  · rintro ⟨b, low, status, enabled⟩ zero
    have bit := congrArg (BitVec.getLsbD · b) zero
    simp [status, enabled, mask ⟨b, by omega⟩, low] at bit

/-- Settles O22, from the bits of STATUS (`status_bits`, `status_high`) and of IRQ (`irq_eq_true`). -/
theorem statusAndInterruptLine : Obligations.StatusAndInterruptLine := by
  intro s
  obtain ⟨busy, done, err, verifyOk, valid, fast, sync, exhausted⟩ := status_bits s
  refine ⟨busy, done, err, verifyOk, valid, ?_, sync, ?_, status_high s, irq_eq_true s⟩
  · rw [csrRead, fast]
    simp [State.fastKey]
  · rw [csrRead, exhausted]
    simp [State.exhausted]

end Sys2Proof.Machine
end

section
/-! PROOFS. The hash pair that CFG selects (spec/42_derived_hash.md R250, spec/60_exceptions.md R455), and what the derived-hash
commands (R260 to R264) and key generation (spec/46_xmss.md R410, R411) commit. -/

namespace Sys2Proof.Machine

/-! ### Check lists (spec/40_control.md R177) -/

@[simp] theorem firstError_nil : firstError [] = none := rfl

@[simp] theorem firstError_cons {c : Bool × CmdError} {l : List (Bool × CmdError)} :
    firstError (c :: l) = none ↔ c.1 = true ∧ firstError l = none := by
  obtain ⟨holds, e⟩ := c
  cases holds <;> simp [firstError]

@[simp] theorem firstError_append {l l' : List (Bool × CmdError)} :
    firstError (l ++ l') = none ↔ firstError l = none ∧ firstError l' = none := by
  induction l with
  | nil => simp
  | cons c l ih => simp [ih, and_assoc]

@[simp] theorem fits_holds {s : State} {i : Fin 8} {L : Nat} :
    (fits s i L).1 = true ↔ argN s i + L ≤ s.build.buf.bytes := by simp [fits]

theorem rangeArg_of {s : State} {i : Fin 8} {L : Nat} (h : argN s i + L ≤ s.build.buf.bytes) : rangeArg s i L = .ok () :=
  rangeArg_eq_ok.2 h

/-! ### The hash pair (R44, R250, R455) -/

theorem cfgHashFn_toNat (s : State) : (cfgHashFn s).toNat = s.latch.cfg.toNat % 16 := by
  simp [cfgHashFn, BitVec.extractLsb_toNat]

/-- The pair of the CFG code with its n, or the error, code by code. -/
theorem cfgSuite_by_code (s : State) :
    (cfgHashFn s = 0 → cfgSuite s = suiteOf .sha2_256 (cfgN s)) ∧
    (cfgHashFn s = 1 → cfgSuite s = .ok (.shake128 (cfgN s))) ∧
    (cfgHashFn s = 2 → cfgSuite s = .ok (.shake256 (cfgN s))) ∧
    (2 < (cfgHashFn s).toNat → cfgSuite s = .error (.raise (.failedConversion .hashFunction))) := by
  refine ⟨fun e => ?_, fun e => ?_, fun e => ?_, fun high => ?_⟩
  · rw [cfgSuite, e]; rfl
  · rw [cfgSuite, e]; rfl
  · rw [cfgSuite, e]; rfl
  · have ne : ∀ c : BitVec 4, c.toNat ≤ 2 → cfgHashFn s ≠ c := by
      rintro c low rfl
      omega
    rw [cfgSuite, hashFnOf, HashFn.ofCode, if_neg (ne 0 (by decide)), if_neg (ne 1 (by decide)), if_neg (ne 2 (by decide))]
    rfl

theorem cfgN_bytes (s : State) : (cfgN s).bytes = if s.latch.cfg.getLsbD 8 then 64 else 32 := by
  unfold cfgN
  split <;> rfl

theorem hashPair (s : State) :
    let hashFn := s.latch.cfg.toNat % 16
    let n64 := s.latch.cfg.getLsbD 8
    (hashFn = 0 → n64 = false → cfgSuite s = .ok .sha2 ∧ Suite.sha2.n = 32) ∧
    (hashFn = 0 → n64 = true → cfgSuite s = .error (.raise .configError)) ∧
    (hashFn = 1 → ∃ n, cfgSuite s = .ok (.shake128 n) ∧ (Suite.shake128 n).n = if n64 then 64 else 32) ∧
    (hashFn = 2 → ∃ n, cfgSuite s = .ok (.shake256 n) ∧ (Suite.shake256 n).n = if n64 then 64 else 32) ∧
    (2 < hashFn → cfgSuite s = .error (.raise (.failedConversion .hashFunction))) := by
  intro hashFn n64
  obtain ⟨sha2, shake128, shake256, other⟩ := cfgSuite_by_code s
  have code : ∀ c : BitVec 4, hashFn = c.toNat → cfgHashFn s = c := fun c e =>
    BitVec.eq_of_toNat_eq ((cfgHashFn_toNat s).trans e)
  refine ⟨fun e narrow => ⟨?_, rfl⟩, fun e wide => ?_, fun e => ⟨_, shake128 (code 1 e), cfgN_bytes s⟩,
    fun e => ⟨_, shake256 (code 2 e), cfgN_bytes s⟩, fun high => other (by rwa [cfgHashFn_toNat])⟩
  · rw [sha2 (code 0 e), cfgN, show s.latch.cfg.getLsbD 8 = false from narrow]
    rfl
  · rw [sha2 (code 0 e), cfgN, show s.latch.cfg.getLsbD 8 = true from wide]
    rfl

/-! ### Derived hashes (R250 to R255, R260 to R264) -/

/-- CoreHash is the pair's hash of the domain, the key and the message (R250). -/
theorem coreHash_eq_digest (su : Suite) (t : Nat) (K X : Bytes) :
    coreHash su t K X = digest su (toByte t su.n ++ K ++ X) := by
  cases su <;> rfl

/-- The bytes of an address whose last word is replaced (R251). -/
theorem adrsBytes_setW_last (a : Adrs) {m : Nat} (h : m < 2 ^ 32) : adrsBytes (setW a 7 m) = adrsTail a m := by
  have words : (setW a 7 m).toList =
      [a.get 0, a.get 1, a.get 2, a.get 3, a.get 4, a.get 5, a.get 6, BitVec.ofNat 32 m] := by
    obtain ⟨⟨l⟩, len⟩ := a
    match l, len with
    | [_, _, _, _, _, _, _, _], _ => rfl
  rw [adrsBytes, words, adrsTail]
  simp [Nat.mod_eq_of_lt (show m < 4294967296 from h)]

theorem prf_adrs (su : Suite) (P : Bytes) (a : Adrs) {m : Nat} (h : m < 2 ^ 32) :
    prf su P (adrsBytes (setW a 7 m)) = adrsPrf su P a m := by
  rw [prf, coreHash_eq_digest, adrsBytes_setW_last a h, adrsPrf]

theorem hashF_eq_digest (su : Suite) (P : Bytes) (a : Adrs) (X : Bytes) :
    hashF su P a X = digest su (toByte 0 su.n ++ adrsPrf su P a 0 ++ List.zipWith (· ^^^ ·) X (adrsPrf su P a 1)) := by
  simp only [hashF, coreHash_eq_digest, prf_adrs su P a (show 0 < 2 ^ 32 by decide), prf_adrs su P a (show 1 < 2 ^ 32 by decide),
    xorBytes]

theorem hashH_eq_digest (su : Suite) (P : Bytes) (a : Adrs) (X : Bytes) :
    hashH su P a X =
      digest su (toByte 1 su.n ++ adrsPrf su P a 0 ++
        List.zipWith (· ^^^ ·) X (adrsPrf su P a 1 ++ adrsPrf su P a 2)) := by
  simp only [hashH, coreHash_eq_digest, prf_adrs su P a (show 0 < 2 ^ 32 by decide), prf_adrs su P a (show 1 < 2 ^ 32 by decide),
    prf_adrs su P a (show 2 < 2 ^ 32 by decide), xorBytes]

theorem cfgBytes_eq {s : State} {su : Suite} (h : cfgSuite s = .ok su) : cfgBytes s = su.n := (cfgSuite_n h).symm

section
variable {s : State} {su : Suite} {K X : Bytes}

theorem execCoreHash_of (suite : cfgSuite s = .ok su) (pass : passes s .coreHash)
    (key : readArg s 2 (argN s 3) = .ok K) (input : readArg s 4 (argN s 5) = .ok X) :
    exec .coreHash s = .next (s.writeBuf (argN s 0) (coreHash su (argN s 1) K X)).succeed := by
  simp only [passes, checks, cfgBytes_eq suite, firstError_append, firstError_cons, fits_holds] at pass
  obtain ⟨-, out, keyFits, inputFits, -⟩ := pass
  simp only [exec, execCoreHash, suite, rangeArg_of out, rangeArg_of keyFits, rangeArg_of inputFits, key, input, result_bind_ok,
    result_pure, finish_ok, writeArg]

theorem execPrf_of (suite : cfgSuite s = .ok su) (pass : passes s .prf) (key : readArg s 2 su.n = .ok K)
    (input : readArg s 4 32 = .ok X) : exec .prf s = .next (s.writeBuf (argN s 0) (prf su K X)).succeed := by
  simp only [passes, checks, cfgBytes_eq suite, firstError_append, firstError_cons, fits_holds] at pass
  obtain ⟨-, out, keyFits, inputFits, -⟩ := pass
  simp only [exec, execPrf, suite, rangeArg_of out, rangeArg_of keyFits, rangeArg_of inputFits, key, input, result_bind_ok,
    result_pure, finish_ok, writeArg]

theorem execHashF_of (suite : cfgSuite s = .ok su) (pass : passes s .hashF) (key : readArg s 2 su.n = .ok K)
    (input : readArg s 4 su.n = .ok X) :
    exec .hashF s = .next (s.writeBuf (argN s 0) (hashF su K s.latch.adrs X)).succeed := by
  simp only [passes, checks, cfgBytes_eq suite, firstError_append, firstError_cons, fits_holds] at pass
  obtain ⟨-, out, keyFits, inputFits, -⟩ := pass
  simp only [exec, execHashF, suite, rangeArg_of out, rangeArg_of keyFits, rangeArg_of inputFits, key, input, result_bind_ok,
    result_pure, finish_ok, writeArg, adrsArg]

theorem execHashH_of (suite : cfgSuite s = .ok su) (pass : passes s .hashH) (key : readArg s 2 su.n = .ok K)
    (input : readArg s 4 (2 * su.n) = .ok X) :
    exec .hashH s = .next (s.writeBuf (argN s 0) (hashH su K s.latch.adrs X)).succeed := by
  simp only [passes, checks, cfgBytes_eq suite, firstError_append, firstError_cons, fits_holds] at pass
  obtain ⟨-, out, keyFits, inputFits, -⟩ := pass
  simp only [exec, execHashH, suite, rangeArg_of out, rangeArg_of keyFits, rangeArg_of inputFits, key, input, result_bind_ok,
    result_pure, finish_ok, writeArg, adrsArg]

theorem execHMsg_of (suite : cfgSuite s = .ok su) (pass : passes s .hMsg) (key : readArg s 2 (3 * su.n) = .ok K)
    (input : readArg s 4 (argN s 5) = .ok X) :
    exec .hMsg s = .next (s.writeBuf (argN s 0) (hMsg su K X)).succeed := by
  simp only [passes, checks, cfgBytes_eq suite, firstError_append, firstError_cons, fits_holds, beq_iff_eq] at pass
  obtain ⟨-, len, out, keyFits, inputFits, -⟩ := pass
  simp only [exec, execHMsg, suite, check_of _ len, rangeArg_of out, rangeArg_of keyFits, rangeArg_of inputFits, key, input,
    result_bind_ok, result_pure, finish_ok, writeArg]

end

/-- Settles O32: the pairs by `hashPair`; each command's store by its `exec…_of` lemma, with the derived hash rewritten as one
digest of its domain, keys and masks. -/
theorem derivedHashResults : Obligations.DerivedHashResults := by
  refine ⟨hashPair, fun s su K X suite => ⟨fun pass key input => ?_, fun pass key input => ?_, fun pass key input => ?_,
    fun pass key input => ?_, fun pass key input => ?_⟩⟩
  · rw [execCoreHash_of suite pass key input, coreHash_eq_digest]
  · rw [execPrf_of suite pass key input, prf, coreHash_eq_digest]
  · rw [execHashF_of suite pass key input, hashF_eq_digest]
  · rw [execHashH_of suite pass key input, hashH_eq_digest]
  · rw [execHMsg_of suite pass key input, hMsg, coreHash_eq_digest]

/-! ### Key generation (spec/46_xmss.md R410, R411) -/

theorem freshBds_th (h k : Nat) {i : Nat} (hi : i < h - k) :
    (freshBds h k).th[i]? = some { h := i, nextIdx := 0, stackUsage := 0, completed := false, node := zeros 32 } := by
  rw [freshBds, List.getElem?_map, List.getElem?_range hi]
  rfl

/-- The key that loading makes is R410's, with the root of R325 for both strategies. -/
theorem loadKey_key (s : State) (hf : HashFn) (h k : Nat) (strat : Strategy) (S : Bytes) :
    (loadKey s hf h k strat S).key = seedKey hf h k strat S := by
  have pub : slice (shake256 S 96) 64 32 = (shake256 S 96).drop 64 := List.take_of_length_le (by simp)
  cases strat with
  | fast =>
    simp only [loadKey, bdsSetup_root, expandKeySeed, pub]
    rfl
  | basic =>
    simp only [loadKey, expandKeySeed, pub]
    rfl

/-- Loading a key commits R410's result. -/
theorem loadKey_succeed {s : State} {hf : HashFn} {h k : Nat} {strat : Strategy} {S : Bytes}
    (legal : ParamsLegal s.build h k strat) : (loadKey s hf h k strat S).succeed = keygenResult s hf h k strat S := by
  have params := keyBds_loadKey (hf := hf) (S := S) legal
  rw [loadKey_eq]
  cases strat with
  | fast =>
    rw [keygenResult, ← loadKey_key s, params]
    rfl
  | basic =>
    rw [keygenResult, ← loadKey_key s]
    rfl

theorem hashFnOf_code (hf : HashFn) : hashFnOf hf.code = .ok hf := by cases hf <;> rfl

theorem strategy_of_kCap {b : Build} {k : Nat} {strat : Strategy} (h : (strat == .basic || decide (k ≤ b.kMax)) = true) :
    strat = .basic ∨ k ≤ b.kMax := by simpa using h

/-- KEYGEN where its checks pass (R410). -/
theorem execKeygen_of {s : State} {hf : HashFn} {S : Bytes} (pass : passes s .keygen) (seed : readArg s 0 48 = .ok S)
    (code : hf.code = keycfgHashFn s) :
    exec .keygen s = .next (keygenResult s hf (keycfgHeight s) (keycfgK s) (keycfgStrategy s) S) := by
  simp only [passes, checks, firstError_cons, fits_holds, beq_iff_eq, decide_eq_true_eq] at pass
  obtain ⟨-, sigType, addrFmt, len, height, relation, cap, kCap, fit, -⟩ := pass
  have kCap := strategy_of_kCap kCap
  have legal := paramsLegal_of_checks height relation cap kCap (keycfgK_lt s)
  have enums : keyEnums s = .ok hf := by
    simp only [keyEnums, ← code, hashFnOf_code, check_of _ sigType, check_of _ addrFmt, result_bind_ok, result_pure]
  simp only [exec, execKeygen, enums, keyRelation, keyHeightCap, keyKCap, check_of _ len, check_of _ height, check_of _ relation,
    check_of _ cap, check_of _ kCap, rangeArg_of fit, seed, result_bind_ok, result_pure, finish_ok, loadKey_succeed legal]

/-- The descriptor's checks pass exactly as DecodeDesc reads them, and it gives the hash function and the height (R402). -/
theorem decodeDesc_of {d : Bytes} {hf : HashFn} (checked : firstError (descChecks d) = none) (code : hf.code.toNat = descHash d) :
    decodeDesc d = .ok { hf := hf, h := descHeight d } := by
  simp only [descChecks, firstError_cons, beq_iff_eq] at checked
  obtain ⟨-, sigType, addrFmt, reserved, -⟩ := checked
  have nibble : ∀ b : Byte, b.toNat / 16 = 0 → b >>> 4 = 0 := fun b h =>
    BitVec.eq_of_toNat_eq (by simpa [Nat.shiftRight_eq_div_pow] using h)
  refine decodeDesc_eq_ok.2 ⟨?_, nibble _ sigType, nibble _ addrFmt, BitVec.eq_of_toNat_eq reserved, ?_⟩
  · rw [← hashFnOf_code hf]
    refine congrArg hashFnOf (BitVec.eq_of_toNat_eq ?_)
    simpa [descHash] using code.symm
  · simp [descHeight, Nat.and_two_pow_sub_one_eq_mod _ 4]

/-- KEYGEN_XSEED where its checks and the descriptor's pass (R411). -/
theorem execKeygenXseed_of {s : State} {hf : HashFn} {d S : Bytes} (pass : passes s .keygenXseed) (head : readArg s 0 3 = .ok d)
    (seed : s.buf.readBytes (argN s 0 + 3) 48 = .ok S)
    (checked : firstError (descChecks d ++ descFollowUp s .keygenXseed (descHeight d)) = none)
    (code : hf.code.toNat = descHash d) :
    exec .keygenXseed s = .next (keygenResult s hf (descHeight d) (keycfgK s) (keycfgStrategy s) S) := by
  simp only [passes, checks, firstError_cons, fits_holds, beq_iff_eq] at pass
  obtain ⟨len, kCap, fit, -⟩ := pass
  rw [firstError_append] at checked
  obtain ⟨desc, followUp⟩ := checked
  simp only [descFollowUp, firstError_cons, decide_eq_true_eq] at followUp
  obtain ⟨relation, cap, -⟩ := followUp
  have kCap := strategy_of_kCap kCap
  have decoded := decodeDesc_of desc code
  have legal := paramsLegal_of_checks (decodeDesc_height decoded) relation cap kCap (keycfgK_lt s)
  simp only [exec, execKeygenXseed, keyRelation, keyHeightCap, keyKCap, check_of _ len, check_of _ kCap, rangeArg_of fit, head,
    decoded, check_of _ relation, check_of _ cap, seed, result_bind_ok, result_pure, finish_ok, loadKey_succeed legal]

/-- Settles O50: the fresh state field by field, and the two key generations. -/
theorem keygenResults : Obligations.KeygenResults :=
  ⟨fun h k => ⟨rfl, rfl, rfl, rfl, rfl, by simp [freshBds], fun _ hi => freshBds_th h k hi, rfl⟩,
    fun _ _ _ => ⟨fun _ pass seed code => execKeygen_of pass seed code,
      fun _ pass head seed checked code => execKeygenXseed_of pass head seed checked code⟩⟩

end Sys2Proof.Machine
end

section
/-! PROOFS. BUF as the host and the commands see it (spec/20_memory.md R101, R104, R114): little-endian accesses of 1, 2 and 4
bytes, and what the commit step of each command leaves of it (spec/30_encoding.md R150). -/

namespace Sys2Proof.Machine

/-! ### Little-endian bytes (R101) -/

/-- Byte i of a little-endian encoding, counted from the least significant byte. -/
theorem toLE_getElem? (x : Nat) {k i : Nat} (h : i < k) : (toLE x k)[i]? = some (BitVec.ofNat 8 (x / 256 ^ i)) := by
  induction k generalizing x i with
  | zero => omega
  | succ k ih =>
    cases i with
    | zero => simp [toLE]
    | succ i => rw [toLE, List.getElem?_cons_succ, ih _ (by omega), Nat.div_div_eq_div_mul, Nat.pow_succ']

/-- Digit i to the base 256 of a decoded string is its byte i, and 0 past its end. -/
theorem fromLE_digit (bs : Bytes) (i : Nat) : fromLE bs / 256 ^ i % 256 = (bs.getD i 0).toNat := by
  induction bs generalizing i with
  | nil => simp [fromLE]
  | cons b bs ih =>
    have low := b.isLt
    cases i with
    | zero =>
      simp only [fromLE, List.getD_cons_zero]
      omega
    | succ i =>
      have rest : fromLE (b :: bs) / 256 = fromLE bs := by
        rw [fromLE]
        omega
      rw [Nat.pow_succ', ← Nat.div_div_eq_div_mul, rest, ih, List.getD_cons_succ]

/-- Byte i of a word, as a digit to the base 256. -/
theorem extractByte_toNat (v : Word) (i : Nat) : (v.extractLsb' (8 * i) 8).toNat = v.toNat / 256 ^ i % 256 := by
  rw [BitVec.extractLsb'_toNat, Nat.shiftRight_eq_div_pow, Nat.pow_mul]

/-- Bits 8i+7..8i of a word are byte i of its encoding. -/
theorem toLE_extract (v : Word) {n i : Nat} (h : i < n) : (toLE v.toNat n)[i]? = some (v.extractLsb' (8 * i) 8) := by
  rw [toLE_getElem? _ h, Option.some.injEq]
  refine BitVec.eq_of_toNat_eq ?_
  rw [extractByte_toNat, BitVec.toNat_ofNat]

/-- Bits 8i+7..8i of the word a string decodes to are byte i of the string, and 0 past its end. -/
theorem extract_fromLE (bs : Bytes) {i : Nat} (h : i < 4) :
    (BitVec.ofNat 32 (fromLE bs)).extractLsb' (8 * i) 8 = bs.getD i 0 := by
  have inWord : 2 ^ 32 = 256 ^ i * (256 * 256 ^ (3 - i)) := by
    rw [← Nat.pow_succ', ← Nat.pow_add, show i + (3 - i + 1) = 4 by omega]
    rfl
  refine BitVec.eq_of_toNat_eq ?_
  rw [extractByte_toNat, BitVec.toNat_ofNat, ← fromLE_digit, inWord, Nat.mod_mul_right_div_self, Nat.mod_mul_right_mod]

/-! ### Host accesses to BUF (R101) -/

theorem buf_bytes_le (b : BufSize) : b.bytes ≤ 32768 := by cases b <;> decide

/-- An aligned access inside BUF while BUSY = 0 reaches no register but the n bytes at p. -/
theorem targets_of_buf {s : State} {size : AccessSize} {n p : Nat} (idle : s.pending = none) (count : size.bytes = some n)
    (aligned : p % n = 0) (fits : p + n ≤ s.build.buf.bytes) :
    csrTarget (BitVec.ofNat 16 (0x4000 + p)).toNat size = none ∧
      bufTarget s (BitVec.ofNat 16 (0x4000 + p)).toNat size = some (p, n) := by
  have large := buf_bytes_le s.build.buf
  have positive := bytes_eq_some count
  have offset : (BitVec.ofNat 16 (0x4000 + p)).toNat = 0x4000 + p := by
    rw [BitVec.toNat_ofNat]
    omega
  rw [offset]
  constructor
  · refine Option.eq_none_iff_forall_ne_some.2 fun r target => ?_
    have low := (csrAt_eq_some_bounds (csrTarget_eq_some.1 target).2).1
    omega
  · rw [bufTarget_eq_some, Nat.add_sub_cancel_left]
    exact ⟨count, by omega, aligned, fits, busy_eq_false.2 idle, rfl⟩

section
variable {s : State} {off : BitVec 16} {size : AccessSize} {p n : Nat} (csr : csrTarget off.toNat size = none)
  (buf : bufTarget s off.toNat size = some (p, n))
include csr buf

theorem hostAccess_writeBuf (v : Word) :
    hostAccess s (.write off size v) = .next (s.writeBuf p (toLE v.toNat n)) := by
  simp only [hostAccess, hostWrite, csr, buf]

theorem hostAccess_readBuf {bs : Bytes} (read : s.buf.readBytes p n = .ok bs) :
    hostAccess s (.read off size) = .next { s with readData := BitVec.ofNat 32 (fromLE bs) } := by
  simp only [hostAccess, hostRead, csr, buf, read]

theorem hostAccess_readBuf_fault {f : Fault} (read : s.buf.readBytes p n = .error (.fault f)) :
    hostAccess s (.read off size) = .fault f := by
  simp only [hostAccess, hostRead, csr, buf, read]

end

/-- MemRead of a range with a never-written byte is the fault U1 at such a byte (R105). -/
theorem Memory.readBytes_unwritten {m : Memory} {p n i : Nat} (inside : i < n) (unwritten : m.read (p + i) = none) :
    ∃ a, m.readBytes p n = .error (.fault (.unwrittenRead a)) ∧ p ≤ a ∧ a < p + n ∧ m.read a = none := by
  cases result : m.readBytes p n with
  | ok bs =>
    obtain ⟨len, bytes⟩ := (Memory.readBytes_ok_iff m p n bs).1 result
    have missing : bs[i]? = none := (bytes i inside).symm.trans unwritten
    exact absurd (List.getElem?_eq_none_iff.1 missing) (by omega)
  | error e =>
    obtain ⟨a, low, high, unread, rfl⟩ := Memory.readBytes_error result
    exact ⟨a, rfl, low, high, unread⟩

/-- Settles O26: the access reaches the n bytes at p (`targets_of_buf`), where a write stores the word's bytes, and a read either
finds them all or is the fault at one that is missing. -/
theorem bufHostAccess : Obligations.BufHostAccess := by
  intro s size n p idle count aligned fits
  obtain ⟨csr, buf⟩ := targets_of_buf idle count aligned fits
  refine ⟨fun v => ⟨s.buf.write p (toLE v.toNat n), hostAccess_writeBuf csr buf v, fun i hi => ?_, fun a outside => ?_⟩,
    fun bs len bytes => ?_, fun ⟨i, inside, unwritten⟩ => ?_⟩
  · rw [Memory.read_write_in _ (Nat.le_add_right ..) (by rw [toLE_length]; omega), Nat.add_sub_cancel_left, toLE_extract v hi]
  · exact Memory.read_write_out _ (by rwa [toLE_length])
  · have read := (Memory.readBytes_ok_iff s.buf p n bs).2 ⟨len, bytes⟩
    exact ⟨_, hostAccess_readBuf csr buf read, fun i hi => extract_fromLE bs hi⟩
  · obtain ⟨a, read, low, high, unread⟩ := Memory.readBytes_unwritten inside unwritten
    exact ⟨a, hostAccess_readBuf_fault csr buf read, low, high, unread⟩

/-! ### What a command leaves of BUF (R104, R150, R173, R174) -/

/-- BUF after a command's body: as before it, or with a string of at most L bytes stored at ARG0. -/
inductive OutputAt (s : State) (L : Nat) (shadow : State) : Prop
  | kept (buf : shadow.buf = s.buf)
  | stored {v : Bytes} (buf : shadow.buf = s.buf.write (argN s 0) v) (len : v.length ≤ L)

/-- A commit step leaves BUF as the command's body does; an error completion leaves it as it was. -/
theorem outputAt_of_finish {s t : State} {r : Result State} {L : Nat} (h : finish s r = .next t)
    (body : Yields (OutputAt s L) r) : OutputAt s L t := by
  rcases finish_eq_next.1 h with ⟨shadow, value, rfl⟩ | ⟨e, -, rfl⟩
  · cases body shadow value with
    | kept buf => exact .kept buf
    | stored buf len => exact .stored buf len
  · exact .kept rfl

/-- Every byte outside the output range reads as before. -/
theorem OutputAt.read_out {s t : State} {L a : Nat} (out : OutputAt s L t) (outside : a < argN s 0 ∨ argN s 0 + L ≤ a) :
    t.buf.read a = s.buf.read a := by
  cases out with
  | kept buf => rw [buf]
  | stored buf len =>
    rw [buf]
    exact Memory.read_write_out _ (by omega)

/-- A body that stores one string of the length n that CFG selects. -/
theorem OutputAt.ofCfg {s : State} {su : Suite} {v : Bytes} (suite : cfgSuite s = .ok su) (len : v.length = su.n) :
    OutputAt s (cfgBytes s) (writeArg s 0 v) :=
  .stored rfl (by rw [len, cfgBytes_eq suite])

/-- A body that stores one string of n bytes for each WOTS+ chain. -/
theorem OutputAt.ofChains {s : State} {su : Suite} {v : Bytes} (suite : cfgSuite s = .ok su)
    (len : v.length = wotsLen su.n * su.n) : OutputAt s (wotsLen (cfgBytes s) * cfgBytes s) (writeArg s 0 v) :=
  .stored rfl (by rw [len, cfgBytes_eq suite])

/-- What every command leaves of BUF. The commands not named here store nothing in it. -/
theorem exec_outputAt {i : Instr} {s t : State} (inv : s.Inv) (h : exec i s = .next t) : OutputAt s (outLen s i) t := by
  cases i
  case nop | keyClear | keccakF | spongeInit =>
    cases h
    exact .kept rfl
  all_goals
    refine outputAt_of_finish h ?_
    simp only [yields_bind, yields_pure]
  case spongeSqueeze =>
    intros
    exact .stored rfl (Nat.le_of_eq (squeezeStream_bounds _ _ (squeezeStart_pos_le inv.sponge) (rateOf_pos _)).2)
  case shake128 | shake256 =>
    intros
    exact .stored rfl (Nat.le_of_eq (sponge_length ..))
  case sha256 =>
    intros
    exact .stored rfl (Nat.le_of_eq (sha256_length _))
  case coreHash | prf | hashF | hashH | hMsg | otsSeed =>
    intro su suite
    intros
    exact .ofCfg suite (coreHash_length ..)
  case wotsExpandSeed => exact fun su suite _ _ _ _ S _ => .ofChains suite (expandSeed_flatten_length ..)
  case wotsGenChain =>
    exact fun su suite _ _ _ _ _ _ P _ X hX => .ofCfg suite (genChain_length _ _ _ _ (readArg_length hX))
  case wotsBaseW =>
    intros
    exact .stored rfl (digitBytes_length _ ▸ baseW_length_le ..)
  case wotsDigits =>
    intros
    exact .stored rfl (digitBytes_length _ ▸ wotsDigits_length_le ..)
  case wotsPkgen => exact fun su suite _ _ _ _ _ _ P _ S _ => .ofChains suite (wotsPkgen_flatten_length ..)
  case wotsSign => exact fun su suite _ _ _ _ _ _ _ _ P _ S _ M _ => .ofChains suite (wotsSign_flatten_length ..)
  case wotsPkFromSig =>
    intro su suite _ _ _ _ _ _ _ _ P _ Sig hSig M _
    have len := wotsPkFromSig_flatten_length M P (adrsArg s) (chunks_chunk (readArg_length hSig))
    exact .ofChains suite (len.trans (by rw [chunks_length]))
  case lTree =>
    intro su suite _ _ _ _ _ _ P _ pk hpk
    have nonempty : chunks su.n (wotsLen su.n) pk ≠ [] := by simp [← List.length_pos_iff, wotsLen, wotsLen2]
    exact .ofCfg suite (lTree_length P (adrsArg s) (chunks_chunk (readArg_length hpk)) nonempty)
  case genLeaf => exact fun su suite _ _ _ _ _ _ P _ SK _ => .ofCfg suite (genLeaf_length ..)
  case treehash =>
    intro su suite _ _ _ aligned
    intros
    exact .ofCfg suite (treehash_length (check_eq_ok.1 aligned))
  case authpath =>
    intro su suite
    intros
    refine .stored rfl (Nat.le_of_eq ?_)
    rw [List.length_append, authPath_flatten_length, treeNode_length, outLen, cfgBytes_eq suite, Nat.succ_mul]
  case rootFromAuth =>
    exact fun su suite _ _ _ _ _ _ _ _ _ _ _ _ P _ L hL auth _ =>
      .ofCfg suite (rootFromAuth_length _ _ _ _ (readArg_length hL))
  case bdsExport =>
    intro _ valid
    intros
    have params := inv.key.loaded (needKey_eq_ok.1 valid)
    exact .stored rfl (Nat.le_of_eq (bdsExport_length (c := keyBds s.key) s.bdsSync inv.bds params.even params.kHigh))
  case getPk =>
    intros
    exact .stored rfl (Nat.le_of_eq (publicKey_length inv.key))
  case getSk =>
    intros
    exact .stored rfl (Nat.le_of_eq (secretKey_length inv.key))
  case getXseed =>
    intros
    exact .stored rfl (Nat.le_of_eq (extendedSeed_length inv.key))
  case sign =>
    intros
    obtain ⟨levels, nodes⟩ := signPath_ok inv s.key.idx.toNat
    exact .stored rfl (by rw [signCore_length nodes, levels, outLen])
  case setIndex =>
    intros
    split <;>
    · simp only [yields_bind, yields_pure]
      intros
      exact .kept rfl
  case keygen | keygenXseed =>
    intros
    rw [loadKey_eq]
    exact .kept rfl
  all_goals
    intros
    exact .kept rfl

/-- Settles O14: a completion leaves BUF as it was or stores at most outLen bytes at ARG0 (`exec_outputAt`), and a write leaves
every byte outside it alone. -/
theorem bufFrame : Obligations.BufFrame :=
  fun _ _ _ inv h _ outside => (exec_outputAt inv h).read_out outside

end Sys2Proof.Machine
end

section
/-! PROOFS. Decoding and encoding of command words (spec/30_encoding.md R140, R141, R146): a word is its three fields, the
decoder accepts exactly the fields of a command, and what it rejects it rejects by the check of R141 that fails. -/

namespace Sys2Proof

/-! ### The fields of a word (R140) -/

theorem packFields_fieldsOf (w : Word) : packFields (fieldsOf w) = w := by
  have flagsAndOpcode : w.extractLsb' 8 4 ++ w.extractLsb' 0 8 = w.extractLsb' 0 12 :=
    BitVec.extractLsb'_append_extractLsb'_eq_extractLsb' rfl
  have word : w.extractLsb' 12 20 ++ w.extractLsb' 0 12 = w.extractLsb' 0 32 :=
    BitVec.extractLsb'_append_extractLsb'_eq_extractLsb' rfl
  calc packFields (fieldsOf w)
      = w.extractLsb' 12 20 ++ (w.extractLsb' 8 4 ++ w.extractLsb' 0 8) := BitVec.append_assoc
    _ = w := by rw [flagsAndOpcode, word, BitVec.extractLsb'_eq_self]

theorem fieldsOf_packFields (f : CmdFields) : fieldsOf (packFields f) = f := by
  obtain ⟨rsvd, flags, opcode⟩ := f
  have above : ∀ start len, (rsvd ++ flags ++ opcode).extractLsb' (8 + start) len = (rsvd ++ flags).extractLsb' start len :=
    fun start _ => by rw [BitVec.extractLsb'_append_eq_of_le (Nat.le_add_right 8 start), Nat.add_sub_cancel_left]
  simp only [fieldsOf, packFields, CmdFields.mk.injEq]
  exact ⟨(above 4 20).trans BitVec.extractLsb'_append_eq_left, (above 0 4).trans BitVec.extractLsb'_append_eq_right,
    BitVec.extractLsb'_append_eq_right⟩

theorem fieldsOf_eq_iff {w : Word} {f : CmdFields} : fieldsOf w = f ↔ packFields f = w :=
  ⟨fun h => h ▸ packFields_fieldsOf w, fun h => h ▸ fieldsOf_packFields f⟩

/-! ### The opcode map and the checks on the fields (R141, R146, R147) -/

/-- The map has a row exactly for the opcodes that R147 leaves, whatever the FLAGS. -/
theorem opcodeMap_isSome_iff (f : CmdFields) :
    ((opcodeMap f.flags).lookup f.opcode).isSome = true ↔ f.opcodeDefined = true := by
  have listed : ((opcodeMap f.flags).lookup f.opcode).isSome = true ↔ f.opcode.toNat ∈ (opcodeMap 0).map (·.1.toNat) := by
    simp [opcodeMap, ← BitVec.toNat_inj]
  rw [listed]
  simp only [opcodeMap, CmdFields.opcodeDefined, List.map_cons, List.map_nil, List.mem_cons, List.not_mem_nil, or_false,
    BitVec.toNat_ofNat, BitVec.ofNat_eq_ofNat, Bool.or_eq_true, Bool.and_eq_true, decide_eq_true_eq]
  omega

/-- A row of the map stands for one word: its opcode, with the FLAGS that check 3 of R141 allows there. -/
theorem opcodeMap_row {flags : BitVec 4} :
    ∀ row ∈ opcodeMap flags, CmdFields.flagsAllowed ⟨0, flags, row.1⟩ = true → row.2.fields = ⟨0, flags, row.1⟩ := by
  revert flags
  decide

/-- No reserved FLAGS bit is set exactly when check 3 of R141 holds. -/
theorem flags_reserved_clear (f : CmdFields) : f.flags &&& flagsReserved f.opcode = 0 ↔ f.flagsAllowed = true := by
  have bit0Free : ∀ flags : BitVec 4, flags &&& 0b1110 = 0 ↔ flags = 0 ∨ flags = 1 := by decide
  have noneFree : f.flags &&& 0b1111 = f.flags := BitVec.and_allOnes
  simp only [flagsReserved, CmdFields.flagsAllowed, Bool.or_eq_true, Bool.and_eq_true, beq_iff_eq]
  by_cases init : f.opcode = 0x11
  · simp only [init, if_true, true_and, bit0Free]
  · simp only [init, if_false, false_and, or_false, noneFree]

/-! ### Decoding the fields (R141) -/

theorem decodeFields_of_none {f : CmdFields} (noRow : (opcodeMap f.flags).lookup f.opcode = none) :
    decodeFields f = .error .opcode := by
  simp only [decodeFields, noRow]

theorem decodeFields_of_some {f : CmdFields} {i : Instr} (row : (opcodeMap f.flags).lookup f.opcode = some i) :
    decodeFields f = if f.rsvdZero && f.flagsAllowed then .ok i else .error .reservedBits := by
  simp only [decodeFields, row, flags_reserved_clear, CmdFields.rsvdZero, Bool.and_eq_true, beq_iff_eq]

theorem decodeFields_of_undefined {f : CmdFields} (undefd : f.opcodeDefined = false) : decodeFields f = .error .opcode :=
  decodeFields_of_none (Option.not_isSome_iff_eq_none.1 fun row => by simp [(opcodeMap_isSome_iff f).1 row] at undefd)

theorem decodeFields_of_defined {f : CmdFields} (defd : f.opcodeDefined = true) :
    ∃ i, decodeFields f = if f.rsvdZero && f.flagsAllowed then .ok i else .error .reservedBits := by
  obtain ⟨i, row⟩ := Option.isSome_iff_exists.1 ((opcodeMap_isSome_iff f).2 defd)
  exact ⟨i, decodeFields_of_some row⟩

theorem decodeFields_fields (i : Instr) : decodeFields i.fields = .ok i := by
  cases i with
  | spongeInit sel => cases sel <;> rfl
  | _ => rfl

theorem eq_fields_of_row {f : CmdFields} {i : Instr} (row : (opcodeMap f.flags).lookup f.opcode = some i)
    (legal : (f.rsvdZero && f.flagsAllowed) = true) : f = i.fields := by
  obtain ⟨before, after, rows, -⟩ := List.lookup_eq_some_iff.1 row
  obtain ⟨rsvd, flags, opcode⟩ := f
  obtain ⟨rsvdZero, allowed⟩ := Bool.and_eq_true_iff.1 legal
  obtain rfl : rsvd = 0 := eq_of_beq rsvdZero
  exact (opcodeMap_row (opcode, i) (rows ▸ List.mem_append_right _ List.mem_cons_self) allowed).symm

/-- The decoder accepts exactly the fields of a command, as that command. -/
theorem decodeFields_eq_ok {f : CmdFields} {i : Instr} : decodeFields f = .ok i ↔ f = i.fields := by
  constructor
  · intro ok
    cases row : (opcodeMap f.flags).lookup f.opcode with
    | none => cases (decodeFields_of_none row).symm.trans ok
    | some j =>
      rw [decodeFields_of_some row] at ok
      split at ok
      · next legal =>
        cases ok
        exact eq_fields_of_row row legal
      · cases ok
  · rintro rfl
    exact decodeFields_fields i

/-! ### Decoding words (R140, R146) -/

/-- Settles O1. A word decodes to a command when its fields are the command's (`decodeFields_eq_ok`), and a word has the fields
that make it up (`fieldsOf_eq_iff`). -/
theorem decodeEncode : Obligations.DecodeEncode := by
  intro w i
  calc decode w = .ok i ↔ fieldsOf w = i.fields := decodeFields_eq_ok
    _ ↔ encode i = w := fieldsOf_eq_iff

/-- Settles O3. The words of commands are their encodings; the others fail check 1, check 3 and check 2 of R141. -/
theorem sampleWords : Obligations.SampleWords := by
  have samples : ∀ {w i}, encode i = w → decode w = .ok i := fun {w i} => (decodeEncode w i).2
  exact ⟨samples rfl, samples rfl, samples rfl, samples rfl, samples rfl, samples rfl, samples rfl, samples rfl, samples rfl,
    samples rfl, samples rfl, decodeFields_of_undefined rfl, decodeFields_of_some (i := .sign) rfl,
    decodeFields_of_some (i := .nop) rfl⟩

end Sys2Proof
end

section
/-! PROOFS. The sequencer's turn on a pending word (spec/40_control.md R173, R174), and the match/mask pairs of
spec/30_encoding.md R141. -/

namespace Sys2Proof.Machine

theorem sequencerTurn_of_ok {s : State} {p : Pending} {i : Instr} (busy : s.pending = some p) (ok : decode p.word = .ok i) :
    sequencerTurn s = exec i s := by
  simp only [sequencerTurn, busy, commitWord, ok]

theorem sequencerTurn_of_error {s : State} {p : Pending} {e : DecodeError} (busy : s.pending = some p)
    (err : decode p.word = .error e) : sequencerTurn s = .next (s.failWith (.illegalCommand e)) := by
  simp only [sequencerTurn, busy, commitWord, err]
  rfl

/-- A mask of all bits but bit i fixes a word but for that bit. -/
theorem and_not_twoPow_eq_iff {n i : Nat} {w v : BitVec n} (clear : v &&& BitVec.twoPow n i = 0) :
    w &&& ~~~BitVec.twoPow n i = v ↔ w = v ∨ w = v ||| BitVec.twoPow n i := by
  have parts : ∀ x : BitVec n, (x &&& ~~~BitVec.twoPow n i) ||| (x &&& BitVec.twoPow n i) = x := fun x => by
    rw [← BitVec.and_or_distrib_left, BitVec.not_or_self, BitVec.and_allOnes]
  have masked : v &&& ~~~BitVec.twoPow n i = v := by simpa [clear] using parts v
  constructor
  · rintro rfl
    have whole := (parts w).symm
    rw [BitVec.and_twoPow] at whole
    split at whole
    · exact .inr whole
    · exact .inl (whole.trans BitVec.or_zero)
  · rintro (rfl | rfl)
    · exact masked
    · rw [BitVec.and_or_distrib_right, masked, BitVec.and_not_self]
      exact BitVec.or_zero

/-- SPONGE_INIT has two words, and R141's mask leaves out the bit they differ in. -/
theorem spongeInit_pattern (w : Word) : (∃ sel, decode w = .ok (.spongeInit sel)) ↔ w &&& 0xFFFFFEFF = 0x00000011 := by
  have words : (∃ sel, decode w = .ok (.spongeInit sel)) ↔ w = 0x011 ∨ w = 0x111 := by
    constructor
    · rintro ⟨sel, ok⟩
      cases sel with
      | rate168 => exact .inl ((decodeEncode _ _).1 ok).symm
      | rate136 => exact .inr ((decodeEncode _ _).1 ok).symm
    · rintro (rfl | rfl)
      · exact ⟨.rate168, (decodeEncode _ _).2 rfl⟩
      · exact ⟨.rate136, (decodeEncode _ _).2 rfl⟩
  exact words.trans (and_not_twoPow_eq_iff (i := 8) (by decide)).symm

theorem flags_eq_zero {i : Instr} (other : ∀ sel, i ≠ .spongeInit sel) : i.flags = 0 := by
  cases i with
  | spongeInit sel => exact absurd rfl (other sel)
  | _ => rfl

theorem encode_eq_opcode {i : Instr} (other : ∀ sel, i ≠ .spongeInit sel) : encode i = i.opcode.setWidth 32 := by
  simp only [encode, packFields, Instr.fields, flags_eq_zero other]
  exact (BitVec.setWidth_eq_append (w := 32) (by decide : 8 ≤ 32)).symm

/-- Settles O2. The sequencer commits what the word decodes to (`sequencerTurn_of_ok`, `sequencerTurn_of_error`). The decoder
rejects an undefined opcode first and then asks for checks 2 and 3 of R141 (`decodeFields_of_defined`). The match/mask pairs are
O1 read for the one command that has FLAGS, and for the others. -/
theorem commandWordLegality : Obligations.CommandWordLegality := by
  intro s p busy
  refine ⟨fun undefd => ?_, fun defd illegal => ?_, fun legal => ?_, spongeInit_pattern p.word, fun i other => ?_⟩
  · exact sequencerTurn_of_error busy (decodeFields_of_undefined undefd)
  · obtain ⟨i, decoded⟩ := decodeFields_of_defined defd
    exact sequencerTurn_of_error busy (decoded.trans (if_neg (Bool.eq_false_iff.1 illegal)))
  · simp only [CmdFields.legal, Bool.and_assoc, Bool.and_eq_true_iff (x := CmdFields.opcodeDefined _)] at legal
    obtain ⟨defd, rest⟩ := legal
    obtain ⟨i, decoded⟩ := decodeFields_of_defined defd
    have ok := decoded.trans (if_pos rest)
    exact ⟨i, ok, sequencerTurn_of_ok busy ok⟩
  · rw [decodeEncode, encode_eq_opcode other, eq_comm]

end Sys2Proof.Machine
end

section
/-! PROOFS. The commands outside the key rows (spec/30_encoding.md R150) do not see the key store, the BDS state and BDS_SYNC
(spec/10_state.md R55). -/

namespace Sys2Proof.Machine

/-- A change of the state that the two completions carry over is carried over by the commit step of a body that carries it
over. -/
theorem finish_map {s : State} {r r' : Result State} {f : State → State} (body : r' = f <$> r)
    (success : ∀ shadow, (f shadow).succeed = f shadow.succeed) (failure : ∀ e, (f s).failWith e = f (s.failWith e)) :
    finish (f s) r' = mapNext f (finish s r) := by
  subst body
  cases r with
  | ok shadow => exact congrArg Host.Outcome.next (success shadow)
  | error stop =>
    cases stop with
    | raise e => exact congrArg Host.Outcome.next (failure e)
    | fault => rfl

/-- The state with the key store, the BDS state and BDS_SYNC replaced. -/
abbrev State.withKeyState (key : KeyStore) (bds : Bds) (sync : Bool) (s : State) : State :=
  { s with key := key, bds := bds, bdsSync := sync }

/-- Settles O17. No check or read of these bodies looks at the key store, the BDS state or BDS_SYNC, so replacing these moves
through the body's sequence to the state it returns; where there is no check, the two sides compute to one state. -/
theorem keyIndependence : Obligations.KeyIndependence := by
  intro i s key bds sync outside
  cases i with
  | keyClear | bdsSetup | bdsRound | treehashUpdate | bdsTreehashUpdate | bdsExport | keygen | keygenXseed | getPk | getSk
  | getXseed | setIndex | sign => cases outside
  | nop | keccakF | spongeInit => rfl
  | _ =>
    refine finish_map (f := State.withKeyState key bds sync) ?_ (fun _ => rfl) fun _ => rfl
    simp only [map_bind, map_pure]
    rfl

end Sys2Proof.Machine
end

section
/-! PROOFS. The first failing check of a command is the error it reports (spec/40_control.md R177, spec/60_exceptions.md R453). -/

namespace Sys2Proof.Machine

/-! ### Bodies that open with a check list (R177) -/

/-- Where a check of the list fails, the sequence ends early with the error of the first that does. -/
def Reports {α : Type} (l : List (Bool × CmdError)) (x : Result α) : Prop :=
  ∀ e, firstError l = some e → x = .error (.raise e)

theorem Reports.completes {l : List (Bool × CmdError)} {s : State} {r : Result State} {e : CmdError} (body : Reports l r)
    (fails : firstError l = some e) : finish s r = .next (s.failWith e) := by
  rw [body e fails, finish_raise]

theorem Reports.nil {α : Type} {x : Result α} : Reports [] x := nofun

section
variable {s : State} {α : Type} {l : List (Bool × CmdError)}

/-- A check that holds exactly if the list's first entry says so, before a sequence that reports the rest of the list. -/
theorem Reports.check {b : Bool} {c : Prop} [Decidable c] {e : CmdError} {f : Unit → Result α} (rest : Reports l (f ()))
    (same : b = true ↔ c := by simp) : Reports ((b, e) :: l) (Machine.check c e >>= f) := by
  intro e' fails
  by_cases holds : c
  · rw [firstError, if_pos (same.2 holds)] at fails
    rw [check_of e holds, result_bind_ok, rest e' fails]
  · rw [firstError, if_neg (mt same.1 holds)] at fails
    cases fails
    rw [check_of_not e holds, result_bind_error]

/-- Two checks with one error, against one entry of the list (log entry 15). -/
theorem Reports.checkBoth {c d : Prop} [Decidable c] [Decidable d] {e : CmdError} {f : Unit → Result α}
    (rest : Reports l (f ())) :
    Reports ((decide (c ∧ d), e) :: l) (Machine.check c e >>= fun _ => Machine.check d e >>= f) := by
  by_cases first : c
  · rw [check_of e first]
    exact .check rest (by simp [first])
  · rw [check_of_not e first, decide_eq_false (first ·.1)]
    rintro _ ⟨⟩
    rfl

theorem Reports.range {i : Fin 8} {L : Nat} {f : Unit → Result α} (rest : Reports l (f ())) :
    Reports (fits s i L :: l) (rangeArg s i L >>= f) := .check rest decide_eq_true_iff

theorem Reports.key {f : Unit → Result α} (rest : Reports l (f ())) : Reports (keyCheck s :: l) (needKey s >>= f) :=
  .check rest Iff.rfl

theorem Reports.fast {f : Unit → Result α} (rest : Reports l (f ())) : Reports (fastCheck s :: l) (needFast s >>= f) :=
  .check rest beq_iff_eq

theorem Reports.sync {f : Unit → Result α} (rest : Reports l (f ())) : Reports (syncCheck s :: l) (needSync s >>= f) :=
  .check rest

/-- A HASH_FN code stands for a hash function exactly if it is at most 2 (R44). -/
theorem hashFnOf_cases (c : BitVec 4) :
    (c.toNat ≤ 2 ∧ ∃ hf, hashFnOf c = .ok hf) ∨
      (¬c.toNat ≤ 2 ∧ hashFnOf c = .error (.raise (.failedConversion .hashFunction))) := by
  by_cases low : c.toNat ≤ 2
  · have code : c = 0 ∨ c = 1 ∨ c = 2 := by bv_omega
    rcases code with rfl | rfl | rfl <;> exact .inl ⟨low, _, rfl⟩
  · have ne : ∀ d : BitVec 4, d.toNat ≤ 2 → c ≠ d := by
      rintro d small rfl
      exact low small
    rw [hashFnOf, HashFn.ofCode, if_neg (ne 0 (by decide)), if_neg (ne 1 (by decide)), if_neg (ne 2 (by decide))]
    exact .inr ⟨low, rfl⟩

theorem Reports.hashFn {c : BitVec 4} {f : HashFn → Result α} (rest : ∀ hf, Reports l (f hf)) :
    Reports ((decide (c.toNat ≤ 2), .failedConversion .hashFunction) :: l) (hashFnOf c >>= f) := by
  rcases hashFnOf_cases c with ⟨low, hf, found⟩ | ⟨high, missing⟩
  · rw [found, decide_eq_true low]
    exact rest hf
  · rw [missing, decide_eq_false high]
    rintro _ ⟨⟩
    rfl

theorem firstError_append_eq (l l' : List (Bool × CmdError)) : firstError (l ++ l') = (firstError l).or (firstError l') := by
  induction l with
  | nil => rfl
  | cons c l ih =>
    obtain ⟨holds, e⟩ := c
    cases holds
    · rfl
    · exact ih

/-- The CFG checks give a pair, or they are the error of the first of the two that fails (R455). -/
theorem cfgSuite_cases (s : State) :
    (∃ su, cfgSuite s = .ok su ∧ firstError (cfgChecks s) = none) ∨
      ∃ e, cfgSuite s = .error (.raise e) ∧ firstError (cfgChecks s) = some e := by
  obtain ⟨sha2, shake128, shake256, other⟩ := cfgSuite_by_code s
  by_cases low : (cfgHashFn s).toNat ≤ 2
  · have code : cfgHashFn s = 0 ∨ cfgHashFn s = 1 ∨ cfgHashFn s = 2 := by bv_omega
    rcases code with code | code | code
    · cases size : cfgN s with
      | n32 => exact .inl ⟨_, (sha2 code).trans (by rw [size]; rfl), by simp [cfgChecks, code, cfgBytes, size, NSize.bytes]⟩
      | n64 =>
        exact .inr ⟨_, (sha2 code).trans (by rw [size]; rfl), by
          simp [cfgChecks, code, cfgBytes, size, NSize.bytes, firstError]⟩
    · exact .inl ⟨_, shake128 code, by simp [cfgChecks, code]⟩
    · exact .inl ⟨_, shake256 code, by simp [cfgChecks, code]⟩
  · exact .inr ⟨_, other (by omega), by simp [cfgChecks, low, firstError]⟩

theorem Reports.cfg {f : Suite → Result α} (rest : ∀ su, cfgBytes s = su.n → Reports l (f su)) :
    Reports (cfgChecks s ++ l) (cfgSuite s >>= f) := by
  intro e fails
  rw [firstError_append_eq] at fails
  rcases cfgSuite_cases s with ⟨su, suite, pass⟩ | ⟨e', suite, first⟩
  · rw [pass, Option.none_or] at fails
    rw [suite, result_bind_ok, rest su (cfgBytes_eq suite) e fails]
  · rw [first, Option.some_or] at fails
    cases fails
    rw [suite, result_bind_error]

end

/-! ### The check list of every command -/

/-- Settles O11: each command's body opens with the checks of its list, one for one. -/
theorem firstFailingCheckIsReported : Obligations.FirstFailingCheckIsReported := by
  intro i s e fails
  cases i with
  | nop | keyClear | keccakF | spongeInit => cases fails
  | spongeAbsorb | spongeSqueeze => exact Reports.completes (.check (.range .nil)) fails
  | shake128 | shake256 | sha256 | wotsDigits => exact Reports.completes (.range (.range .nil)) fails
  | coreHash | prf | hashF | hashH | wotsGenChain | wotsPkgen | genLeaf | lTree =>
    exact Reports.completes (.cfg fun su n => n ▸ .range (.range (.range .nil))) fails
  | hMsg => exact Reports.completes (.cfg fun su n => n ▸ .check (.range (.range (.range .nil)))) fails
  | wotsExpandSeed | otsSeed => exact Reports.completes (.cfg fun su n => n ▸ .range (.range .nil)) fails
  | wotsSign | wotsPkFromSig =>
    exact Reports.completes (.cfg fun su n => n ▸ .range (.range (.range (.range .nil)))) fails
  | wotsBaseW => exact Reports.completes (.check (.range (.range .nil))) fails
  | treehash =>
    exact Reports.completes (.cfg fun su n => n ▸ .checkBoth (.check (.check (.range (.range (.range .nil)))))) fails
  | authpath =>
    exact Reports.completes (.cfg fun su n => n ▸ .check (.check (.check (.range (.range (.range .nil)))))) fails
  | rootFromAuth =>
    exact Reports.completes (.cfg fun su n => n ▸ .check (.check (.range (.range (.range (.range .nil)))))) fails
  | bdsSetup | bdsRound => exact Reports.completes (.key (.fast (.check .nil))) fails
  | treehashUpdate => exact Reports.completes (.key (.fast (.check (.check .nil)))) fails
  | bdsTreehashUpdate => exact Reports.completes (.key (.fast .nil)) fails
  | bdsExport => exact Reports.completes (.key (.fast (.range .nil))) fails
  | keygen =>
    refine Reports.completes ?_ fails
    simp only [keyEnums, bind_assoc, pure_bind]
    exact .hashFn fun _ => .check (.check (.check (.check (.check (.check (.check (.range .nil)))))))
  | keygenXseed => exact Reports.completes (.check (.check (.range .nil))) fails
  | getPk | getSk | getXseed => exact Reports.completes (.key (.range .nil)) fails
  | setIndex => exact Reports.completes (.key (.sync (.check (.check .nil)))) fails
  | sign => exact Reports.completes (.key (.sync (.check (.range (.range .nil))))) fails
  | verify => exact Reports.completes (.check (.range (.range (.range .nil)))) fails
  | sigSize => exact Reports.completes (.check .nil) fails
  | heightFromSigSize => exact Reports.completes (.check (.check (.check .nil))) fails

end Sys2Proof.Machine
end

section
/-! PROOFS. The frame of a completion (spec/40_control.md R173, R174), in every state: which fields each command may change, and
that an error completion changes the error report alone. -/

namespace Sys2Proof.Machine

/-! ### What a body may change (spec/30_encoding.md R150) -/

/-- The state s with those fields taken from the shadow copy that command i may change. -/
def State.within (s : State) (i : Instr) (shadow : State) : State :=
  { s with
    buf := shadow.buf
    ks := bif i.usesSponge then shadow.ks else s.ks
    sp := bif i.usesSponge then shadow.sp else s.sp
    key := bif i.writesKey then shadow.key else s.key
    bds := bif i.writesKey then shadow.bds else s.bds
    bdsSync := bif i.writesKey then shadow.bdsSync else s.bdsSync
    verifyOk := if i = .verify then shadow.verifyOk else s.verifyOk
    res0 := bif i.writesRes0 then shadow.res0 else s.res0
    res1 := bif i.writesRes1 then shadow.res1 else s.res1 }

/-- What the commit step of command i leaves, in any state: a success within the command's frame, or an error. -/
inductive Framed (i : Instr) (s : State) : State → Prop
  | success (shadow : State) : Framed i s (s.within i shadow).succeed
  | failure (e : CmdError) : Framed i s (s.failWith e)

theorem framed_of_finish {i : Instr} {s t : State} {r : Result State} (h : finish s r = .next t)
    (body : Yields (fun shadow => shadow = s.within i shadow) r) : Framed i s t := by
  rcases finish_eq_next.1 h with ⟨shadow, value, rfl⟩ | ⟨e, -, rfl⟩
  · rw [body shadow value]
    exact .success shadow
  · exact .failure e

/-- Every command's commit step stays within its frame: past the checks and reads, each body is one update of the fields that are
the command's own. -/
theorem exec_framed {i : Instr} {s t : State} (h : exec i s = .next t) : Framed i s t := by
  cases i with
  | nop | keyClear | keccakF | spongeInit =>
    simp only [exec, execNop, execKeyClear, execKeccakF, execSpongeInit] at h
    exact framed_of_finish h (yields_pure.2 rfl)
  | keygen | keygenXseed =>
    refine framed_of_finish h ?_
    simp only [yields_bind, yields_pure]
    intros
    rw [loadKey_eq]
    rfl
  | setIndex =>
    refine framed_of_finish h ?_
    simp only [yields_bind]
    intros
    split <;>
    · simp only [yields_bind, yields_pure]
      intros
      rfl
  | _ =>
    refine framed_of_finish h ?_
    simp only [yields_bind, yields_pure]
    intros
    rfl

/-- Settles O13: both completions of `exec_framed` leave the fields that no command writes, and a field of the frame that is not
the command's own is as it was. -/
theorem completionFrame : Obligations.CompletionFrame := by
  intro i s t h
  cases exec_framed h with
  | failure e => exact ⟨rfl, rfl, rfl, .inr rfl, by simp⟩
  | success shadow =>
    refine ⟨rfl, rfl, rfl, .inl rfl, rfl, rfl, rfl, rfl, rfl, rfl, rfl, rfl, fun outside => ?_, fun outside => ?_,
      fun outside => ?_, fun outside => ?_, fun outside => ?_⟩
    all_goals simp [State.within, outside]

/-! ### Error completions (R174) -/

/-- ERR_CODE is the detail, the opcode and the class, in bits 23:16, 15:8 and 7:0 (R450). -/
theorem errorWord_toNat (e : CmdError) (opcode : BitVec 8) :
    (errorWord e opcode).toNat = e.detail.toNat * 65536 + opcode.toNat * 256 + e.code.toNat := by
  simp only [errorWord, toNat_append_add, BitVec.toNat_ofNat]
  omega

/-- Settles O15: a success leaves ERR and ERR_CODE as they were, so where ERR is set the completion is `State.failWith`. -/
theorem errorsCommitNothing : Obligations.ErrorsCommitNothing := by
  refine ⟨fun i s t clear h failed => ?_, fun i s t h same clear => ?_⟩
  · cases exec_framed h with
    | success shadow => cases clear.symm.trans failed
    | failure e =>
      refine ⟨e, (errorWord_toNat e _).trans ?_, rfl⟩
      rw [BitVec.extractLsb_toNat, Nat.shiftRight_zero]
  · cases exec_framed h with
    | success shadow => rfl
    | failure e => cases same.trans clear

end Sys2Proof.Machine
end

section
/-! PROOFS. Host writes of registers (spec/40_control.md R170 to R172), and what NOP and KEY_CLEAR commit (R180, R181). -/

namespace Sys2Proof.Machine

/-! ### Register writes (R102, R170, R171) -/

/-- A 4-byte write at a register's offset is a write of that register. -/
theorem hostAccess_writeReg {s : State} {v : Word} {off : Nat} {r : Csr} (small : off < 2 ^ 16) (reg : csrAt off = some r) :
    hostAccess s (.write (BitVec.ofNat 16 off) .word v) = .next (csrWrite s v r) := by
  have target : csrTarget (BitVec.ofNat 16 off).toNat .word = some r := by
    rw [BitVec.toNat_ofNat, Nat.mod_eq_of_lt small]
    exact csrTarget_eq_some.2 ⟨rfl, reg⟩
  simp only [hostAccess, hostWrite, target]

theorem whenIdle_of_idle {s : State} (idle : s.pending = none) (t : State) : s.whenIdle t = t := by
  rw [State.whenIdle, busy_eq_false.2 idle, if_neg Bool.false_ne_true]

/-- Settles O23: each offset is the register's, and a write that needs BUSY = 0 finds it so. -/
theorem registerWrites : Obligations.RegisterWrites := by
  intro s v idle
  have perform := whenIdle_of_idle idle
  refine ⟨hostAccess_writeReg (r := .intEn) (by decide) (by decide),
    hostAccess_writeReg (r := .intStatus) (by decide) (by decide), ?_, ?_, fun i => ?_, fun j => ?_, fun i => ⟨?_, ?_⟩⟩
  · exact (hostAccess_writeReg (r := .cfg) (by decide) (by decide)).trans (congrArg _ (perform _))
  · exact (hostAccess_writeReg (r := .keycfg) (by decide) (by decide)).trans (congrArg _ (perform _))
  · exact (hostAccess_writeReg (by omega) (csrAt_arg i)).trans (congrArg _ (perform _))
  · exact (hostAccess_writeReg (by omega) (csrAt_adrs j)).trans (congrArg _ (perform _))
  · exact (hostAccess_writeReg (by omega) (csrAt_ks i).1).trans (congrArg _ (perform _))
  · exact (hostAccess_writeReg (by omega) (csrAt_ks i).2).trans (congrArg _ (perform _))

/-- Settles O24: CMD, INT_EN and INT_STATUS take a write while BUSY = 1, every other register rejects it (`csrWrite_busy`), and
an access inside BUF is the seventh case of R103. -/
theorem busyWrites : Obligations.BusyWrites := by
  intro s v busy
  refine ⟨?_, hostAccess_writeReg (r := .intEn) (by decide) (by decide),
    hostAccess_writeReg (r := .intStatus) (by decide) (by decide), fun off listed => ?_, fun p size inside => ?_⟩
  · exact (hostAccess_writeReg (r := .cmd) (by decide) (by decide)).trans (congrArg _ (if_pos busy))
  · have map : ∀ off ∈ [0x000, 0x004, 0x008, 0x014, 0x018, 0x028, 0x030, 0x034, 0x060, 0x064, 0x070, 0x074, 0x078, 0x07C] ++
        (List.range 8).map (fun i => 0x040 + 4 * i) ++ (List.range 8).map (fun j => 0x0A0 + 4 * j) ++
        (List.range 50).map (fun i => 0x100 + 4 * i),
        off < 2 ^ 16 ∧ (csrAt off).map Csr.writableBusy = some false := by decide
    obtain ⟨small, writable⟩ := map off listed
    obtain ⟨r, reg, rejects⟩ := Option.map_eq_some_iff.1 writable
    rw [hostAccess_writeReg small reg, csrWrite_busy rejects busy]
    rfl
  · have size := buf_bytes_le s.build.buf
    have offset : (BitVec.ofNat 16 (0x4000 + p)).toNat = 0x4000 + p := by
      rw [BitVec.toNat_ofNat]
      omega
    have target : inBuf s (BitVec.ofNat 16 (0x4000 + p)).toNat := by
      rw [offset, inBuf]
      omega
    have rejected : ∀ a : Access, a.offset = (BitVec.ofNat 16 (0x4000 + p)).toNat → busErrorCase s a := fun a same =>
      .inr (.inr (.inr (.inr (.inr (.inr (.inl ⟨same ▸ target, busy⟩))))))
    exact ⟨busErrors s (.write ..) (rejected _ rfl), busErrors s (.read ..) (rejected _ rfl)⟩

/-! ### The issue step (R172) -/

/-- Settles O25: the write is `State.issue`, which occupies the latch, and STATUS.BUSY is bit 0. -/
theorem cmdWriteIssues : Obligations.CmdWriteIssues := by
  intro s c idle
  have issue : hostAccess s (.write 0x010 .word c) = .next (s.issue c) :=
    (hostAccess_writeReg (r := .cmd) (by decide) (by decide)).trans
      (congrArg _ (if_neg (by simp [State.busy, idle])))
  refine ⟨issue, fun t next => ?_⟩
  cases issue.symm.trans next
  exact (status_bits _).1

/-! ### NOP and KEY_CLEAR (R180, R181) -/

/-- With no key and no BDS_SYNC, bits 7:4 of STATUS are 0 (R39). -/
theorem status_without_key {s : State} (gone : s.key.valid = false) (unsynced : s.bdsSync = false) :
    (csrRead s .status).extractLsb 7 4 = 0 := by
  obtain ⟨-, -, -, -, valid, fast, sync, exhausted⟩ := status_bits s
  simp only [State.fastKey, State.exhausted, gone, unsynced, Bool.false_and] at valid fast sync exhausted
  refine BitVec.eq_of_getLsbD_eq fun b hb => ?_
  obtain rfl | rfl | rfl | rfl : b = 0 ∨ b = 1 ∨ b = 2 ∨ b = 3 := by omega
  all_goals
    simp only [csrRead, BitVec.getLsbD_extractLsb, Nat.reduceAdd, valid, fast, sync, exhausted, Bool.and_false]
    rfl

/-- Settles O49: with the key gone, bits 7:4 of STATUS (`status_without_key`) and the registers that show the key read 0. -/
theorem controlResults : Obligations.ControlResults := fun _ =>
  ⟨rfl, _, rfl, rfl, status_without_key rfl rfl, rfl, rfl, rfl⟩

end Sys2Proof.Machine
end

section
/-! PROOFS. Host accesses while a command is pending (spec/40_control.md R171, spec/70_reset_and_hazards.md R513): they change
INT_EN, INT_STATUS and the last read value alone, and the commit does not depend on these three. -/

namespace Sys2Proof.Machine

/-- The state with the fields replaced that the host can change while BUSY = 1. -/
abbrev State.withHostFields (en st rd : Word) (s : State) : State := { s with intEn := en, intStatus := st, readData := rd }

/-! ### Host accesses while BUSY = 1 (R103, R171) -/

theorem csrWrite_while_busy {s : State} (busy : s.busy = true) (v : Word) (r : Csr) :
    ∃ en st rd, csrWrite s v r = s.withHostFields en st rd := by
  cases writable : r.writableBusy with
  | false => exact ⟨_, _, _, csrWrite_busy writable busy⟩
  | true =>
    cases r with
    | cmd => exact ⟨_, _, _, if_pos busy⟩
    | intEn => exact ⟨_, _, _, rfl⟩
    | intStatus => exact ⟨_, _, _, rfl⟩
    | _ => cases writable

/-- While BUSY = 1 a host access is performed or is a bus error, and it never stops the machine: BUF, whose bytes may be
unwritten, is out of its reach. -/
theorem hostAccess_while_busy {s : State} (busy : s.busy = true) (a : Access) :
    ∃ en st rd, hostAccess s a = .next (s.withHostFields en st rd) := by
  cases target : csrTarget a.offset a.size with
  | none =>
    have buf : bufTarget s a.offset a.size = none := bufTarget_eq_none fun _ _ _ _ _ => by simp [busy]
    rw [hostAccess_rejected (.inl ⟨target, buf⟩)]
    cases a <;> exact ⟨_, _, _, rfl⟩
  | some r =>
    cases a with
    | read off size =>
      simp only [Access.offset, Access.size] at target
      simp only [hostAccess, hostRead, target]
      exact ⟨_, _, _, rfl⟩
    | write off size v =>
      simp only [Access.offset, Access.size] at target
      simp only [hostAccess, hostWrite, target]
      obtain ⟨en, st, rd, write⟩ := csrWrite_while_busy busy v r
      exact ⟨en, st, rd, congrArg _ write⟩

/-- A run goes on from where its first step leads. -/
theorem run_succ {M : Host.Core} {x y : M.State} (h : M.step x = .next y) (k : Nat) : M.run (k + 1) x = M.run k y := by
  simp only [Host.Core.run, h]

/-- A run takes the first move of the list. -/
theorem run_move (s : State) (m : Move) {t : State} {rest : List Move} (h : takeMove { s with sched := rest } m = .next t)
    (k : Nat) :
    core.run (k + 1) { s with sched := m :: rest } = core.run k t :=
  run_succ (M := core) (x := { s with sched := m :: rest }) (y := t) h k

/-- Any number of host accesses while BUSY = 1 leaves all but the three fields as they were. -/
theorem run_while_busy (as : List Access) (rest : List Move) (k : Nat) :
    ∀ s : State, s.busy = true → ∃ en st rd,
      core.run (as.length + k) { s with sched := as.map .host ++ rest } =
        core.run k { s.withHostFields en st rd with sched := rest } := by
  induction as with
  | nil =>
    intro s _
    rw [List.length_nil, Nat.zero_add]
    exact ⟨_, _, _, rfl⟩
  | cons a as ih =>
    intro s busy
    obtain ⟨en, st, rd, access⟩ := hostAccess_while_busy (s := { s with sched := as.map .host ++ rest }) busy a
    obtain ⟨en', st', rd', run⟩ := ih (s.withHostFields en st rd) busy
    refine ⟨en', st', rd', ?_⟩
    rw [List.length_cons, Nat.succ_add]
    exact (run_move s (.host a) access _).trans run

/-! ### The commit step (R173, R174) -/

/-- A body that carries the three fields over commits the same result whatever they hold, but for these three. -/
theorem finish_withHostFields {s t : State} {en st rd : Word} {r r' : Result State}
    (body : r' = State.withHostFields en st rd <$> r) (h : finish s r = .next t) :
    ∃ t', finish (s.withHostFields en st rd) r' = .next t' ∧ t'.withHostFields t.intEn t.intStatus t.readData = t := by
  subst body
  rcases finish_eq_next.1 h with ⟨shadow, rfl, rfl⟩ | ⟨e, rfl, rfl⟩ <;> exact ⟨_, rfl, rfl⟩

theorem loadKey_withHostFields (s : State) (en st rd : Word) (hf : HashFn) (h k : Nat) (strat : Strategy) (S : Bytes) :
    loadKey (s.withHostFields en st rd) hf h k strat S = (loadKey s hf h k strat S).withHostFields en st rd := by
  cases strat <;> rfl

/-- No command's checks or body look at INT_EN, INT_STATUS or the last read value. -/
theorem exec_withHostFields {i : Instr} {s t : State} (en st rd : Word) (h : exec i s = .next t) :
    ∃ t', exec i (s.withHostFields en st rd) = .next t' ∧ t'.withHostFields t.intEn t.intStatus t.readData = t := by
  cases i with
  | nop | keyClear | keccakF | spongeInit =>
    cases h
    exact ⟨_, rfl, rfl⟩
  | keygen | keygenXseed =>
    refine finish_withHostFields ?_ h
    simp only [map_bind, map_pure, ← loadKey_withHostFields]
    rfl
  | setIndex =>
    refine finish_withHostFields ?_ h
    simp only [map_bind, apply_ite (State.withHostFields en st rd <$> ·), map_pure]
    rfl
  | _ =>
    refine finish_withHostFields ?_ h
    simp only [map_bind, map_pure]
    rfl

theorem sequencerTurn_withHostFields {s t : State} (en st rd : Word) (h : sequencerTurn s = .next t) :
    ∃ t', sequencerTurn (s.withHostFields en st rd) = .next t' ∧
      t'.withHostFields t.intEn t.intStatus t.readData = t := by
  cases pending : s.pending with
  | none =>
    simp only [sequencerTurn, pending] at h ⊢
    cases h
    exact ⟨_, rfl, rfl⟩
  | some p =>
    cases word : decode p.word with
    | ok i =>
      rw [sequencerTurn_of_ok pending word] at h
      rw [sequencerTurn_of_ok (s := s.withHostFields en st rd) pending word]
      exact exec_withHostFields en st rd h
    | error e =>
      rw [sequencerTurn_of_error pending word] at h
      rw [sequencerTurn_of_error (s := s.withHostFields en st rd) pending word]
      cases h
      exact ⟨_, rfl, rfl⟩

/-- Settles O19: the accesses leave all but the three fields (`run_while_busy`), and the commit that follows does not depend on
those (`sequencerTurn_withHostFields`). -/
theorem latencyIndependence : Obligations.LatencyIndependence := by
  intro s t p as rest pending h
  obtain ⟨en, st, rd, run⟩ := run_while_busy as (.sequencer :: rest) 1 s (by simp [State.busy, pending])
  obtain ⟨t', commit, same⟩ := sequencerTurn_withHostFields en st rd (s := { s with sched := rest }) h
  exact ⟨t', run.trans (run_move (s.withHostFields en st rd) .sequencer commit 0), same⟩

end Sys2Proof.Machine
end

section
/-! PROOFS. One Keccak round lane by lane (spec/41_keccak_sha.md R203, R204), and the SHA2-256 padding (R230). -/

namespace Sys2Proof.Machine

/-! ### The step maps (R204) -/

/-- Lane x + 5y of a state given by its columns and rows. -/
theorem lane_lanesOf_at (f : Nat → Nat → Lane) {x y : Nat} (hx : x < 5) (hy : y < 5) :
    lane (lanesOf f) (x + 5 * y) = f x y := by
  rw [lane_lanesOf f (by omega)]
  congr 1 <;> omega

/-- θ adds the parities of the two neighbouring columns to a lane. -/
theorem lane_theta (A : Lanes) {x y : Nat} (hx : x < 5) (hy : y < 5) :
    lane (theta A) (x + 5 * y) =
      lane A (x + 5 * y) ^^^
        (columnParity A.toList ((x + 4) % 5) ^^^ (columnParity A.toList ((x + 1) % 5)).rotateLeft 1) := by
  have column : ∀ (g : Nat → Lane) {c : Nat}, c < 5 → ((List.range 5).map g).getD c 0 = g c := by
    intro g c hc
    simp [List.getD_eq_getElem?_getD, List.getElem?_range hc]
  simp only [theta]
  rw [lane_lanesOf_at _ hx hy, column _ hx, column _ (Nat.mod_lt _ (by decide)), column _ (Nat.mod_lt _ (by decide))]
  rfl

/-- ρ and π move lane (x, y) to column y and row 2x + 3y: column X of row Y comes from the lane with x = X + 3Y, because
y + 3(2x + 3y) = x modulo 5. -/
theorem lane_rhoPi (A : Lanes) {x y : Nat} (hx : x < 5) (hy : y < 5) :
    lane (rhoPi A) (y + 5 * ((2 * x + 3 * y) % 5)) = (lane A (x + 5 * y)).rotateLeft (keccakRot.getD (x + 5 * y) 0) := by
  have source : (y + 3 * ((2 * x + 3 * y) % 5)) % 5 = x := by omega
  simp only [rhoPi]
  rw [lane_lanesOf_at _ hy (Nat.mod_lt _ (by decide)), source]
  rfl

/-- χ mixes a lane with the next two of its row. -/
theorem lane_chi (B : Lanes) {x y : Nat} (hx : x < 5) (hy : y < 5) :
    lane (chi B) (x + 5 * y) =
      lane B (x + 5 * y) ^^^ (~~~(lane B ((x + 1) % 5 + 5 * y)) &&& lane B ((x + 2) % 5 + 5 * y)) := by
  simp only [chi]
  rw [lane_lanesOf_at _ hx hy]
  rfl

/-- ι changes lane 0 alone. -/
theorem lane_iota (rc : Lane) (A : Lanes) (i : Nat) :
    lane (iota rc A) i = if i = 0 then lane A i ^^^ rc else lane A i := by
  have changed : (iota rc A).toList = A.toList.set 0 (lane A 0 ^^^ rc) := Vector.toList_set ..
  rw [lane, changed, List.getD_eq_getElem?_getD]
  split
  · next zero =>
    subst zero
    rw [List.getElem?_set_self (by simp)]
    rfl
  · next other =>
    rw [List.getElem?_set_ne (Ne.symm other), ← List.getD_eq_getElem?_getD]
    rfl

/-- Settles O28: C is the column parity, and the states after θ, after ρ and π, and after χ are the model's own, lane by lane. -/
theorem keccakRoundLanes : Obligations.KeccakRoundLanes := fun A rc =>
  ⟨fun x => columnParity A.toList x,
    fun x => columnParity A.toList (x + 4 : Fin 5) ^^^ (columnParity A.toList (x + 1 : Fin 5)).rotateLeft 1,
    fun i => lane (theta A) i, fun i => lane (rhoPi (theta A)) i, fun i => lane (chi (rhoPi (theta A))) i,
    fun x => columnParity_eq A.toList x, fun _ => rfl, fun x y => lane_theta A x.isLt y.isLt,
    fun x y => lane_rhoPi (theta A) x.isLt y.isLt, fun x y => lane_chi (rhoPi (theta A)) x.isLt y.isLt,
    fun i => lane_iota rc (chi (rhoPi (theta A))) i⟩

/-! ### The padding of SHA2-256 (R230) -/

theorem sha2Pad_length (M : Bytes) : (sha2Pad M).length = M.length + 1 + (119 - M.length % 64) % 64 + 8 := by
  simp only [sha2Pad, List.length_append, List.length_singleton, zeros_length, toByte_length]

/-- Settles O30: the model's count of zero bytes is the residue modulo 64 that fills the last block, and so the least. -/
theorem sha2PaddingIsMinimal : Obligations.Sha2PaddingIsMinimal := by
  intro M
  refine ⟨(119 - M.length % 64) % 64, rfl, ?_, fun z' whole => ?_⟩
  · rw [sha2Pad_length]
    omega
  · omega

end Sys2Proof.Machine
end

section
/-! PROOFS. The streaming sponge (spec/41_keccak_sha.md R215 to R217) is the one-shot sponge of R205: its bytes in and out may be
split anywhere, so they may be split into the blocks of R205. -/

namespace Sys2Proof.Machine

/-! ### Absorbing (R216) -/

/-- Absorbing two strings one after the other is absorbing their concatenation. -/
theorem absorbStream_append (rate : Nat) (A : Lanes) (pos : Nat) (M₁ M₂ : Bytes) :
    absorbStream rate A pos (M₁ ++ M₂) =
      absorbStream rate (absorbStream rate A pos M₁).1 (absorbStream rate A pos M₁).2 M₂ := by
  induction M₁ generalizing A pos with
  | nil => rfl
  | cons b M₁ ih =>
    simp only [List.cons_append, absorbStream]
    split
    · exact ih ..
    · exact ih ..

/-- A string that does not fill the block is only XORed in. -/
theorem absorbStream_of_lt {rate : Nat} (A : Lanes) {pos : Nat} {M : Bytes} (room : pos + M.length < rate) :
    absorbStream rate A pos M = (xorString A pos M, pos + M.length) := by
  induction M generalizing A pos with
  | nil => rfl
  | cons b M ih =>
    rw [List.length_cons] at room ⊢
    rw [absorbStream, if_neg (by omega), ih _ (by omega), xorString, Nat.add_right_comm, Nat.add_assoc]

/-- A string that fills the block exactly is XORed in and the block is permuted. -/
theorem absorbStream_of_eq {rate : Nat} (A : Lanes) {pos : Nat} {M : Bytes} (inside : pos < rate) (full : pos + M.length = rate) :
    absorbStream rate A pos M = (keccakF (xorString A pos M), 0) := by
  induction M generalizing A pos with
  | nil => simp only [List.length_nil] at full; omega
  | cons b M ih =>
    rw [List.length_cons] at full
    rw [absorbStream, xorString]
    split
    · next last =>
      obtain rfl : M = [] := List.length_eq_zero_iff.1 (by omega)
      rfl
    · next more => exact ih _ (by omega) (by omega)

/-- The absorb loop of R205 leaves the bytes after its whole blocks. -/
theorem absorbBlocks_rest (rate m : Nat) (A : Lanes) (M : Bytes) : (absorbBlocks rate m A M).2 = M.drop (m * rate) := by
  induction m generalizing A M with
  | zero => simp [absorbBlocks]
  | succ m ih => rw [absorbBlocks, ih, List.drop_drop, Nat.succ_mul, Nat.add_comm]

/-- Absorbing a string byte by byte is absorbing its first m blocks by R205's loop and then the rest. -/
theorem absorbStream_eq_absorbBlocks {rate m : Nat} (A : Lanes) {M : Bytes} (pos : 0 < rate) (long : m * rate ≤ M.length) :
    absorbStream rate A 0 M = absorbStream rate (absorbBlocks rate m A M).1 0 (absorbBlocks rate m A M).2 := by
  induction m generalizing A M with
  | zero => rfl
  | succ m ih =>
    rw [Nat.succ_mul] at long
    calc absorbStream rate A 0 M
        = absorbStream rate A 0 (M.take rate ++ M.drop rate) := by rw [List.take_append_drop]
      _ = absorbStream rate (keccakF (xorString A 0 (M.take rate))) 0 (M.drop rate) := by
          rw [absorbStream_append, absorbStream_of_eq A pos (by rw [List.length_take]; omega)]
      _ = _ := ih _ (by rw [List.length_drop]; omega)

/-- SPONGE_ABSORB of a whole message from the initial state leaves R205's state before the padding. -/
theorem absorbStream_zeroLanes {rate : Nat} (M : Bytes) (pos : 0 < rate) :
    absorbStream rate zeroLanes 0 M =
      (xorString (absorbBlocks rate (M.length / rate) zeroLanes M).1 0 (absorbBlocks rate (M.length / rate) zeroLanes M).2,
        (absorbBlocks rate (M.length / rate) zeroLanes M).2.length) := by
  have short : (absorbBlocks rate (M.length / rate) zeroLanes M).2.length < rate := by
    rw [absorbBlocks_rest, List.length_drop, Nat.mul_comm, ← Nat.mod_eq_sub]
    exact Nat.mod_lt _ pos
  rw [absorbStream_eq_absorbBlocks zeroLanes pos (Nat.div_mul_le_self M.length rate),
    absorbStream_of_lt _ (by rwa [Nat.zero_add]), Nat.zero_add]

/-! ### Squeezing (R217) -/

/-- Squeezing L₁ bytes and then L₂ is squeezing L₁ + L₂. -/
theorem squeezeStream_add (rate : Nat) (A : Lanes) (pos L₁ L₂ : Nat) :
    let a := squeezeStream rate L₁ A pos
    let b := squeezeStream rate L₂ a.1 a.2.1
    squeezeStream rate (L₁ + L₂) A pos = (b.1, b.2.1, a.2.2 ++ b.2.2) := by
  induction L₁ generalizing A pos with
  | zero => rw [Nat.zero_add]; rfl
  | succ L₁ ih =>
    rw [Nat.succ_add]
    simp only [squeezeStream, ih, List.cons_append]

/-- The bytes up to the end of the block come from the state as it is. -/
theorem squeezeStream_of_le {rate L : Nat} (A : Lanes) {pos : Nat} (room : pos + L ≤ rate) :
    squeezeStream rate L A pos = (A, pos + L, (List.range' pos L).map (getByte A)) := by
  induction L generalizing pos with
  | zero => rfl
  | succ L ih =>
    rw [squeezeStream, if_neg (by omega)]
    simp only [ih (pos := pos + 1) (by omega), List.range'_succ, List.map_cons, Nat.add_right_comm pos 1 L, Nat.add_assoc]

/-- At the end of a block the next byte is byte 0 of the permuted state. -/
theorem squeezeStream_at_rate {rate : Nat} (L : Nat) (A : Lanes) (pos : 0 < rate) :
    (squeezeStream rate L A rate).2.2 = (squeezeStream rate L (keccakF A) 0).2.2 := by
  cases L with
  | zero => rfl
  | succ L =>
    have start : ¬ 0 = rate := by omega
    simp only [squeezeStream, if_pos, if_neg start]

/-- The squeeze loop of R205 gives the bytes that squeezing gives from the end of a block on. -/
theorem squeezeBlocks_eq_squeezeStream {rate : Nat} (m : Nat) (A : Lanes) (pos : 0 < rate) :
    squeezeBlocks rate m A = (squeezeStream rate (m * rate) A rate).2.2 := by
  induction m generalizing A with
  | zero => rw [Nat.zero_mul]; rfl
  | succ m ih =>
    rw [squeezeStream_at_rate _ _ pos, Nat.succ_mul, Nat.add_comm (m * rate), squeezeStream_add,
      squeezeStream_of_le _ (Nat.le_of_eq (Nat.zero_add rate)), Nat.zero_add, squeezeBlocks, ih, List.range_eq_range']

/-- Squeezing fewer bytes gives the first of them. -/
theorem squeezeStream_take {rate L N : Nat} (A : Lanes) {pos : Nat} (h : pos ≤ rate) (hr : 0 < rate) (le : L ≤ N) :
    (squeezeStream rate N A pos).2.2.take L = (squeezeStream rate L A pos).2.2 := by
  obtain ⟨more, rfl⟩ := Nat.exists_eq_add_of_le le
  rw [squeezeStream_add, List.take_left' (squeezeStream_bounds L A h hr).2]

/-- The blocks of R205's squeeze loop cover L bytes. -/
theorem le_ceil_mul {rate : Nat} (L : Nat) (pos : 0 < rate) : L ≤ (L + rate - 1) / rate * rate := by
  rw [← Nat.ceilDiv_eq_add_pred_div, Nat.mul_comm]
  exact le_smul_ceilDiv pos

/-- R205's sponge squeezes from the padded state that absorbing byte by byte leaves. -/
theorem sponge_eq_squeezeBlocks (sel : RateSel) (M : Bytes) (L : Nat) :
    let rate := rateOf sel
    let r := absorbStream rate zeroLanes 0 M
    sponge sel M L = (squeezeBlocks rate ((L + rate - 1) / rate) (padState rate r.1 r.2)).take L := by
  simp only [absorbStream_zeroLanes M (rateOf_pos sel)]
  rfl

/-- Settles O29: both splits are inductions on the first part, and they cut the stream into R205's blocks. -/
theorem streamingSpongeIsOneShot : Obligations.StreamingSpongeIsOneShot := by
  refine ⟨fun sel M L => ?_, absorbStream_append, squeezeStream_add⟩
  have pos := rateOf_pos sel
  intro r q
  have padded : q = (keccakF (padState (rateOf sel) r.1 r.2), 0) := if_pos rfl
  calc (squeezeStream (rateOf sel) L q.1 q.2).2.2
      = (squeezeStream (rateOf sel) L (padState (rateOf sel) r.1 r.2) (rateOf sel)).2.2 := by
        rw [padded, squeezeStream_at_rate _ _ pos]
    _ = sponge sel M L := by
        rw [sponge_eq_squeezeBlocks, squeezeBlocks_eq_squeezeStream _ _ pos,
          squeezeStream_take _ (Nat.le_refl _) pos (le_ceil_mul L pos)]

end Sys2Proof.Machine
end

section
/-! PROOFS. What the Hash Core commands commit where their checks pass (spec/41_keccak_sha.md R210 to R235). -/

namespace Sys2Proof.Machine

section
variable {s : State} {M : Bytes}

/-- SPONGE_ABSORB (R216). -/
theorem execSpongeAbsorb_of (pass : passes s .spongeAbsorb) (input : readArg s 0 (argN s 1) = .ok M) :
    exec .spongeAbsorb s =
      .next { s with
              ks := (absorbStream (rateOf s.sp.rate) s.ks s.sp.pos M).1
              sp := { s.sp with pos := (absorbStream (rateOf s.sp.rate) s.ks s.sp.pos M).2 } }.succeed := by
  simp only [passes, checks, firstError_cons, fits_holds, beq_iff_eq] at pass
  obtain ⟨phase, fit, -⟩ := pass
  simp only [exec, execSpongeAbsorb, check_of _ phase, rangeArg_of fit, input, result_bind_ok, result_pure, finish_ok]

/-- SPONGE_SQUEEZE (R217). -/
theorem execSpongeSqueeze_of (pass : passes s .spongeSqueeze) :
    let q := squeezeStart s.ks s.sp
    let r := squeezeStream (rateOf s.sp.rate) (argN s 1) q.1 q.2
    exec .spongeSqueeze s =
      .next { s with
              ks := r.1
              sp := { phase := .squeeze, rate := s.sp.rate, pos := r.2.1 }
              buf := s.buf.write (argN s 0) r.2.2 }.succeed := by
  simp only [passes, checks, firstError_cons, fits_holds, bne_iff_ne] at pass
  obtain ⟨phase, fit, -⟩ := pass
  simp only [exec, execSpongeSqueeze, check_of _ phase, rangeArg_of fit, result_bind_ok, result_pure, finish_ok]
  rfl

/-- The body that SHAKE128, SHAKE256 and SHA256 share (R220, R221, R235): n bytes, made by f of the string at ARG2, go to
ARG0. -/
def hashToBuf (s : State) (n : Nat) (f : Bytes → Bytes) : Result State := do
  rangeArg s 0 n
  rangeArg s 2 (argN s 3)
  let M ← readArg s 2 (argN s 3)
  pure (writeArg s 0 (f M))

theorem hashToBuf_of {n : Nat} (f : Bytes → Bytes)
    (pass : firstError [fits s 0 n, fits s 2 (argN s 3)] = none) (input : readArg s 2 (argN s 3) = .ok M) :
    finish s (hashToBuf s n f) = .next (s.writeBuf (argN s 0) (f M)).succeed := by
  simp only [firstError_cons, fits_holds] at pass
  obtain ⟨out, inputFits, -⟩ := pass
  simp only [hashToBuf, rangeArg_of out, rangeArg_of inputFits, input, result_bind_ok, result_pure, finish_ok, writeArg]

theorem exec_shake128 : exec .shake128 s = finish s (hashToBuf s (argN s 1) (sponge .rate168 · (argN s 1))) := rfl

theorem exec_shake256 : exec .shake256 s = finish s (hashToBuf s (argN s 1) (sponge .rate136 · (argN s 1))) := rfl

theorem exec_sha256 : exec .sha256 s = finish s (hashToBuf s 32 sha256) := rfl

end

/-- Settles O31: KECCAK_F and SPONGE_INIT have no check and read nothing; absorbing and squeezing by their `exec…_of` lemmas; the
three one-shot hashes are `hashToBuf`, whose check list is theirs. -/
theorem hashCoreResults : Obligations.HashCoreResults := by
  refine fun s => ⟨rfl, fun _ => rfl, fun _ pass input => execSpongeAbsorb_of pass input, fun pass => execSpongeSqueeze_of pass,
    fun M input => ⟨fun pass => ?_, fun pass => ?_, fun pass => ?_⟩⟩
  · rw [exec_shake128, hashToBuf_of _ pass input]
  · rw [exec_shake256, hashToBuf_of _ pass input]
  · rw [exec_sha256, hashToBuf_of _ pass input]

end Sys2Proof.Machine
end

section
/-! PROOFS. The base-16 digits of a byte string and of a digest, with its checksum (spec/43_wots.md R281, R282), and the
parameters of WOTS+ (spec/00_scope.md R7). -/

namespace Sys2Proof.Machine

/-! ### Parameters and digits (R7, R281) -/

theorem wotsLen1_eq (n : Nat) : wotsLen1 n = 2 * n := by
  unfold wotsLen1
  omega

theorem wotsLen2_eq {n : Nat} (size : n = 32 ∨ n = 64) : wotsLen2 n = 3 := by
  rcases size with rfl | rfl <;> rfl

/-- Digit o of a byte string; like the string's bytes, it is 0 past the end. -/
theorem flatMap_nibbles_getD (X : Bytes) (o : Nat) :
    (X.flatMap nibbles).getD o 0 = if o % 2 = 0 then (X.getD (o / 2) 0).toNat / 16 else (X.getD (o / 2) 0).toNat % 16 := by
  induction X generalizing o with
  | nil => simp
  | cons b X ih =>
    match o with
    | 0 | 1 => simp [nibbles]
    | o + 2 => simpa [nibbles, Nat.add_mod_right] using ih o

theorem flatMap_nibbles_length (X : Bytes) : (X.flatMap nibbles).length = 2 * X.length := by
  induction X with
  | nil => rfl
  | cons b X ih =>
    simp only [List.flatMap_cons, List.length_append, ih, nibbles, List.length_cons, List.length_nil]
    omega

theorem baseW_length {X : Bytes} {outLen : Nat} (enough : outLen ≤ 2 * X.length) : (baseW X outLen).length = outLen := by
  rw [baseW, List.length_take, flatMap_nibbles_length, Nat.min_eq_left enough]

theorem baseW_getD (X : Bytes) {outLen o : Nat} (below : o < outLen) :
    (baseW X outLen).getD o 0 = (X.flatMap nibbles).getD o 0 := by
  rw [baseW, List.getD_eq_getElem?_getD, List.getElem?_take_of_lt below, List.getD_eq_getElem?_getD]

/-- A digit as R281 computes it: the byte shifted by 4 or 0 bits, and masked. -/
theorem nibble_eq_shift_mask (b : Byte) (high : Prop) [Decidable high] :
    (if high then b.toNat / 16 else b.toNat % 16) = (b.toNat >>> (if high then 4 else 0)) &&& 15 := by
  have small : b.toNat < 256 := b.isLt
  rw [show 15 = 2 ^ 4 - 1 from rfl, Nat.and_two_pow_sub_one_eq_mod, Nat.shiftRight_eq_div_pow]
  split <;> omega

/-- Settles O33: `baseW_length`, and `flatMap_nibbles_getD` for each digit that `baseW` takes, the digit being rewritten as
R281's shift and mask. -/
theorem baseWDigits : Obligations.BaseWDigits :=
  ⟨by decide,
    fun X _ enough => ⟨baseW_length enough, fun o below => by
      rw [baseW_getD X below, flatMap_nibbles_getD, nibble_eq_shift_mask]⟩,
    by decide, by decide⟩

/-! ### The digits of a digest (R282) -/

theorem baseW_le {X : Bytes} {outLen d : Nat} (mem : d ∈ baseW X outLen) : d ≤ 15 := by
  obtain ⟨b, -, digit⟩ := List.mem_flatMap.1 (List.mem_of_mem_take mem)
  have small : b.toNat < 256 := b.isLt
  simp only [nibbles, List.mem_cons, List.not_mem_nil, or_false] at digit
  omega

theorem wotsDigits_getD_le (M : Bytes) (n i : Nat) : (wotsDigits M n).getD i 0 ≤ 15 := by
  by_cases inside : i < (wotsDigits M n).length
  · rw [List.getD_eq_getElem _ _ inside]
    rcases List.mem_append.1 (List.getElem_mem inside) with message | checksum
    · exact baseW_le message
    · exact baseW_le checksum
  · rw [List.getD_eq_default _ _ (by omega)]
    omega

theorem wotsChecksum_le (D : List Nat) : wotsChecksum D ≤ 15 * D.length := by
  induction D with
  | nil => simp [wotsChecksum]
  | cons d D ih =>
    simp only [wotsChecksum, List.map_cons, List.sum_cons, List.length_cons] at ih ⊢
    omega

/-- The three digits of the checksum: two bytes hold it, shifted left by 4 bits, and lose nothing of it. -/
theorem baseW_checksum {c : Nat} (small : c < 4096) :
    baseW (toByte (c <<< 4) 2) 3 = [c / 256, c / 16 % 16, c % 16] := by
  simp only [baseW, toByte, nibbles, List.nil_append, List.flatMap_cons, List.flatMap_nil, List.cons_append,
    List.take_succ_cons, List.take_zero, BitVec.toNat_ofNat, Nat.shiftLeft_eq, List.cons.injEq, and_true]
  omega

/-- The message digits, then the three nibbles of their checksum. -/
theorem wotsDigits_eq {M : Bytes} {n : Nat} (size : n = 32 ∨ n = 64) :
    let c := wotsChecksum (baseW M (2 * n))
    wotsDigits M n = baseW M (2 * n) ++ [c / 256, c / 16 % 16, c % 16] := by
  intro c
  have bound : c ≤ 15 * (2 * n) := (wotsChecksum_le _).trans (Nat.mul_le_mul_left 15 (baseW_length_le ..))
  rw [← baseW_checksum (c := c) (by omega), wotsDigits, wotsLen2_eq size, wotsLen1_eq]

/-- The checksum summed over the positions of the digits. -/
theorem wotsChecksum_eq_sum_range (D : List Nat) :
    wotsChecksum D = ((List.range D.length).map fun o => 15 - D.getD o 0).sum := by
  refine congrArg List.sum (List.ext_getElem (by simp) fun o inMap _ => ?_)
  simp only [List.length_map] at inMap
  simp [inMap]

/-- Settles O34: `wotsDigits_eq` splits the digits into the message's and the checksum's. -/
theorem checksumDigits : Obligations.ChecksumDigits := by
  intro M n size len csum
  have count : (baseW M (2 * n)).length = 2 * n := baseW_length (by omega)
  have message : ∀ o, o < 2 * n → (wotsDigits M n).getD o 0 = (baseW M (2 * n)).getD o 0 := fun o below => by
    rw [wotsDigits_eq size, List.getD_append _ _ _ _ (by omega)]
  have sum : csum = wotsChecksum (baseW M (2 * n)) := by
    rw [wotsChecksum_eq_sum_range, count]
    exact congrArg List.sum (List.map_congr_left fun o below => by rw [message o (List.mem_range.1 below)])
  have checksum : ∀ j, (wotsDigits M n).getD (2 * n + j) 0 = [csum / 256, csum / 16 % 16, csum % 16].getD j 0 := fun j => by
    rw [wotsDigits_eq size, List.getD_append_right _ _ _ _ (by omega), count, Nat.add_sub_cancel_left, sum]
  refine ⟨?_, fun o below => ?_, ?_, checksum 0, checksum 1, checksum 2⟩
  · simp [wotsDigits_eq size, count, wotsLen, wotsLen1_eq, wotsLen2_eq size]
  · rw [message o below, baseW_getD M below, flatMap_nibbles_getD]
  · exact sum.le.trans ((wotsChecksum_le _).trans_eq (by rw [count]))

end Sys2Proof.Machine
end

section
/-! PROOFS. The chains of WOTS+ (spec/43_wots.md R284): rung by rung, run after run, and all the chains of a key or a signature
(R286 to R289). -/

namespace Sys2Proof.Machine

/-! ### One chain (R284) -/

theorem genChain_zero (su : Suite) (X : Bytes) (s : Nat) (P : Bytes) (a : Adrs) : genChain su X s 0 P a = X := by
  rw [genChain, show min (s + 0) 15 - s = 0 by omega]
  rfl

theorem genChain_of_le (su : Suite) (X : Bytes) {s : Nat} (t : Nat) (P : Bytes) (a : Adrs) (top : 15 ≤ s) :
    genChain su X s t P a = X := by
  rw [genChain, show min (s + t) 15 - s = 0 by omega]
  rfl

theorem genChain_succ (su : Suite) (X : Bytes) {s : Nat} (t : Nat) (P : Bytes) (a : Adrs) (below : s < 15) :
    genChain su X s (t + 1) P a = genChain su (hashF su P (setW a 6 s) X) (s + 1) t P a := by
  rw [genChain, show min (s + (t + 1)) 15 - s = min (s + 1 + t) 15 - (s + 1) + 1 by omega]
  rfl

/-- Settles O35: the three equations of `genChain`. -/
theorem chainRungs : Obligations.ChainRungs :=
  fun su X s t P a => ⟨genChain_zero su X s P a, genChain_of_le su X t P a, genChain_succ su X t P a⟩

/-- t rungs and then u more, from where the first run stopped, are t + u rungs. -/
theorem genChain_genChain (su : Suite) (X : Bytes) (s t u : Nat) (P : Bytes) (a : Adrs) :
    genChain su (genChain su X s t P a) (s + t) u P a = genChain su X s (t + u) P a := by
  induction t generalizing X s with
  | zero => rw [genChain_zero, Nat.add_zero, Nat.zero_add]
  | succ t ih =>
    by_cases below : s < 15
    · rw [genChain_succ su X t P a below, show t + 1 + u = t + u + 1 by omega, genChain_succ su X (t + u) P a below, ← ih,
        show s + (t + 1) = s + 1 + t by omega]
    · have top : 15 ≤ s := by omega
      rw [genChain_of_le su X (t + 1) P a top, genChain_of_le su X u P a (by omega), genChain_of_le su X _ P a top]

/-! ### The chains of a key (R286 to R289) -/

/-- Settles O36: chain i of the signature stands on rung D[i] ≤ 15, and 15 - D[i] more rungs take it to the public key's 15. -/
theorem recoveredKeyIsPublicKey : Obligations.RecoveredKeyIsPublicKey := by
  intro su M S P a
  rw [wotsPkFromSig, wotsSign, wotsPkgen, runChains, runChains, List.mapIdx_mapIdx]
  refine congrArg (List.mapIdx · (expandSeed su S)) (funext fun i => funext fun x => ?_)
  have whole := genChain_genChain su x 0 ((wotsDigits M su.n).getD i 0) (15 - (wotsDigits M su.n).getD i 0) P (setW a 5 i)
  rwa [Nat.zero_add, Nat.add_sub_cancel' (wotsDigits_getD_le M su.n i)] at whole

theorem chunks_eq_map_range (n m : Nat) (bs : Bytes) :
    chunks n m bs = (List.range m).map fun i => (bs.drop (n * i)).take n := by
  refine List.ext_getElem? fun i => ?_
  by_cases inside : i < m
  · rw [chunks_getElem? bs inside, List.getElem?_map, List.getElem?_range inside, Option.map_some]
  · rw [List.getElem?_eq_none (by simp; omega), List.getElem?_eq_none (by simp; omega)]

/-- Chains run over chunks that are given position by position, with their outputs joined (R286 to R288). -/
theorem runChains_map_range_flatten (su : Suite) (P : Bytes) (a : Adrs) (start steps : Nat → Nat) (m : Nat)
    (chunk : Nat → Bytes) : (runChains su P a start steps ((List.range m).map chunk)).flatten =
      (List.range m).flatMap fun i => genChain su (chunk i) (start i) (steps i) P (setW a 5 i) := by
  rw [List.flatMap_def]
  refine congrArg List.flatten (List.ext_getElem (by simp) fun i _ _ => ?_)
  simp [runChains]

end Sys2Proof.Machine
end

section
/-! PROOFS. What the WOTS+ commands commit where their checks pass (spec/43_wots.md R300 to R307); first, for any command, what a
body gives that opens with a check list (spec/40_control.md R177). -/

namespace Sys2Proof.Machine

/-! ### Bodies whose checks pass (R177) -/

/-- Where every check of the list holds, the sequence gives the value a. The counterpart of `Reports`. -/
def Gives {α : Type} (l : List (Bool × CmdError)) (x : Result α) (a : α) : Prop := firstError l = none → x = .ok a

theorem Gives.completes {l : List (Bool × CmdError)} {s shadow : State} {r : Result State} (body : Gives l r shadow)
    (pass : firstError l = none) : finish s r = .next shadow.succeed := by
  rw [body pass, finish_ok]

section
variable {s : State} {α : Type} {l : List (Bool × CmdError)} {a : α}

theorem Gives.value : Gives [] (pure a) a := fun _ => rfl

theorem Gives.check {b : Bool} {c : Prop} [Decidable c] {e : CmdError} {f : Unit → Result α} (rest : Gives l (f ()) a)
    (same : b = true → c := by simp) : Gives ((b, e) :: l) (Machine.check c e >>= f) a := by
  intro pass
  obtain ⟨holds, pass⟩ := firstError_cons.1 pass
  rw [check_of e (same holds), result_bind_ok, rest pass]

theorem Gives.range {i : Fin 8} {L : Nat} {f : Unit → Result α} (rest : Gives l (f ()) a) :
    Gives (fits s i L :: l) (rangeArg s i L >>= f) a := .check rest of_decide_eq_true

theorem Gives.read {i : Fin 8} {L : Nat} {X : Bytes} {f : Bytes → Result α} (input : readArg s i L = .ok X)
    (rest : Gives l (f X) a) : Gives l (readArg s i L >>= f) a := by
  rwa [input, result_bind_ok]

theorem Gives.cfg {su : Suite} {f : Suite → Result α} (suite : cfgSuite s = .ok su)
    (rest : su.n = cfgBytes s → Gives l (f su) a) : Gives (cfgChecks s ++ l) (cfgSuite s >>= f) a := by
  intro pass
  rw [suite, result_bind_ok]
  exact rest (cfgBytes_eq suite).symm (firstError_append.1 pass).2

end

/-! ### Secret chunks and seeds (R283, R285) -/

theorem expandSeed_flatten (su : Suite) (S : Bytes) :
    (expandSeed su S).flatten =
      (List.range (wotsLen su.n)).flatMap fun i => digest su (toByte 3 su.n ++ S ++ toByte i 32) := by
  simp only [expandSeed, prf, coreHash_eq_digest, List.flatMap_def]

/-- OTS_SEED's input is the address with its words 5, 6 and 7 zero (R285). -/
theorem otsSeed_eq_digest (su : Suite) (SK : Bytes) (a : Adrs) :
    otsSeed su SK a = digest su (toByte 3 su.n ++ SK ++ adrsTail ((a.set 5 0).set 6 0) 0) :=
  prf_adrs su SK (setW (setW a 5 0) 6 0) (by decide)

/-! ### The commands (R300 to R307) -/

section
variable {s : State} {su : Suite} {P X M : Bytes}

theorem execWotsExpandSeed_of (suite : cfgSuite s = .ok su) (input : readArg s 4 su.n = .ok X)
    (pass : passes s .wotsExpandSeed) :
    exec .wotsExpandSeed s = .next (s.writeBuf (argN s 0) (expandSeed su X).flatten).succeed :=
  Gives.completes (.cfg suite fun n => n ▸ .range (.range (.read input .value))) pass

theorem execWotsGenChain_of (suite : cfgSuite s = .ok su) (seed : readArg s 2 su.n = .ok P) (input : readArg s 4 su.n = .ok X)
    (pass : passes s .wotsGenChain) :
    exec .wotsGenChain s =
      .next (s.writeBuf (argN s 0) (genChain su X (argN s 1) (argN s 3) P s.latch.adrs)).succeed :=
  Gives.completes (.cfg suite fun n => n ▸ .range (.range (.range (.read seed (.read input .value))))) pass

theorem execWotsBaseW_of (input : readArg s 4 (argN s 5) = .ok X) (pass : passes s .wotsBaseW) :
    exec .wotsBaseW s = .next (s.writeBuf (argN s 0) (digitBytes (baseW X (argN s 3)))).succeed :=
  Gives.completes (.check (.range (.range (.read input .value)))) pass

theorem execWotsDigits_of (input : readArg s 4 (cfgN s).bytes = .ok X) (pass : passes s .wotsDigits) :
    exec .wotsDigits s = .next (s.writeBuf (argN s 0) (digitBytes (wotsDigits X (cfgN s).bytes))).succeed :=
  Gives.completes (.range (.range (.read input .value))) pass

theorem execWotsPkgen_of (suite : cfgSuite s = .ok su) (seed : readArg s 2 su.n = .ok P) (secret : readArg s 4 su.n = .ok X)
    (pass : passes s .wotsPkgen) :
    exec .wotsPkgen s = .next (s.writeBuf (argN s 0) (wotsPkgen su X P s.latch.adrs).flatten).succeed :=
  Gives.completes (.cfg suite fun n => n ▸ .range (.range (.range (.read seed (.read secret .value))))) pass

theorem execWotsSign_of (suite : cfgSuite s = .ok su) (seed : readArg s 2 su.n = .ok P) (secret : readArg s 4 su.n = .ok X)
    (message : readArg s 5 su.n = .ok M) (pass : passes s .wotsSign) :
    exec .wotsSign s = .next (s.writeBuf (argN s 0) (wotsSign su M X P s.latch.adrs).flatten).succeed :=
  Gives.completes
    (.cfg suite fun n => n ▸ .range (.range (.range (.range (.read seed (.read secret (.read message .value))))))) pass

theorem execWotsPkFromSig_of (suite : cfgSuite s = .ok su) (seed : readArg s 2 su.n = .ok P)
    (sig : readArg s 4 (wotsLen su.n * su.n) = .ok X) (message : readArg s 5 su.n = .ok M) (pass : passes s .wotsPkFromSig) :
    exec .wotsPkFromSig s =
      .next (s.writeBuf (argN s 0) (wotsPkFromSig su (chunks su.n (wotsLen su.n) X) M P s.latch.adrs).flatten).succeed :=
  Gives.completes
    (.cfg suite fun n => n ▸ .range (.range (.range (.range (.read seed (.read sig (.read message .value))))))) pass

theorem execOtsSeed_of (suite : cfgSuite s = .ok su) (secret : readArg s 4 su.n = .ok X) (pass : passes s .otsSeed) :
    exec .otsSeed s = .next (s.writeBuf (argN s 0) (otsSeed su X s.latch.adrs)).succeed :=
  Gives.completes (.cfg suite fun n => n ▸ .range (.range (.read secret .value))) pass

end

/-- Settles O37: each command by its `exec…_of` lemma; PRF written out as one digest, and CFG.N64 as n. -/
theorem wotsPartResults : Obligations.WotsPartResults := by
  refine fun s P X => ⟨fun su suite input => ⟨fun pass => ?_, fun pass seed => execWotsGenChain_of suite seed input pass,
    fun pass => ?_⟩, fun pass input => execWotsBaseW_of input pass, fun pass input => ?_⟩
  · rw [execWotsExpandSeed_of suite input pass, expandSeed_flatten]
  · rw [execOtsSeed_of suite input pass, otsSeed_eq_digest]
  · rw [← cfgN_bytes] at input ⊢
    exact execWotsDigits_of input pass

/-- Settles O38: each command by its `exec…_of` lemma; chains run over chunks given position by position are themselves given
position by position. -/
theorem wotsKeyResults : Obligations.WotsKeyResults := by
  refine fun s su P X M suite seed => ⟨fun pass secret => ?_, fun pass secret message => ?_, fun pass sig message => ?_⟩
  · rw [execWotsPkgen_of suite seed secret pass, wotsPkgen, expandSeed, runChains_map_range_flatten]
  · rw [execWotsSign_of suite seed secret message pass, wotsSign, expandSeed, runChains_map_range_flatten]
  · rw [execWotsPkFromSig_of suite seed sig message pass, wotsPkFromSig, chunks_eq_map_range, runChains_map_range_flatten]

end Sys2Proof.Machine
end

section
/-! PROOFS. L-trees as loops of rounds, and trees by their nodes (spec/44_tree.md R320 to R327): Treehash on an aligned leaf, and
the fold along an authentication path. -/

namespace Sys2Proof.Machine

/-! ### L-trees (R320) -/

section
variable (su : Suite) (P : Bytes) (a : Adrs)

/-- Entry j of a round's output that has two chunks below it; the round's first node has index i. -/
theorem lTreeLevel_getD_pair (ht i : Nat) (v : List Bytes) {j : Nat} (pair : j < v.length / 2) :
    (lTreeLevel su P a ht i v).getD j [] =
      hashH su P (setW (setW a 5 ht) 6 (i + j)) (v.getD (2 * j) [] ++ v.getD (2 * j + 1) []) := by
  fun_induction lTreeLevel generalizing j with
  | case1 i x y rest ih =>
    cases j with
    | zero => rfl
    | succ j =>
      have pair' : j < rest.length / 2 := by
        simp only [List.length_cons] at pair
        omega
      simpa [Nat.mul_succ, Nat.add_assoc, Nat.add_comm 1 j] using ih pair'
  | case2 | case3 => simp at pair

/-- A round carries an odd last chunk up. -/
theorem lTreeLevel_getD_last (ht i : Nat) (v : List Bytes) (odd : v.length % 2 = 1) :
    (lTreeLevel su P a ht i v).getD (v.length / 2) [] = v.getD (v.length - 1) [] := by
  fun_induction lTreeLevel with
  | case1 i x y rest ih =>
    have odd' : rest.length % 2 = 1 := (Nat.add_mod_right rest.length 2).symm.trans odd
    obtain ⟨m, len⟩ : ∃ m, rest.length = m + 1 := ⟨rest.length - 1, by omega⟩
    have half : (m + 1 + 1 + 1) / 2 = (m + 1) / 2 + 1 := Nat.add_div_right (m + 1) two_pos
    simpa [len, half] using ih odd'
  | case2 => simp
  | case3 => cases odd

theorem lTreeLevel_round (ht : Nat) (v : List Bytes) : lTreeRound su P a ht v (lTreeLevel su P a ht 0 v) :=
  ⟨lTreeLevel_length su P a ht 0 v,
    fun j pair => by rw [lTreeLevel_getD_pair su P a ht 0 v pair, Nat.zero_add], lTreeLevel_getD_last su P a ht 0 v⟩

/-- A round leaves at least one chunk and, of two or more, at least one fewer; so with a round to spend for every chunk but one
the rounds end at one chunk. -/
theorem lTreeRounds_run (fuel ht : Nat) {v : List Bytes} (pos : 0 < v.length) (enough : v.length ≤ fuel + 1) :
    LTreeRun su P a ht v (lTreeRounds su P a fuel ht v) := by
  have single (ht : Nat) {v : List Bytes} (one : v.length = 1) : LTreeRun su P a ht v (v.headD []) := by
    obtain ⟨x, rfl⟩ := List.length_eq_one_iff.1 one
    exact .leaf ht x
  induction fuel generalizing ht v with
  | zero => exact single ht (by omega)
  | succ fuel ih =>
    unfold lTreeRounds
    split
    next few => exact single ht (by omega)
    next more =>
      have halved := lTreeLevel_length su P a ht 0 v
      exact .round ht v _ _ (by omega) (lTreeLevel_round su P a ht v) (ih (ht + 1) (by omega) (by omega))

end

theorem lTree_run (su : Suite) {pk : List Bytes} (P : Bytes) (a : Adrs) (nonempty : pk ≠ []) :
    LTreeRun su P a 0 pk (lTree su pk P a) :=
  lTreeRounds_run su P a pk.length 0 (List.length_pos_iff.2 nonempty) (Nat.le_succ _)

/-- Settles O39: a round is `lTreeLevel`, and the model's rounds suffice (`lTreeRounds_run`). -/
theorem lTreeHalves : Obligations.LTreeHalves := fun su _ P a nonempty => lTree_run su P a nonempty

/-! ### Treehash (R323, R325) -/

/-- Settles O41: an aligned leaf s is the first one below Node(ht, s >> ht), where `treehash_eq_treeNode` applies. -/
theorem treehashBuildsNode : Obligations.TreehashBuildsNode := by
  intro c ht s aligned
  have first : s >>> ht * 2 ^ ht = s := by
    rw [Nat.shiftRight_eq_div_pow, Nat.div_mul_cancel (Nat.dvd_of_mod_eq_zero aligned)]
  calc treehash c ht s
      = treehash c ht (s >>> ht * 2 ^ ht) := by rw [first]
    _ = treeNode c ht (s >>> ht) := treehash_eq_treeNode c ht _

/-! ### Authentication paths (R326, R327) -/

/-- One turn of RootFromAuth's loop (R327): the node of level j on the way up from leaf i meets its sibling. -/
def rootStep (su : Suite) (P : Bytes) (b : TreeBase) (i : Nat) (sib : Nat → Bytes) (node : Bytes) (j : Nat) : Bytes :=
  hashH su P (nodeAddr b j (i >>> (j + 1))) (if (i >>> j) % 2 = 0 then node ++ sib j else sib j ++ node)

/-- The fold over siblings that are given level by level. -/
theorem rootFold_map_range' (su : Suite) (P : Bytes) (b : TreeBase) (i j m : Nat) (node : Bytes) (sib : Nat → Bytes) :
    rootFold su P b i j node ((List.range' j m).map sib) = (List.range' j m).foldl (rootStep su P b i sib) node := by
  induction m generalizing j node with
  | zero => rfl
  | succ m ih => exact ih (j + 1) (rootStep su P b i sib node j)

theorem rootFromAuth_map_range (su : Suite) (P : Bytes) (b : TreeBase) (i h : Nat) (leaf : Bytes) (sib : Nat → Bytes) :
    rootFromAuth su P b i leaf ((List.range h).map sib) = (List.range h).foldl (rootStep su P b i sib) leaf := by
  rw [List.range_eq_range']
  exact rootFold_map_range' su P b i 0 h leaf sib

/-- The node above leaf i at level j and its sibling are the two children of the node above leaf i at level j + 1. -/
theorem rootStep_treeNode (c : TreeCtx) (i j : Nat) :
    rootStep c.su c.pub c.base i (fun j => treeNode c j ((i >>> j) ^^^ 1)) (treeNode c j (i >>> j)) j =
      treeNode c (j + 1) (i >>> (j + 1)) := by
  have half : i >>> (j + 1) = i >>> j / 2 := Nat.shiftRight_succ i j
  rw [rootStep, half, treeNode]
  split
  next even =>
    rw [Nat.xor_one_of_even (Nat.even_iff.2 even), Nat.mul_div_cancel' (Nat.dvd_of_mod_eq_zero even)]
  next odd =>
    have odd : i >>> j % 2 = 1 := Nat.mod_two_ne_zero.1 odd
    have right : 2 * (i >>> j / 2) + 1 = i >>> j := by omega
    rw [Nat.xor_one_of_odd (Nat.odd_iff.2 odd), right, show i >>> j - 1 = 2 * (i >>> j / 2) by omega]

/-- After h levels the fold stands on the node above leaf i at level h. -/
theorem rootFromAuth_authPath (c : TreeCtx) (h i : Nat) :
    rootFromAuth c.su c.pub c.base i (genLeaf c i) (authPath c h i) = treeNode c h (i >>> h) := by
  rw [authPath, rootFromAuth_map_range]
  induction h with
  | zero => rfl
  | succ h ih => rw [List.range_succ, List.foldl_append, ih, List.foldl_cons, List.foldl_nil, rootStep_treeNode]

theorem authPath_getElem? (c : TreeCtx) {h j : Nat} (i : Nat) (below : j < h) :
    (authPath c h i)[j]? = some (treeNode c j ((i >>> j) ^^^ 1)) := by
  rw [authPath, List.getElem?_map, List.getElem?_range below, Option.map_some]

/-- Settles O42: the fold ends on the node above leaf i at level h (`rootFromAuth_authPath`), which has index 0. -/
theorem authPathLeadsToRoot : Obligations.AuthPathLeadsToRoot := fun c h i inside =>
  ⟨authPath_length c h i, fun _ below => authPath_getElem? c i below, by
    rw [rootFromAuth_authPath, Nat.shiftRight_eq_zero i h inside]⟩

end Sys2Proof.Machine
end

section
/-! PROOFS. What the tree commands commit where their checks pass (spec/44_tree.md R330 to R334). -/

namespace Sys2Proof.Machine

/-- Two checks with one error, against one entry of the list (log entry 15). -/
theorem Gives.checkBoth {α : Type} {l : List (Bool × CmdError)} {a : α} {c d : Prop} [Decidable c] [Decidable d]
    {e : CmdError} {f : Unit → Result α} (rest : Gives l (f ()) a) :
    Gives ((decide (c ∧ d), e) :: l) (Machine.check c e >>= fun _ => Machine.check d e >>= f) a := by
  intro pass
  obtain ⟨both, pass⟩ := firstError_cons.1 pass
  obtain ⟨hc, hd⟩ := of_decide_eq_true both
  rw [check_of e hc, result_bind_ok, check_of e hd, result_bind_ok, rest pass]

section
variable {s : State} {su : Suite} {P X A : Bytes}

theorem execLTree_of (suite : cfgSuite s = .ok su) (seed : readArg s 2 su.n = .ok P)
    (key : readArg s 4 (wotsLen su.n * su.n) = .ok X) (pass : passes s .lTree) :
    exec .lTree s =
      .next (s.writeBuf (argN s 0) (lTree su (chunks su.n (wotsLen su.n) X) P s.latch.adrs)).succeed :=
  Gives.completes (.cfg suite fun n => n ▸ .range (.range (.range (.read seed (.read key .value))))) pass

theorem execGenLeaf_of (suite : cfgSuite s = .ok su) (seed : readArg s 2 su.n = .ok P) (secret : readArg s 4 su.n = .ok X)
    (pass : passes s .genLeaf) :
    exec .genLeaf s =
      .next (s.writeBuf (argN s 0) (genLeaf { su := su, sk := X, pub := P, base := baseArg s } (argN s 1))).succeed :=
  Gives.completes (.cfg suite fun n => n ▸ .range (.range (.range (.read seed (.read secret .value))))) pass

theorem execTreehash_of (suite : cfgSuite s = .ok su) (seed : readArg s 2 su.n = .ok P) (secret : readArg s 4 su.n = .ok X)
    (pass : passes s .treehash) :
    exec .treehash s =
      .next (s.writeBuf (argN s 0)
        (treehash { su := su, sk := X, pub := P, base := baseArg s } (argN s 3) (argN s 1))).succeed :=
  Gives.completes
    (.cfg suite fun n => n ▸
      .checkBoth (.check (.check (.range (.range (.range (.read seed (.read secret .value)))))))) pass

theorem execAuthpath_of (suite : cfgSuite s = .ok su) (seed : readArg s 2 su.n = .ok P) (secret : readArg s 4 su.n = .ok X)
    (pass : passes s .authpath) :
    let c : TreeCtx := { su := su, sk := X, pub := P, base := baseArg s }
    exec .authpath s =
      .next (s.writeBuf (argN s 0) ((authPath c (argN s 3) (argN s 1)).flatten ++ treeNode c (argN s 3) 0)).succeed :=
  Gives.completes
    (.cfg suite fun n => n ▸
      .check (.check (.check (.range (.range (.range (.read seed (.read secret .value)))))))) pass

theorem execRootFromAuth_of (suite : cfgSuite s = .ok su) (seed : readArg s 2 su.n = .ok P)
    (leaf : readArg s 4 su.n = .ok X) (auth : readArg s 5 (argN s 3 * su.n) = .ok A) (pass : passes s .rootFromAuth) :
    exec .rootFromAuth s =
      .next (s.writeBuf (argN s 0) (rootFromAuth su P (baseArg s) (argN s 1) X (chunks su.n (argN s 3) A))).succeed :=
  Gives.completes
    (.cfg suite fun n => n ▸
      .check (.check (.range (.range (.range (.range (.read seed (.read leaf (.read auth .value))))))))) pass

end

/-- TREEHASH's start leaf is aligned where its checks pass (R332). -/
theorem aligned_of_passes_treehash {s : State} (pass : passes s .treehash) : argN s 1 % 2 ^ argN s 3 = 0 := by
  simp only [passes, checks, firstError_append, firstError_cons, decide_eq_true_eq] at pass
  obtain ⟨-, ⟨-, aligned⟩, -⟩ := pass
  exact aligned

theorem wotsLen_pos (n : Nat) : 0 < wotsLen n := by
  rw [wotsLen, wotsLen2]
  omega

theorem wotsPkgen_ne_nil (su : Suite) (S P : Bytes) (a : Adrs) : wotsPkgen su S P a ≠ [] :=
  List.ne_nil_of_length_pos (by simpa [wotsPkgen] using wotsLen_pos su.n)

theorem chunks_ne_nil (n : Nat) {m : Nat} (bs : Bytes) (pos : 0 < m) : chunks n m bs ≠ [] :=
  List.ne_nil_of_length_pos (by rwa [chunks_length])

/-- The addresses that GEN_LEAF makes for leaf ARG1 (R321). -/
theorem treeAdrs_baseArg_toList (s : State) (type : Word) :
    (treeAdrs (baseArg s) type (argN s 1) 0 0).toList =
      [s.latch.adrs.get 0, s.latch.adrs.get 1, s.latch.adrs.get 2, type, s.latch.arg.get 1, 0, 0, 0] := by
  simp [treeAdrs, baseArg, adrsArg, argN]

/-- Settles O40: each command by its `exec…_of` lemma, and the leaf by `lTree_run`, a WOTS+ key having at least one chunk. -/
theorem leafResults : Obligations.LeafResults := by
  refine fun s su P X suite seed => ⟨fun pass key => ⟨_, ?_, execLTree_of suite seed key pass⟩, fun pass secret =>
    ⟨_, _, _, treeAdrs_baseArg_toList s 0, treeAdrs_baseArg_toList s 1,
      lTree_run su P _ (wotsPkgen_ne_nil su _ P _), execGenLeaf_of suite seed secret pass⟩⟩
  rw [← chunks_eq_map_range]
  exact lTree_run su P _ (chunks_ne_nil _ _ (wotsLen_pos su.n))

/-- Settles O43: the three commands by their `exec…_of` lemmas; TREEHASH's node by `treehashBuildsNode`, and the loop of
ROOT_FROM_AUTH by `rootFromAuth_map_range`. -/
theorem treeResults : Obligations.TreeResults := by
  refine ⟨fun _ _ _ => rfl, fun _ _ => rfl, fun _ _ _ => rfl, fun s su P X A suite seed input =>
    ⟨fun pass => ?_, fun pass => ?_, fun pass auth => ?_⟩⟩
  · rw [execTreehash_of suite seed input pass, treehashBuildsNode _ _ _ (aligned_of_passes_treehash pass),
      Nat.shiftRight_eq_div_pow]
    rfl
  · rw [execAuthpath_of suite seed input pass, authPath, ← List.flatMap_def]
    rfl
  · rw [execRootFromAuth_of suite seed input auth pass, chunks_eq_map_range, rootFromAuth_map_range]
    rfl

end Sys2Proof.Machine
end

section
/-! PROOFS. What BdsSetup leaves (spec/45_bds.md R355): its merges visit the right-hand nodes of the tree, and no two of them keep
their node in one place. -/

namespace Sys2Proof.Machine

/-! ### The merges of BdsSetup -/

/-- The right-hand nodes below Node(j, m) as (height, index), in the order in which BdsSetup takes them from the top of its stack. -/
def rightNodes : Nat → Nat → List (Nat × Nat)
  | 0, _ => []
  | j + 1, m => rightNodes j (2 * m) ++ rightNodes j (2 * m + 1) ++ [(j, 2 * m + 1)]

theorem mem_rightNodes {j m x i : Nat} : (x, i) ∈ rightNodes j m ↔ x < j ∧ i % 2 = 1 ∧ i / 2 ^ (j - x) = m := by
  induction j generalizing m with
  | zero => simp [rightNodes]
  | succ j ih =>
    simp only [rightNodes, List.mem_append, ih, List.mem_singleton, Prod.mk.injEq]
    rcases Nat.lt_trichotomy x j with lower | rfl | higher
    · rw [Nat.succ_sub (Nat.le_of_lt lower), Nat.pow_succ, ← Nat.div_div_eq_div_mul]
      omega
    · simp
      omega
    · omega

/-- The right-hand nodes of the whole tree of height h. -/
theorem mem_rightNodes_root {h x i : Nat} : (x, i) ∈ rightNodes h 0 ↔ x < h ∧ i % 2 = 1 ∧ i < 2 ^ (h - x) := by
  rw [mem_rightNodes, Nat.div_eq_zero_iff_lt (Nat.two_pow_pos _)]

/-- The snapshot of a node of the key's tree. -/
def keepNode (c : BdsCtx) (b : Bds) (p : Nat × Nat) : Bds := setupSnapshot c b p.1 p.2 (treeNode c.tree p.1 p.2)

/-- The loop of BdsSetup (R355) over the n leaves from leaf s on. -/
def setupLeaves (c : BdsCtx) (s n : Nat) (r : Bds × List (Bytes × Nat)) : Bds × List (Bytes × Nat) :=
  (List.range' s n).foldl (fun r idx => setupPush c idx r.1 (bdsLeaf c idx) 0 r.2) r

theorem setupLeaves_add (c : BdsCtx) (s m n : Nat) (r : Bds × List (Bytes × Nat)) :
    setupLeaves c s (m + n) r = setupLeaves c (s + m) n (setupLeaves c s m r) := by
  simp [setupLeaves, ← List.range'_append_1, List.foldl_append]

/-- A node meets no partner on a stack whose entries at the top are higher. -/
theorem setupPush_of_lower {c : BdsCtx} {idx nh : Nat} {b : Bds} {node : Bytes} {st : List (Bytes × Nat)}
    (higher : ∀ e ∈ st.head?, nh < e.2) : setupPush c idx b node nh st = (b, (node, nh) :: st) := by
  cases st with
  | nil => rfl
  | cons e rest =>
    have ne : e.2 ≠ nh := Nat.ne_of_gt (higher e rfl)
    simp [setupPush, ne]

/-- A node meets its left sibling on top of the stack: its snapshot is kept and their parent goes on. -/
theorem setupPush_sibling (c : BdsCtx) (idx nh : Nat) (b : Bds) (left node : Bytes) (st : List (Bytes × Nat)) :
    setupPush c idx b node nh ((left, nh) :: st) =
      setupPush c idx (setupSnapshot c b nh (idx >>> nh) node) (bdsHash c nh (idx >>> (nh + 1)) (left ++ node)) (nh + 1) st := by
  simp [setupPush]

/-- The last leaf below Node(j, m) lies below that node. -/
theorem lastLeaf_shiftRight (j m : Nat) : (m * 2 ^ j + (2 ^ j - 1)) >>> j = m := by
  have := Nat.two_pow_pos j
  rw [Nat.shiftRight_eq_div_pow, Nat.mul_comm, Nat.mul_add_div this, Nat.div_eq_of_lt (by omega)]
  rfl

/-- The leaves below Node(j, m), pushed on a stack whose top is at height j or above, have the effect of that one node, after
the snapshots of the right-hand nodes below it: by induction on j, as `pushLeaves_subtree` says for the stack alone. -/
theorem setupLeaves_subtree (c : BdsCtx) (j m : Nat) (b : Bds) {st : List (Bytes × Nat)} (high : ∀ e ∈ st.head?, j ≤ e.2) :
    setupLeaves c (m * 2 ^ j) (2 ^ j) (b, st) =
      setupPush c (m * 2 ^ j + (2 ^ j - 1)) ((rightNodes j m).foldl (keepNode c) b) (treeNode c.tree j m) j st := by
  induction j generalizing m b st with
  | zero => simp [setupLeaves, rightNodes, treeNode, bdsLeaf]
  | succ j ih =>
    have double : 2 ^ (j + 1) = 2 ^ j + 2 ^ j := by rw [Nat.pow_succ]; omega
    have start : m * 2 ^ (j + 1) = 2 * m * 2 ^ j := by rw [Nat.pow_succ]; ring
    have middle : 2 * m * 2 ^ j + 2 ^ j = (2 * m + 1) * 2 ^ j := by ring
    have last : (2 * m + 1) * 2 ^ j + (2 ^ j - 1) = m * 2 ^ (j + 1) + (2 ^ (j + 1) - 1) := by
      have := Nat.two_pow_pos j
      omega
    rw [start, double, setupLeaves_add, middle, ih (2 * m) b fun e he => Nat.le_of_succ_le (high e he),
      setupPush_of_lower high, ih (2 * m + 1) _ (by simp), setupPush_sibling, lastLeaf_shiftRight, last,
      lastLeaf_shiftRight, ← start, ← double]
    simp [rightNodes, List.foldl_append, keepNode, treeNode, bdsHash]

/-- The state in which BdsSetup's loop starts (R355). -/
def setupStart (b : Bds) : Bds :=
  { b with th := b.th.mapIdx fun i t => { t with h := i, completed := true, stackUsage := 0 } }

/-- BdsSetup keeps the snapshot of every right-hand node of the tree. -/
theorem bdsSetup_state (c : BdsCtx) (b : Bds) :
    (bdsSetup c b).1 = (rightNodes c.h 0).foldl (keepNode c) (setupStart b) := by
  have loop := setupLeaves_subtree c c.h 0 (setupStart b) (st := []) (by simp)
  rw [setupLeaves, Nat.zero_mul, ← List.range_eq_range'] at loop
  exact congrArg Prod.fst loop

/-! ### Where a snapshot is kept -/

section
variable (c : BdsCtx) (b : Bds) (j i : Nat) (top : Bytes)

theorem setupSnapshot_auth : (setupSnapshot c b j i top).auth = if i = 1 then b.auth.set j top else b.auth := by
  unfold setupSnapshot
  split_ifs <;> rfl

theorem setupSnapshot_th :
    (setupSnapshot c b j i top).th =
      if j < c.h - c.k ∧ i = 3 then b.th.set j { instAt b j with node := top } else b.th := by
  unfold setupSnapshot
  by_cases third : j < c.h - c.k ∧ i = 3
  · rw [if_neg (show i ≠ 1 by omega), if_pos third, if_pos third]
  · split_ifs <;> rfl

theorem setupSnapshot_retain :
    (setupSnapshot c b j i top).retain =
      if c.h - c.k ≤ j ∧ i ≠ 1 then b.retain.set (retainSlot c.h j i) top else b.retain := by
  unfold setupSnapshot
  by_cases kept : c.h - c.k ≤ j ∧ i ≠ 1
  · rw [if_neg kept.2, if_neg (show ¬(j < c.h - c.k ∧ i = 3) by omega), if_pos kept.1, if_pos kept]
  · rw [if_neg kept]
    split_ifs with first third high
    · rfl
    · rfl
    · exact absurd ⟨high, first⟩ kept
    · rfl

theorem setupSnapshot_frame :
    (setupSnapshot c b j i top).stack = b.stack ∧ (setupSnapshot c b j i top).stackLevels = b.stackLevels ∧
      (setupSnapshot c b j i top).stackOffset = b.stackOffset ∧ (setupSnapshot c b j i top).keep = b.keep := by
  unfold setupSnapshot
  split_ifs <;> exact ⟨rfl, rfl, rfl, rfl⟩

end

/-- Of a run of updates f of which only one, for a, touches the part that `get` reads, that part shows whether a was among
them. -/
theorem get_foldl_of_one {α β γ : Type} [DecidableEq α] {f : β → α → β} {get : β → Option γ} {w : γ → γ} {a : α} {l : List α}
    (again : ∀ y, w (w y) = w y) (hit : ∀ b, get (f b a) = (get b).map w)
    (miss : ∀ b, ∀ a' ∈ l, a' ≠ a → get (f b a') = get b) (b : β) :
    get (l.foldl f b) = if a ∈ l then (get b).map w else get b := by
  have idem : w ∘ w = w := funext again
  induction l generalizing b with
  | nil => rfl
  | cons a' l ih =>
    rw [List.foldl_cons, ih fun b a' mem => miss b a' (.tail _ mem)]
    by_cases same : a' = a
    · subst same
      simp [hit, idem]
    · simp [miss b a' (.head _) same, Ne.symm same]

theorem getElem?_set_map {α : Type} (l : List α) (n : Nat) (x : α) : (l.set n x)[n]? = l[n]?.map fun _ => x := by
  rw [List.getElem?_set_self']
  rfl

/-- The path of leaf 0: node 1 of every level. -/
theorem setup_auth (c : BdsCtx) (b : Bds) {j : Nat} (inside : j < c.h) :
    (bdsSetup c b).1.auth[j]? = b.auth[j]?.map fun _ => treeNode c.tree j 1 := by
  have visited : (j, 1) ∈ rightNodes c.h 0 := mem_rightNodes_root.2 ⟨inside, rfl, Nat.one_lt_two_pow (by omega)⟩
  rw [bdsSetup_state, get_foldl_of_one (f := keepNode c) (get := fun b => b.auth[j]?)
    (w := fun _ => treeNode c.tree j 1) (a := (j, 1)) (fun _ => rfl), if_pos visited]
  · rfl
  · intro b
    simp [keepNode, setupSnapshot_auth, getElem?_set_map]
  · rintro b ⟨x, i⟩ - other
    simp only [keepNode, setupSnapshot_auth]
    split
    · next first => exact List.getElem?_set_ne fun same => other (by rw [first, same])
    · rfl

/-- Node 3 of every level that has a treehash record. -/
theorem setup_th (c : BdsCtx) (b : Bds) {j : Nat} (inside : j < c.h - c.k) (kLow : 2 ≤ c.k) :
    (bdsSetup c b).1.th[j]? =
      b.th[j]?.map fun I => { I with h := j, completed := true, stackUsage := 0, node := treeNode c.tree j 3 } := by
  have room : 2 ^ 2 ≤ 2 ^ (c.h - j) := Nat.pow_le_pow_right (by omega) (by omega)
  have visited : (j, 3) ∈ rightNodes c.h 0 := mem_rightNodes_root.2 ⟨by omega, rfl, by omega⟩
  rw [bdsSetup_state, get_foldl_of_one (f := keepNode c) (get := fun b => b.th[j]?)
    (w := fun I => { I with node := treeNode c.tree j 3 }) (a := (j, 3)) (fun _ => rfl), if_pos visited]
  · simp [setupStart, Function.comp_def]
  · intro b
    simp only [keepNode, setupSnapshot_th, inside, true_and, if_true, getElem?_set_map, instAt, List.getD_eq_getElem?_getD]
    cases b.th[j]? <;> rfl
  · rintro b ⟨x, i⟩ - other
    simp only [keepNode, setupSnapshot_th]
    split
    · next third => exact List.getElem?_set_ne fun same => other (by rw [third.2, same])
    · rfl

theorem retainSlot_def (h j i : Nat) : retainSlot h j i = 2 ^ (h - 1 - j) + j - h + (i - 3) / 2 := by
  rw [retainSlot, Nat.shiftLeft_eq, Nat.one_mul]
  rfl

/-- The retain slot of Node(j, i) as R350 counts it: 2^m - m - 1 nodes of the levels above come first, m being h - 1 - j. -/
theorem retainSlot_eq {h j i : Nat} (inside : j < h) :
    retainSlot h j i = 2 ^ (h - 1 - j) - 1 - (h - 1 - j) + (i - 3) / 2 := by
  have := Nat.lt_two_pow_self (n := h - 1 - j)
  rw [retainSlot_def]
  omega

theorem two_pow_succ_add_le (m d : Nat) : 2 ^ (m + 1) + d ≤ 2 ^ (m + 1 + d) := by
  induction d with
  | zero => rfl
  | succ d ih =>
    have := Nat.two_pow_pos m
    rw [← Nat.add_assoc, ← Nat.add_assoc, Nat.pow_succ 2 (m + 1 + d)]
    omega

/-- The retained nodes of a higher level stand before those of a lower one. -/
theorem retainSlot_lt_retainSlot {h j i j' i' : Nat} (lower : j' < j) (inside : j < h) (bound : i < 2 ^ (h - j)) (odd : i % 2 = 1)
    (low : 3 ≤ i) : retainSlot h j i < retainSlot h j' i' := by
  rw [retainSlot_eq inside, retainSlot_eq (by omega)]
  obtain ⟨m, hm⟩ : ∃ m, m = h - 1 - j := ⟨_, rfl⟩
  obtain ⟨d, hd⟩ : ∃ d, h - 1 - j' = m + 1 + d := ⟨h - 1 - j' - (m + 1), by omega⟩
  rw [show h - j = m + 1 by omega, Nat.pow_succ'] at bound
  have large : 2 * 2 ^ m + d ≤ 2 ^ (m + 1 + d) := by
    rw [← Nat.pow_succ']
    exact two_pow_succ_add_le m d
  have lt := Nat.lt_two_pow_self (n := m)
  rw [hd, ← hm]
  omega

theorem retainSlot_injective {h j i j' i' : Nat} (inside : j < h) (inside' : j' < h) (bound : i < 2 ^ (h - j))
    (bound' : i' < 2 ^ (h - j')) (odd : i % 2 = 1) (odd' : i' % 2 = 1) (low : 3 ≤ i) (low' : 3 ≤ i')
    (same : retainSlot h j i = retainSlot h j' i') : j = j' ∧ i = i' := by
  rcases Nat.lt_trichotomy j j' with lt | rfl | lt
  · have := retainSlot_lt_retainSlot (i' := i) lt inside' bound' odd' low'
    omega
  · rw [retainSlot_eq inside, retainSlot_eq inside] at same
    omega
  · have := retainSlot_lt_retainSlot (i' := i') lt inside bound odd low
    omega

/-- The slot of a node that BdsSetup retains lies in the retain array (R350). -/
theorem retainSlot_lt {h k j i : Nat} (retained : h - k ≤ j) (inside : j + 1 < h) (low : 3 ≤ i) (odd : i % 2 = 1)
    (bound : i < 2 ^ (h - j)) : retainSlot h j i < 2 ^ k - k - 1 := by
  have even : 2 ^ (h - j) % 2 = 0 := by
    rw [show h - j = h - j - 1 + 1 by omega, Nat.pow_succ]
    omega
  have unshift : (i - 2) <<< j >>> j = i - 2 := Nat.shiftLeft_shiftRight _ _
  have slot := retain_index_lt (i := (i - 2) <<< j) retained inside (by omega)
  rwa [unshift, show i - 2 - 1 = i - 3 by omega] at slot

/-- Every odd node from 3 on of the levels without a treehash record, each in its own slot. -/
theorem setup_retain (c : BdsCtx) (b : Bds) {j i : Nat} (retained : c.h - c.k ≤ j) (inside : j < c.h) (odd : i % 2 = 1)
    (low : 3 ≤ i) (bound : i < 2 ^ (c.h - j)) :
    (bdsSetup c b).1.retain[retainSlot c.h j i]? = b.retain[retainSlot c.h j i]?.map fun _ => treeNode c.tree j i := by
  have visited : (j, i) ∈ rightNodes c.h 0 := mem_rightNodes_root.2 ⟨inside, odd, bound⟩
  rw [bdsSetup_state, get_foldl_of_one (f := keepNode c) (get := fun b => b.retain[retainSlot c.h j i]?)
    (w := fun _ => treeNode c.tree j i) (a := (j, i)) (fun _ => rfl), if_pos visited]
  · rfl
  · intro b
    simp only [keepNode, setupSnapshot_retain, getElem?_set_map, if_pos (show c.h - c.k ≤ j ∧ i ≠ 1 from ⟨retained, by omega⟩)]
  · rintro b ⟨x, y⟩ node other
    obtain ⟨xInside, yOdd, yBound⟩ := mem_rightNodes_root.1 node
    simp only [keepNode, setupSnapshot_retain]
    split
    · next kept =>
      refine List.getElem?_set_ne fun same => other ?_
      obtain ⟨rfl, rfl⟩ := retainSlot_injective xInside inside yBound bound yOdd odd (by omega) low same
      rfl
    · rfl

theorem setup_frame (c : BdsCtx) (b : Bds) :
    let b' := (bdsSetup c b).1
    b'.stack = b.stack ∧ b'.stackLevels = b.stackLevels ∧ b'.stackOffset = b.stackOffset ∧ b'.keep = b.keep := by
  simp only [bdsSetup_state]
  refine List.foldlRecOn (motive := fun b' : Bds => b'.stack = b.stack ∧ b'.stackLevels = b.stackLevels ∧
    b'.stackOffset = b.stackOffset ∧ b'.keep = b.keep) _ _ ⟨rfl, rfl, rfl, rfl⟩ fun b' same p _ => ?_
  obtain ⟨stack, levels, offset, keep⟩ := setupSnapshot_frame c b' p.1 p.2 (treeNode c.tree p.1 p.2)
  obtain ⟨stack', levels', offset', keep'⟩ := same
  exact ⟨stack.trans stack', levels.trans levels', offset.trans offset', keep.trans keep'⟩

/-- Settles O44: the root by `bdsSetup_root`, and each array by the one snapshot that is kept in the slot that is read. -/
theorem setupSnapshots : Obligations.SetupSnapshots := by
  intro c b kLow kHigh auth th retain
  refine ⟨bdsSetup_root c b, fun j inside => ?_, fun j inside => ?_, fun j i retained high odd low bound => ?_, setup_frame c b⟩
  · rw [setup_auth c b inside, List.getElem?_eq_getElem (by omega)]
    rfl
  · have slot : j < b.th.length := by omega
    rw [setup_th c b inside kLow, List.getElem?_eq_getElem slot, instAt_eq slot]
    rfl
  · have slot := retainSlot_lt retained (by omega) low odd bound
    rw [← retainSlot_def, setup_retain c b retained (by omega) odd low bound, List.getElem?_eq_getElem (by omega)]
    rfl

end Sys2Proof.Machine
end

section
/-! PROOFS. Which treehash record an update advances (spec/45_bds.md R357, R358): the first of least rank below h. -/

namespace Sys2Proof.Machine

/-! ### The first of least rank -/

/-- t is the first index below n of least rank, and its rank is below h. -/
structure FirstLeast (rank : Nat → Nat) (h n t : Nat) : Prop where
  inside : t < n
  below  : rank t < h
  least  : ∀ u, u < n → rank t ≤ rank u
  first  : ∀ u, u < t → rank t < rank u

/-- Two indices that are both the first of least rank are one. -/
theorem FirstLeast.unique {rank : Nat → Nat} {h n t u : Nat} (ht : FirstLeast rank h n t) (hu : FirstLeast rank h n u) :
    t = u := by
  have tu := ht.least u hu.inside
  have ut := hu.least t ht.inside
  rcases Nat.lt_trichotomy t u with lt | eq | lt
  · have := hu.first t lt
    omega
  · exact eq
  · have := ht.first u lt
    omega

/-- What the search for the best record holds after n of them: no rank below h yet, or the first of least rank with its
rank. -/
inductive Best (rank : Nat → Nat) (h n : Nat) : Option Nat × Nat → Prop
  | none (high : ∀ u, u < n → h ≤ rank u) : Best rank h n (none, h)
  | some {t : Nat} (best : FirstLeast rank h n t) : Best rank h n (some t, rank t)

/-- The search keeps the best of the indices seen so far: the next index replaces it only where its rank is strictly less. -/
theorem best_foldl (rank : Nat → Nat) (h n : Nat) :
    Best rank h n
      ((List.range n).foldl (fun best i => if rank i < best.2 then (some i, rank i) else best) (Option.none, h)) := by
  induction n with
  | zero => exact .none nofun
  | succ n ih =>
    rw [List.range_succ, List.foldl_append]
    generalize (List.range n).foldl _ _ = best at ih
    simp only [List.foldl_cons, List.foldl_nil]
    cases ih with
    | none high =>
      split
      · next lt =>
        have under : ∀ u, u < n → rank n < rank u := fun u hu => Nat.lt_of_lt_of_le lt (high u hu)
        exact .some ⟨Nat.lt_succ_self n, lt,
          Nat.forall_lt_succ_right.2 ⟨fun u hu => Nat.le_of_lt (under u hu), Nat.le_refl _⟩, under⟩
      · next ge => exact .none (Nat.forall_lt_succ_right.2 ⟨high, Nat.le_of_not_lt ge⟩)
    | @some t best =>
      obtain ⟨inside, below, least, first⟩ := best
      split
      · next lt =>
        have under : ∀ u, u < n → rank n < rank u := fun u hu => Nat.lt_of_lt_of_le lt (least u hu)
        exact .some ⟨Nat.lt_succ_self n, Nat.lt_trans lt below,
          Nat.forall_lt_succ_right.2 ⟨fun u hu => Nat.le_of_lt (under u hu), Nat.le_refl _⟩, under⟩
      · next ge =>
        exact .some ⟨Nat.lt_succ_of_lt inside, below, Nat.forall_lt_succ_right.2 ⟨least, Nat.le_of_not_lt ge⟩, first⟩

theorem bestInst_eq_some {c : BdsCtx} {b : Bds} {t : Nat} :
    bestInst c b = some t ↔ FirstLeast (thRank c b) c.h (c.h - c.k) t := by
  unfold bestInst
  have found := best_foldl (thRank c b) c.h (c.h - c.k)
  generalize (List.range (c.h - c.k)).foldl _ _ = r at found
  cases found with
  | none high => exact ⟨nofun, fun best => absurd (high t best.inside) (Nat.not_le_of_lt best.below)⟩
  | some best => exact ⟨fun same => Option.some.inj same ▸ best, fun other => congrArg some (best.unique other)⟩

theorem bestInst_eq_none {c : BdsCtx} {b : Bds} : bestInst c b = none ↔ ∀ u, u < c.h - c.k → c.h ≤ thRank c b u := by
  unfold bestInst
  have found := best_foldl (thRank c b) c.h (c.h - c.k)
  generalize (List.range (c.h - c.k)).foldl _ _ = r at found
  cases found with
  | none high => exact ⟨fun _ => high, fun _ => rfl⟩
  | some best => exact ⟨nofun, fun high => absurd (high _ best.inside) (Nat.not_le_of_lt best.below)⟩

/-! ### MinHeight (R357) -/

/-- The least of n tags with h as a cap is at most each of them, and is one of them or the cap. -/
theorem foldl_min_range (f : Nat → Nat) (h n : Nat) :
    let least := (List.range n).foldl (fun r i => min r (f i)) h
    least ≤ h ∧ (∀ i, i < n → least ≤ f i) ∧ (least = h ∨ ∃ i, i < n ∧ least = f i) := by
  induction n with
  | zero => exact ⟨Nat.le_refl _, nofun, .inl rfl⟩
  | succ n ih =>
    simp only [List.range_succ, List.foldl_append, List.foldl_cons, List.foldl_nil] at ih ⊢
    generalize (List.range n).foldl _ _ = least at ih
    obtain ⟨cap, each, one⟩ := ih
    refine ⟨Nat.le_trans (Nat.min_le_left ..) cap, Nat.forall_lt_succ_right.2
      ⟨fun i hi => Nat.le_trans (Nat.min_le_left ..) (each i hi), Nat.min_le_right ..⟩, ?_⟩
    · rcases Nat.le_total least (f n) with le | ge
      · rw [Nat.min_eq_left le]
        exact one.imp_right fun ⟨i, hi, same⟩ => ⟨i, Nat.lt_succ_of_lt hi, same⟩
      · rw [Nat.min_eq_right ge]
        exact .inr ⟨n, Nat.lt_succ_self n, rfl⟩

theorem thRank_of_completed {c : BdsCtx} {b : Bds} {t : Nat} (done : (instAt b t).completed = true) : thRank c b t = c.h := by
  rw [thRank, if_pos done]

theorem thRank_of_empty {c : BdsCtx} {b : Bds} {t : Nat} (going : (instAt b t).completed = false)
    (empty : (instAt b t).stackUsage = 0) : thRank c b t = t := by
  rw [thRank, if_neg (by simp [going]), if_pos empty]

theorem thRank_of_held {c : BdsCtx} {b : Bds} {t : Nat} (going : (instAt b t).completed = false)
    (held : 0 < (instAt b t).stackUsage) : thRank c b t = minHeight c b t := by
  rw [thRank, if_neg (by simp [going]), if_neg (by omega)]

/-- Settles O46: the search by `best_foldl`, the rank by its three cases and MinHeight by `foldl_min_range`. -/
theorem bestInstanceRule : Obligations.BestInstanceRule := by
  refine fun c b => ⟨fun t => bestInst_eq_some.trans ⟨fun ⟨inside, below, least, first⟩ => ⟨inside, below, least, first⟩,
    fun ⟨inside, below, least, first⟩ => ⟨inside, below, least, first⟩⟩, bestInst_eq_none, fun t _ =>
    ⟨thRank_of_completed, thRank_of_empty, fun going held => ?_⟩⟩
  rw [thRank_of_held going held]
  exact foldl_min_range (fun i => b.stackLevels.getD (b.stackOffset - 1 - i) 0) c.h (instAt b t).stackUsage

end Sys2Proof.Machine
end

section
/-! PROOFS. What the steps of the BDS state machine write (spec/45_bds.md R356 to R360): BdsRound array by array, ThUpdate by its
fold loop, and when the update loop ends without an error. -/

namespace Sys2Proof.Machine

/-! ### BdsRound (R359) -/

theorem shiftRight_mod_two_eq_zero {i j : Nat} : (i >>> j) % 2 = 0 ↔ i.testBit j = false := by
  rw [Nat.testBit_eq_decide_div_mod_eq, Nat.shiftRight_eq_div_pow]
  simp

/-- The first write of BdsRound: the node of height tau of the path is kept where a later round needs it. -/
def roundKeep (c : BdsCtx) (b : Bds) (i tau : Nat) : Bds :=
  if (i >>> (tau + 1)) % 2 = 0 ∧ tau < c.h - 1 then { b with keep := b.keep.set (tau >>> 1) (nodeAt b.auth tau) } else b

theorem roundKeep_keep {c : BdsCtx} {b : Bds} (i : Nat) {tau : Nat} (size : b.keep.length = c.h / 2) (m : Nat) :
    (roundKeep c b i tau).keep[m]? =
      if m = tau / 2 ∧ i.testBit (tau + 1) = false ∧ tau < c.h - 1 then some (b.auth.getD tau []) else b.keep[m]? := by
  simp only [roundKeep, shiftRight_mod_two_eq_zero]
  by_cases kept : i.testBit (tau + 1) = false ∧ tau < c.h - 1
  · have slot : tau / 2 < b.keep.length := by omega
    rw [if_pos kept]
    by_cases same : m = tau / 2
    · rw [if_pos ⟨same, kept⟩, same]
      exact List.getElem?_set_self slot
    · rw [if_neg fun h => same h.1]
      exact List.getElem?_set_ne (Ne.symm same)
  · rw [if_neg kept, if_neg fun h => kept h.2]

theorem roundKeep_frame (c : BdsCtx) (b : Bds) (i tau : Nat) :
    roundKeep c b i tau = { b with keep := (roundKeep c b i tau).keep } := by
  unfold roundKeep
  split <;> rfl

/-- The path updates of BdsRound for the levels below n. -/
def roundPulls (c : BdsCtx) (i n : Nat) (b : Bds) : Bds :=
  (List.range n).foldl (fun b j => { b with auth := b.auth.set j (roundPull c b i j) }) b

theorem roundPulls_succ (c : BdsCtx) (i n : Nat) (b : Bds) :
    roundPulls c i (n + 1) b =
      { roundPulls c i n b with
        auth := (roundPulls c i n b).auth.set n (roundPull c (roundPulls c i n b) i n) } := by
  simp [roundPulls, List.range_succ]

theorem roundPulls_frame (c : BdsCtx) (i n : Nat) (b : Bds) :
    roundPulls c i n b = { b with auth := (roundPulls c i n b).auth } := by
  induction n with
  | zero => rfl
  | succ n ih => rw [roundPulls_succ, ih]

/-- A path update reads the records and the retained nodes, which no path update writes. -/
theorem roundPulls_auth (c : BdsCtx) (i n : Nat) (b : Bds) (j : Nat) :
    (roundPulls c i n b).auth[j]? = if j < n then b.auth[j]?.map fun _ => roundPull c b i j else b.auth[j]? := by
  induction n with
  | zero => rfl
  | succ n ih =>
    have same : roundPull c (roundPulls c i n b) i n = roundPull c b i n := by
      rw [roundPulls_frame]
      rfl
    rw [roundPulls_succ, same]
    rcases Nat.lt_trichotomy j n with lt | rfl | gt
    · rw [List.getElem?_set_ne (by omega), ih, if_pos lt, if_pos (by omega)]
    · rw [getElem?_set_map, ih, if_neg (by omega), if_pos (by omega)]
    · rw [List.getElem?_set_ne (by omega), ih, if_neg (by omega), if_neg (by omega)]

/-- The record resets of BdsRound for the levels below n. -/
def roundResets (c : BdsCtx) (i n : Nat) (b : Bds) : Bds := (List.range n).foldl (roundReset c i) b

theorem roundResets_succ (c : BdsCtx) (i n : Nat) (b : Bds) :
    roundResets c i (n + 1) b = roundReset c i (roundResets c i n b) n := by
  simp [roundResets, List.range_succ]

theorem roundReset_frame (c : BdsCtx) (i : Nat) (b : Bds) (j : Nat) :
    roundReset c i b j = { b with th := (roundReset c i b j).th } := by
  unfold roundReset
  simp only
  split <;> rfl

theorem roundResets_frame (c : BdsCtx) (i n : Nat) (b : Bds) :
    roundResets c i n b = { b with th := (roundResets c i n b).th } := by
  induction n with
  | zero => rfl
  | succ n ih =>
    rw [roundResets_succ, roundReset_frame, ih]

/-- Record th[j] as BdsRound(i) starts it on its next node (R359). -/
def startedInst (i j : Nat) (I : TreehashInst) : TreehashInst :=
  { I with h := j, nextIdx := i + 1 + 3 * 2 ^ j, completed := false, stackUsage := 0 }

theorem roundReset_th (c : BdsCtx) (i : Nat) (b : Bds) (n j : Nat) :
    (roundReset c i b n).th[j]? =
      if j = n ∧ i + 1 + 3 * 2 ^ j < 2 ^ c.h then b.th[j]?.map (startedInst i j) else b.th[j]? := by
  unfold roundReset
  by_cases same : j = n
  · subst same
    simp only [true_and]
    split
    · simp only [getElem?_set_map, instAt, List.getD_eq_getElem?_getD]
      cases b.th[j]? <;> rfl
    · rfl
  · have other : ¬(j = n ∧ i + 1 + 3 * 2 ^ j < 2 ^ c.h) := fun h => same h.1
    rw [if_neg other]
    simp only
    split
    · exact List.getElem?_set_ne (Ne.symm same)
    · rfl

theorem roundResets_th (c : BdsCtx) (i n : Nat) (b : Bds) (j : Nat) :
    (roundResets c i n b).th[j]? =
      if j < n ∧ i + 1 + 3 * 2 ^ j < 2 ^ c.h then b.th[j]?.map (startedInst i j) else b.th[j]? := by
  induction n with
  | zero => simp [roundResets]
  | succ n ih =>
    rw [roundResets_succ, roundReset_th, ih]
    rcases Nat.lt_trichotomy j n with lt | rfl | gt
    · simp [lt, Nat.lt_succ_of_lt lt, Nat.ne_of_lt lt]
    · simp
    · simp [Nat.not_lt_of_gt gt, Nat.ne_of_gt gt, show ¬j < n + 1 by omega]

theorem bdsRound_tau (c : BdsCtx) (b : Bds) (i : Nat) : (bdsRound c b i).2 = bdsTau c.h i := by
  unfold bdsRound
  simp only
  split <;> rfl

/-- BdsRound of an even index, whose lowest zero bit is bit 0. -/
theorem bdsRound_of_even {c : BdsCtx} (b : Bds) {i : Nat} (even : bdsTau c.h i = 0) :
    (bdsRound c b i).1 = { roundKeep c b i 0 with auth := (roundKeep c b i 0).auth.set 0 (bdsLeaf c i) } := by
  unfold bdsRound
  simp only [even]
  rfl

/-- BdsRound of an odd index, whose lowest zero bit is bit tau. -/
theorem bdsRound_of_odd {c : BdsCtx} (b : Bds) {i tau : Nat} (low : bdsTau c.h i = tau) (odd : 0 < tau) :
    (bdsRound c b i).1 =
      roundResets c i (min tau (c.h - c.k))
        (roundPulls c i tau
          { roundKeep c b i tau with
            auth := (roundKeep c b i tau).auth.set tau
              (bdsHash c (tau - 1) (i >>> tau) (nodeAt b.auth (tau - 1) ++ nodeAt b.keep ((tau - 1) >>> 1))) }) := by
  unfold bdsRound
  simp only [low, if_neg (Nat.ne_of_gt odd)]
  rfl

/-- The node pulled at a level with a treehash record is the record's. -/
theorem roundPull_of_inst {c : BdsCtx} (b : Bds) (i : Nat) {j : Nat} (low : j < c.h - c.k) :
    roundPull c b i j = (instAt b j).node := if_pos low

/-- The node pulled at a level without a treehash record is a retained one. -/
theorem roundPull_of_retained {c : BdsCtx} (b : Bds) (i : Nat) {j : Nat} (high : c.h - c.k ≤ j) :
    roundPull c b i j = b.retain.getD (2 ^ (c.h - 1 - j) + j - c.h + (i / 2 ^ j - 1) / 2) [] := by
  rw [roundPull, if_neg (Nat.not_lt_of_le high), Nat.shiftLeft_eq, Nat.one_mul, Nat.shiftRight_eq_div_pow i j]
  rfl

section
variable {c : BdsCtx} {b : Bds} {i tau : Nat} (auth : b.auth.length = c.h) (keep : b.keep.length = c.h / 2)
  (lowest : tau < c.h ∧ i.testBit tau = false ∧ ∀ j, j < tau → i.testBit j = true) (low : bdsTau c.h i = tau)
include auth keep lowest low

theorem bdsRound_writes_of_even (even : tau = 0) : RoundWrites c b (bdsRound c b i).1 i tau := by
  subst even
  have keeps := roundKeep_keep (c := c) i (tau := 0) keep
  rw [bdsRound_of_even b low, roundKeep_frame]
  exact {
    lowest := lowest
    keep := keeps
    leaf := fun _ => List.getElem?_set_self (auth ▸ lowest.1)
    hashed := nofun
    pulled := nofun
    kept := nofun
    above := fun j higher => List.getElem?_set_ne (Nat.ne_of_lt higher)
    started := fun j => by simp
    rest := ⟨rfl, rfl, rfl, rfl⟩ }

theorem bdsRound_writes_of_odd (th : b.th.length = c.h - c.k) (odd : 0 < tau) :
    RoundWrites c b (bdsRound c b i).1 i tau := by
  have keeps := roundKeep_keep (c := c) i (tau := tau) keep
  rw [bdsRound_of_odd b low odd, roundResets_frame, roundPulls_frame, roundKeep_frame]
  generalize (roundKeep c b i tau).keep = K at keeps ⊢
  have pulls := roundPulls_auth c i tau { b with
    keep := K
    auth := b.auth.set tau
      (bdsHash c (tau - 1) (i >>> tau) (nodeAt b.auth (tau - 1) ++ nodeAt b.keep ((tau - 1) >>> 1))) }
  generalize (roundPulls c i tau _).auth = A at pulls ⊢
  have below : ∀ j, j < tau → A[j]? = some (roundPull c b i j) := by
    intro j lt
    have slot : j < b.auth.length := by omega
    rw [pulls, if_pos lt, List.getElem?_set_ne (by omega), List.getElem?_eq_getElem slot]
    rfl
  have resets := roundResets_th c i (min tau (c.h - c.k)) { b with keep := K, auth := A }
  generalize (roundResets c i (min tau (c.h - c.k)) _).th = T at resets ⊢
  exact {
    lowest := lowest
    keep := keeps
    leaf := fun even => absurd even (Nat.ne_of_gt odd)
    hashed := fun _ => by
      rw [pulls, if_neg (Nat.lt_irrefl _)]
      exact List.getElem?_set_self (auth ▸ lowest.1)
    pulled := fun j lt inst => by rw [below j lt, roundPull_of_inst b i inst]
    kept := fun j lt retained => by rw [below j lt, roundPull_of_retained b i retained]
    above := fun j higher => by
      rw [pulls, if_neg (Nat.lt_asymm higher)]
      exact List.getElem?_set_ne (Nat.ne_of_lt higher)
    started := fun j => by
      simp only [resets, Nat.lt_min, and_assoc]
      split
      · next start =>
        have slot : j < b.th.length := by omega
        rw [instAt_eq slot, List.getElem?_eq_getElem slot]
        rfl
      · rfl
    rest := ⟨rfl, rfl, rfl, rfl⟩ }

end

/-- What BdsRound writes (R359). -/
theorem bdsRound_writes {c : BdsCtx} {b : Bds} {i : Nat} (auth : b.auth.length = c.h) (keep : b.keep.length = c.h / 2)
    (th : b.th.length = c.h - c.k) (hi : i < 2 ^ c.h - 1) : RoundWrites c b (bdsRound c b i).1 i (bdsRound c b i).2 := by
  rw [bdsRound_tau]
  rcases Nat.eq_zero_or_pos (bdsTau c.h i) with even | odd
  · exact bdsRound_writes_of_even auth keep (bdsTau_spec hi) rfl even
  · exact bdsRound_writes_of_odd auth keep (bdsTau_spec hi) rfl th odd

/-! ### ThUpdate (R356) -/

/-- The fold loop of ThUpdate as the relation of R356. -/
theorem thFold_run (c : BdsCtx) (b : Bds) (idx : Nat) {usage nh offset su so : Nat} {node : Bytes} {r : Bytes} {height : Nat}
    (fold : thFold c b idx usage node nh offset = (r, height, su, so)) :
    ThFoldRun c b idx node nh usage offset r height su so := by
  induction usage generalizing node nh offset with
  | zero =>
    cases fold
    exact .stop _ _ _ _ (.inl rfl)
  | succ usage ih =>
    unfold thFold at fold
    split at fold
    · next top => exact .fold _ _ _ _ _ _ _ _ top (ih fold)
    · next other =>
      cases fold
      exact .stop _ _ _ _ (.inr other)

/-- The fold loop never takes the shared stack above where it began. -/
theorem ThFoldRun.offset_le {c : BdsCtx} {b : Bds} {idx : Nat} {node node' : Bytes} {nh su so nh' su' so' : Nat}
    (run : ThFoldRun c b idx node nh su so node' nh' su' so') : so' ≤ so := by
  induction run with
  | stop => exact Nat.le_refl _
  | fold node nh su so _ _ _ _ _ _ ih => exact Nat.le_trans ih (Nat.sub_le so 1)

theorem thUpdate_of_exhausted {c : BdsCtx} {b : Bds} {t : Nat} (none : 2 ^ c.h ≤ (instAt b t).nextIdx) :
    thUpdate c b t = .error (.raise (.stateError .bdsDesync)) := by
  rw [thUpdate, if_pos none]
  rfl

/-- ThUpdate with a leaf left to build, by what its fold loop ends with. -/
theorem thUpdate_of_fold {c : BdsCtx} {b : Bds} {t : Nat} {node : Bytes} {nh su so : Nat}
    (left : (instAt b t).nextIdx < 2 ^ c.h)
    (fold : thFold c b (instAt b t).nextIdx (instAt b t).stackUsage (bdsLeaf c (instAt b t).nextIdx) 0 b.stackOffset =
      (node, nh, su, so)) :
    (nh = (instAt b t).h →
      thUpdate c b t =
        .ok { b with
              th := b.th.set t { instAt b t with node := node, completed := true, stackUsage := su }
              stackOffset := so }) ∧
    (nh ≠ (instAt b t).h → so = c.h + 1 → thUpdate c b t = .error (.raise (.stateError .bdsStackFull))) ∧
    (nh ≠ (instAt b t).h → so ≠ c.h + 1 →
      thUpdate c b t =
        .ok { b with
              stack := b.stack.set so node
              stackLevels := b.stackLevels.set so nh
              stackOffset := so + 1
              th := b.th.set t { instAt b t with stackUsage := su + 1, nextIdx := (instAt b t).nextIdx + 1 } }) := by
  simp only [thUpdate, if_neg (Nat.not_le_of_lt left), fold]
  refine ⟨fun top => if_pos top, fun going full => ?_, fun going room => ?_⟩
  · rw [if_neg going, if_pos full]
    rfl
  · rw [if_neg going, if_neg room]

/-- ThUpdate succeeds where a leaf is left to build and the shared stack has room. -/
theorem thUpdate_succeeds {c : BdsCtx} {b : Bds} {t : Nat} (left : (instAt b t).nextIdx < 2 ^ c.h) (room : b.stackOffset ≤ c.h) :
    ∃ b', thUpdate c b t = .ok b' := by
  obtain ⟨⟨node, nh, su, so⟩, fold⟩ : ∃ r, thFold c b (instAt b t).nextIdx (instAt b t).stackUsage
    (bdsLeaf c (instAt b t).nextIdx) 0 b.stackOffset = r := ⟨_, rfl⟩
  have offset := (thFold_run c b _ fold).offset_le
  obtain ⟨top, -, going⟩ := thUpdate_of_fold left fold
  by_cases height : nh = (instAt b t).h
  · exact ⟨_, top height⟩
  · exact ⟨_, going height (by omega)⟩

/-- A record after a write to th[t]. -/
theorem instAt_of_set {b b' : Bds} {t : Nat} {I : TreehashInst} (set : b'.th = b.th.set t I) (u : Nat) :
    instAt b' u = I ∧ u = t ∨ instAt b' u = instAt b u := by
  simp only [instAt, set, List.getD_eq_getElem?_getD, List.getElem?_set]
  by_cases same : t = u
  · by_cases inside : t < b.th.length
    · simp [same, same ▸ inside]
    · subst same
      simp [inside]
  · simp [same]

/-- A write to th[t] that takes at most one leaf more leaves every record at most one leaf further. -/
theorem nextIdx_le_of_set {b b' : Bds} {t : Nat} {I : TreehashInst} (set : b'.th = b.th.set t I)
    (one : I.nextIdx ≤ (instAt b t).nextIdx + 1) (u : Nat) : (instAt b' u).nextIdx ≤ (instAt b u).nextIdx + 1 := by
  rcases instAt_of_set set u with ⟨new, rfl⟩ | old
  · rwa [new]
  · rw [old]
    exact Nat.le_succ _

/-- One ThUpdate takes at most one slot of the shared stack and at most one leaf of a record. -/
theorem thUpdate_grows {c : BdsCtx} {b b' : Bds} {t : Nat} (h : thUpdate c b t = .ok b') :
    b'.stackOffset ≤ b.stackOffset + 1 ∧ ∀ u, (instAt b' u).nextIdx ≤ (instAt b u).nextIdx + 1 := by
  obtain ⟨-, node, nh, usage, offset, fold, result⟩ := thUpdate_eq_ok h
  have le := (thFold_run c b _ fold).offset_le
  rcases result with rfl | ⟨-, rfl⟩
  · exact ⟨Nat.le_succ_of_le le, nextIdx_le_of_set (b := b) (t := t) rfl (Nat.le_succ _)⟩
  · exact ⟨Nat.succ_le_succ le, nextIdx_le_of_set (b := b) (t := t) rfl (Nat.le_refl _)⟩

/-! ### BdsThUpdate (R358) -/

theorem bdsThUpdate_of_none {c : BdsCtx} {b : Bds} (count used : Nat) (none : bestInst c b = none) :
    bdsThUpdate c (count + 1) used b = .ok (b, count + 1, used) := by
  rw [bdsThUpdate, none]

theorem bdsThUpdate_of_ok {c : BdsCtx} {b b' : Bds} {t : Nat} (count used : Nat) (best : bestInst c b = some t)
    (update : thUpdate c b t = .ok b') : bdsThUpdate c (count + 1) used b = bdsThUpdate c count (used + 1) b' := by
  simp only [bdsThUpdate, best, update]

theorem bdsThUpdate_of_error {c : BdsCtx} {b : Bds} {t : Nat} {e : Stop} (count used : Nat) (best : bestInst c b = some t)
    (update : thUpdate c b t = .error e) : bdsThUpdate c (count + 1) used b = .error e := by
  simp only [bdsThUpdate, best, update]

/-- The updates left unused and the updates made are those asked for. -/
theorem bdsThUpdate_total {c : BdsCtx} {count used : Nat} {b b' : Bds} {rem used' : Nat}
    (h : bdsThUpdate c count used b = .ok (b', rem, used')) : rem + used' = count + used := by
  induction count generalizing used b with
  | zero =>
    cases h
    rfl
  | succ count ih =>
    cases best : bestInst c b with
    | none =>
      rw [bdsThUpdate_of_none count used best] at h
      cases h
      rfl
    | some t =>
      cases update : thUpdate c b t with
      | ok b₁ =>
        rw [bdsThUpdate_of_ok count used best update] at h
        rw [ih h, Nat.add_right_comm, Nat.add_assoc]
      | error e =>
        rw [bdsThUpdate_of_error count used best update] at h
        cases h

/-- The updates end without an error where the shared stack has room for them and every record has leaves left for them. -/
theorem bdsThUpdate_succeeds {c : BdsCtx} {count : Nat} (used : Nat) {b : Bds} (room : b.stackOffset + count ≤ c.h + 1)
    (left : ∀ t, t < c.h - c.k → (instAt b t).nextIdx + count ≤ 2 ^ c.h) : ∃ r, bdsThUpdate c count used b = .ok r := by
  induction count generalizing used b with
  | zero => exact ⟨_, rfl⟩
  | succ count ih =>
    cases best : bestInst c b with
    | none => exact ⟨_, bdsThUpdate_of_none count used best⟩
    | some t =>
      have inst := left t (bestInst_lt best)
      obtain ⟨b', update⟩ := thUpdate_succeeds (c := c) (b := b) (t := t) (by omega) (by omega)
      obtain ⟨offset, next⟩ := thUpdate_grows update
      rw [bdsThUpdate_of_ok count used best update]
      refine ih _ (by omega) fun u hu => ?_
      have := left u hu
      have := next u
      omega

/-! ### BdsStep (R360) -/

theorem bdsStep_eq_error {c : BdsCtx} {b : Bds} {i : Nat} {e : Stop}
    (updates : bdsThUpdate c ((c.h - c.k) / 2) 0 (bdsRound c b i).1 = .error e) : bdsStep c b i = .error e := by
  rw [bdsStep, updates]

end Sys2Proof.Machine
end

section
/-! PROOFS. The step commands of the BDS state machine (spec/45_bds.md R370, R371, R373, R374): what each commits where its checks
pass. -/

namespace Sys2Proof.Machine

/-! ### Checks -/

section
variable {s : State} {α : Type} {l : List (Bool × CmdError)} {a : α} {f : Unit → Result α}

theorem Gives.key (rest : Gives l (f ()) a) : Gives (keyCheck s :: l) (needKey s >>= f) a := .check rest id

theorem Gives.fast (rest : Gives l (f ()) a) : Gives (fastCheck s :: l) (needFast s >>= f) a := .check rest eq_of_beq

end

/-! ### The commands -/

section
variable {s : State}

theorem execBdsSetup_of (pass : passes s .bdsSetup) :
    exec .bdsSetup s =
      .next { s with
              bds := (bdsSetup (keyBds s.key) (freshBds s.key.h.toNat s.key.k.toNat)).1
              bdsSync := true }.succeed :=
  Gives.completes (.key (.fast (.check .value))) pass

theorem execBdsRound_of (pass : passes s .bdsRound) :
    exec .bdsRound s =
      .next (State.withRes0 { s with bds := (bdsRound (keyBds s.key) s.bds (argN s 1)).1, bdsSync := false }
        (bdsRound (keyBds s.key) s.bds (argN s 1)).2).succeed :=
  Gives.completes (.key (.fast (.check .value))) pass

theorem index_of_passes_bdsRound (pass : passes s .bdsRound) : argN s 1 < 2 ^ s.key.h.toNat - 1 := by
  simp only [passes, checks, firstError_cons, decide_eq_true_eq] at pass
  obtain ⟨-, -, below, -⟩ := pass
  exact below

/-- Where its checks pass, TREEHASH_UPDATE ends as ThUpdate does. -/
theorem execTreehashUpdate_of (pass : passes s .treehashUpdate) :
    exec .treehashUpdate s =
      finish s (thUpdate (keyBds s.key) s.bds (argN s 1) >>= fun b => .ok { s with bds := b, bdsSync := false }) := by
  simp only [passes, checks, firstError_cons, decide_eq_true_eq, Bool.not_eq_true'] at pass
  obtain ⟨valid, fast, inside, going, -⟩ := pass
  show execTreehashUpdate s = _
  simp only [execTreehashUpdate, needKey_eq_ok (u := ()).2 valid, needFast_eq_ok (u := ()).2 (eq_of_beq fast), inside, going,
    check_of, result_bind_ok, result_pure]

/-- Where its checks pass, BDS_TREEHASH_UPDATE ends as BdsThUpdate does. -/
theorem execBdsTreehashUpdate_of (pass : passes s .bdsTreehashUpdate) :
    exec .bdsTreehashUpdate s =
      finish s (bdsThUpdate (keyBds s.key) (argN s 3) 0 s.bds >>= fun r =>
        .ok (({ s with bds := r.1, bdsSync := false }.withRes0 r.2.1).withRes1 r.2.2)) := by
  simp only [passes, checks, firstError_cons] at pass
  obtain ⟨valid, fast, -⟩ := pass
  show execBdsTreehashUpdate s = _
  simp only [execBdsTreehashUpdate, needKey_eq_ok (u := ()).2 valid, needFast_eq_ok (u := ()).2 (eq_of_beq fast),
    result_bind_ok, result_pure]

theorem execTreehashUpdate_of_ok (pass : passes s .treehashUpdate) {b : Bds}
    (update : thUpdate (keyBds s.key) s.bds (argN s 1) = .ok b) :
    exec .treehashUpdate s = .next { s with bds := b, bdsSync := false }.succeed := by
  rw [execTreehashUpdate_of pass, update, result_bind_ok, finish_ok]

theorem execTreehashUpdate_of_error (pass : passes s .treehashUpdate) {e : CmdError}
    (update : thUpdate (keyBds s.key) s.bds (argN s 1) = .error (.raise e)) :
    exec .treehashUpdate s = .next (s.failWith e) := by
  rw [execTreehashUpdate_of pass, update, result_bind_error, finish_raise]

theorem execBdsTreehashUpdate_of_ok (pass : passes s .bdsTreehashUpdate) {r : Bds × Nat × Nat}
    (updates : bdsThUpdate (keyBds s.key) (argN s 3) 0 s.bds = .ok r) :
    exec .bdsTreehashUpdate s =
      .next { s with
              bds := r.1
              bdsSync := false
              res0 := BitVec.ofNat 32 r.2.1
              res1 := BitVec.ofNat 32 r.2.2 }.succeed := by
  rw [execBdsTreehashUpdate_of pass, updates, result_bind_ok, finish_ok]
  rfl

theorem execBdsTreehashUpdate_of_error (pass : passes s .bdsTreehashUpdate) {e : CmdError}
    (updates : bdsThUpdate (keyBds s.key) (argN s 3) 0 s.bds = .error (.raise e)) :
    exec .bdsTreehashUpdate s = .next (s.failWith e) := by
  rw [execBdsTreehashUpdate_of pass, updates, result_bind_error, finish_raise]

end

/-- Settles O47: BdsRound by `bdsRound_writes`; ThUpdate by `thUpdate_of_fold` and its loop by `thFold_run`; the commands by their
`exec…_of` lemmas, the two updates ending without an error by `thUpdate_succeeds` and `bdsThUpdate_succeeds`. -/
theorem bdsStepResults : Obligations.BdsStepResults := by
  refine ⟨fun c b i auth keep th hi => bdsRound_writes auth keep th hi,
    fun c b t => ⟨thUpdate_of_exhausted, fun left => ⟨_, _, _, _, thFold_run c b _ rfl, thUpdate_of_fold left rfl⟩⟩,
    fun c b used count => ⟨rfl, bdsThUpdate_of_none count used, fun t best =>
      ⟨fun _ => bdsThUpdate_of_ok count used best, fun _ => bdsThUpdate_of_error count used best⟩⟩,
    fun c b i => ⟨fun r updates => bdsStep_eq_ok.2 ⟨r, updates, rfl⟩, fun _ => bdsStep_eq_error⟩,
    fun s => ⟨execBdsSetup_of, fun pass => ?round, fun pass left room => ?update, fun pass room left => ?updates,
      fun _ pass => execTreehashUpdate_of_ok pass, fun _ pass => execTreehashUpdate_of_error pass,
      fun b rem used pass updates => ⟨bdsThUpdate_total updates, execBdsTreehashUpdate_of_ok pass updates⟩,
      fun _ pass => execBdsTreehashUpdate_of_error pass⟩⟩
  case round =>
    obtain ⟨inside, zero, ones⟩ := bdsTau_spec (index_of_passes_bdsRound pass)
    refine ⟨_, _, inside, zero, ones, Prod.ext rfl (bdsRound_tau (keyBds s.key) s.bds _), ?_⟩
    rw [execBdsRound_of pass, bdsRound_tau]
    rfl
  case update =>
    obtain ⟨b, update⟩ := thUpdate_succeeds (c := keyBds s.key) left room
    exact ⟨b, update, execTreehashUpdate_of_ok pass update⟩
  case updates =>
    obtain ⟨r, updates⟩ := bdsThUpdate_succeeds (c := keyBds s.key) 0 room left
    exact ⟨r, updates, execBdsTreehashUpdate_of_ok pass updates⟩

end Sys2Proof.Machine
end

section
/-! PROOFS. BDS_EXPORT (spec/45_bds.md R372): its layout as a table of rows, each row being records of one size, and where a record
of such a table stands. -/

namespace Sys2Proof.Machine

/-! ### Rows of records -/

/-- A row of a layout: its records, how many they are and how many bytes each has. -/
structure RecordRow where
  count  : Nat
  width  : Nat
  record : Nat → Bytes

/-- Every record of the row has the row's width. -/
def RecordRow.Uniform (r : RecordRow) : Prop := ∀ i, i < r.count → (r.record i).length = r.width

/-- The records one after the other. -/
def RecordRow.bytes (r : RecordRow) : Bytes := (List.range r.count).flatMap r.record

theorem RecordRow.Uniform.bytes_length {r : RecordRow} (uniform : r.Uniform) : r.bytes.length = r.count * r.width :=
  flatMap_range_length uniform

/-- Where a layout's row number k starts. -/
def rowStart (rows : List RecordRow) (k : Nat) : Nat := ((rows.take k).map fun r => r.count * r.width).sum

/-- Record i of a row stands at i times its width. -/
theorem RecordRow.Uniform.slice_bytes {r : RecordRow} (uniform : r.Uniform) (rest : Bytes) {i : Nat} (hi : i < r.count) :
    slice (r.bytes ++ rest) (r.width * i) r.width = r.record i := by
  obtain ⟨count, width, record⟩ := r
  obtain ⟨d, rfl⟩ : ∃ d, count = i + (1 + d) := ⟨count - i - 1, by simp only at hi; omega⟩
  have before : ((List.range i).flatMap record).length = width * i := by
    rw [flatMap_range_length fun j hj => uniform j (by simp only; omega), Nat.mul_comm]
  rw [RecordRow.bytes, List.range_add, List.range_add, List.flatMap_append, List.append_assoc, slice, List.drop_left' before]
  simp only [List.range_one, List.map_append, List.map_cons, List.map_nil, List.flatMap_append, List.flatMap_cons,
    List.flatMap_nil, List.append_nil, List.append_assoc, Nat.add_zero]
  exact List.take_left' (uniform i hi)

/-- Record i of row k of a layout stands i times the row's width after the row's start. -/
theorem slice_rows {rows : List RecordRow} (uniform : ∀ r ∈ rows, r.Uniform) {k i : Nat} {r : RecordRow}
    (row : rows[k]? = some r) (hi : i < r.count) :
    slice (rows.flatMap RecordRow.bytes) (rowStart rows k + r.width * i) r.width = r.record i := by
  induction rows generalizing k with
  | nil => cases row
  | cons r' rows ih =>
    cases k with
    | zero =>
      cases row
      simpa [rowStart] using (uniform r (by simp)).slice_bytes (rows.flatMap RecordRow.bytes) hi
    | succ k =>
      have start : rowStart (r' :: rows) (k + 1) = r'.bytes.length + rowStart rows k := by
        simp [rowStart, (uniform r' (by simp)).bytes_length]
      rw [← ih (fun r mem => uniform r (.tail _ mem)) row, start, List.flatMap_cons, Nat.add_assoc, slice,
        List.drop_length_add_append]
      rfl

/-! ### The exported layout (R372) -/

/-- The first four exported bytes. -/
def exportHead (c : BdsCtx) (sync : Bool) (b : Bds) : Bytes :=
  toByte c.h 1 ++ toByte c.k 1 ++ toByte b.stackOffset 1 ++ [if sync then 1 else 0]

/-- What is exported of the height tag of stack slot i. -/
def exportLevel (b : Bds) (i : Nat) : Bytes := if i < b.stackOffset then toByte (b.stackLevels.getD i 0) 1 else [0]

/-- What is exported of the node of stack slot i. -/
def exportSlot (b : Bds) (i : Nat) : Bytes := if i < b.stackOffset then nodeAt b.stack i else zeros 32

/-- The layout of R372. -/
def exportRows (c : BdsCtx) (sync : Bool) (b : Bds) : List RecordRow :=
  [ { count := 1, width := 4, record := fun _ => exportHead c sync b },
    { count := c.h + 1, width := 1, record := exportLevel b },
    { count := c.h + 1, width := 32, record := exportSlot b },
    { count := c.h, width := 32, record := nodeAt b.auth },
    { count := c.h / 2, width := 32, record := nodeAt b.keep },
    { count := c.h - c.k, width := 40, record := fun i => thRecord (instAt b i) },
    { count := 2 ^ c.k - c.k - 1, width := 32, record := nodeAt b.retain } ]

theorem bdsExport_eq_rows (c : BdsCtx) (sync : Bool) (b : Bds) :
    bdsExport c sync b = (exportRows c sync b).flatMap RecordRow.bytes := by
  simp only [exportRows, RecordRow.bytes, List.flatMap_cons, List.flatMap_nil, List.range_one, List.append_nil, bdsExport,
    exportHead, List.append_assoc]
  rfl

theorem exportLevel_eq (b : Bds) (i : Nat) :
    exportLevel b i = [if i < b.stackOffset then BitVec.ofNat 8 (b.stackLevels.getD i 0) else 0] := by
  unfold exportLevel
  split <;> rfl

/-- A BDS state of the right shape exports records of the widths of R372. -/
theorem exportRows_uniform {c : BdsCtx} {b : Bds} (sync : Bool) (ok : BdsOk c.h c.k b) :
    ∀ r ∈ exportRows c sync b, r.Uniform := by
  simp only [exportRows, List.forall_mem_cons]
  refine ⟨fun _ _ => rfl, fun i _ => ?level, fun i hi => ?slot, fun i hi => ok.auth.2.nodeAt (ok.auth.1 ▸ hi),
    fun i hi => ok.keep.2.nodeAt (ok.keep.1 ▸ hi), fun i hi => ?inst, fun i hi => ok.retain.2.nodeAt (ok.retain.1 ▸ hi), nofun⟩
  case level => simp [exportLevel_eq]
  case slot =>
    simp only [exportSlot]
    split
    · exact ok.stack.2.nodeAt (ok.stack.1 ▸ hi)
    · exact zeros_length 32
  case inst => simp [thRecord, (ok.instAt_ok hi).1]

/-- Where the rows of the layout start. -/
theorem rowStart_exportRows (c : BdsCtx) (sync : Bool) (b : Bds) (even : c.h % 2 = 0) (kHigh : c.k < c.h) :
    let start := rowStart (exportRows c sync b)
    start 1 = 4 ∧ start 2 = 5 + c.h ∧ start 3 = 37 + 33 * c.h ∧ start 4 = 37 + 65 * c.h ∧ start 5 = 37 + 81 * c.h ∧
      start 6 = 37 + 121 * c.h - 40 * c.k := by
  simp [rowStart, exportRows]
  omega

/-- Record i of row k of the exported layout, whose row k starts at off. -/
theorem BdsOk.slice_export {c : BdsCtx} {b : Bds} {sync : Bool} (ok : BdsOk c.h c.k b) {k i off : Nat} {r : RecordRow}
    (start : rowStart (exportRows c sync b) k = off) (row : (exportRows c sync b)[k]? = some r) (hi : i < r.count) :
    slice (bdsExport c sync b) (off + r.width * i) r.width = r.record i := by
  rw [bdsExport_eq_rows, ← start]
  exact slice_rows (exportRows_uniform sync ok) row hi

theorem BdsOk.thRecord_eq {h k : Nat} {b : Bds} (ok : BdsOk h k b) {i : Nat} (hi : i < h - k) :
    thRecord (instAt b i) =
      [BitVec.ofNat 8 i, if (instAt b i).completed then 1 else 0, BitVec.ofNat 8 (instAt b i).stackUsage, 0] ++
        toByte (instAt b i).nextIdx 4 ++ (instAt b i).node := by
  rw [thRecord, ok.instAt_h hi]
  rfl

/-! ### The command -/

/-- Where its checks pass, BDS_EXPORT stores the layout and its size. -/
theorem execBdsExport_of {s : State} (pass : passes s .bdsExport) :
    exec .bdsExport s =
      .next ((s.writeBuf (argN s 0) (bdsExport (keyBds s.key) s.bdsSync s.bds)).withRes0
        (exportSize s.key.h.toNat s.key.k.toNat)).succeed :=
  Gives.completes (.key (.fast (.range .value))) pass

/-- The commands of spec/45 run on a loaded key only. -/
theorem valid_of_passes_bdsExport {s : State} (pass : passes s .bdsExport) : s.key.valid = true := by
  simp only [passes, checks, firstError_cons] at pass
  exact pass.1

/-- Settles O48: the fields are the rows of `exportRows`, and each row's start is the sum of those before it. -/
theorem bdsExportResult : Obligations.BdsExportResult := by
  intro s inv pass h k
  obtain ⟨even, kHigh⟩ : h % 2 = 0 ∧ k < h :=
    have params := inv.key.loaded (valid_of_passes_bdsExport pass)
    ⟨params.even, params.kHigh⟩
  have ok : BdsOk (keyBds s.key).h (keyBds s.key).k s.bds := inv.bds
  obtain ⟨levels, stack, auth, keep, th, retain⟩ := rowStart_exportRows (keyBds s.key) s.bdsSync s.bds even kHigh
  refine ⟨_, execBdsExport_of pass, bdsExport_length _ ok even kHigh, ok.slice_export (k := 0) (i := 0) rfl rfl Nat.one_pos,
    fun i hi => ⟨?level, ok.slice_export stack rfl (Nat.lt_succ_of_le hi)⟩, fun i hi => ok.slice_export auth rfl hi,
    fun i hi => ok.slice_export keep rfl hi, fun i hi => (ok.slice_export th rfl hi).trans (ok.thRecord_eq hi),
    fun i hi => ok.slice_export retain rfl hi⟩
  case level =>
    have level := ok.slice_export levels rfl (Nat.lt_succ_of_le hi)
    simpa only [Nat.one_mul, exportLevel_eq] using level

end Sys2Proof.Machine
end

section
/-! PROOFS. The lock step of BDS.auth for (h, k) = (4, 2) (spec/45_bds.md R361): the state before every BdsStep, written down node by
node, and each step leading from one of them to the next. -/

namespace Sys2Proof.Machine

/-! ### The states of the lock step -/

/-- The parameters (h, k) = (4, 2) over any tree. -/
abbrev bdsFour (tree : TreeCtx) : BdsCtx := { tree := tree, h := 4, k := 2 }

/-- th[0] before BdsStep(m). The step of every odd index completes it, so it holds the odd leaf that the next odd index pulls;
leaf 3 is from BdsSetup. -/
def lockedLow (tree : TreeCtx) (m : Nat) : TreehashInst :=
  let leaf := min (2 * (m / 2) + 3) 15
  { h := 0, nextIdx := if m < 2 then 0 else leaf, stackUsage := 0, completed := true, node := treeNode tree 0 leaf }

/-- th[1] before BdsStep(m). BdsRound(3) and BdsRound(7) start it at leaves 10 and 14; its two updates come with the even indices
that follow, as th[0] goes first at odd ones, and between them it holds a slot of the shared stack. -/
def lockedHigh (tree : TreeCtx) (m : Nat) : TreehashInst :=
  let start := if m < 4 then 0 else if m < 8 then 10 else 14
  let fresh := m = 4 ∨ m = 8
  let held := m = 5 ∨ m = 6 ∨ m = 9 ∨ m = 10
  { h := 1
    nextIdx := if m < 4 then 0 else if fresh then start else start + 1
    stackUsage := if held then 1 else 0
    completed := ¬(fresh ∨ held)
    node := treeNode tree 1 (if m < 7 then 3 else if m < 11 then 5 else 7) }

/-- The path nodes that BdsRound has kept before BdsStep(m). -/
def lockedKeep (tree : TreeCtx) (m : Nat) : List Bytes :=
  [ if m = 0 then zeros 32
    else if m = 1 then treeNode tree 0 1
    else if m < 5 then treeNode tree 1 1
    else if m < 9 then treeNode tree 0 5
    else if m = 9 then treeNode tree 0 9
    else if m < 13 then treeNode tree 1 5
    else treeNode tree 0 13,
    if m < 4 then zeros 32 else treeNode tree 2 1 ]

/-- The BDS state before BdsStep(m). Only th[1] uses the shared stack, and a popped slot keeps its leaf. -/
def lockedBds (tree : TreeCtx) (m : Nat) : Bds :=
  { stack :=
      (if m < 5 then zeros 32 else if m < 9 then treeNode tree 0 10 else treeNode tree 0 14) :: List.replicate 4 (zeros 32)
    stackLevels := List.replicate 5 0
    stackOffset := (lockedHigh tree m).stackUsage
    auth := authPath tree 4 m
    keep := lockedKeep tree m
    th := [lockedLow tree m, lockedHigh tree m]
    retain := [treeNode tree 2 3] }

/-- The BDS state between the BdsRound and the update of BdsStep(m): the path is that of leaf m + 1, and the records that
were pulled start on their next node, if there is one. -/
def roundedBds (tree : TreeCtx) (m : Nat) : Bds :=
  { lockedBds tree m with
    auth := authPath tree 4 (m + 1)
    keep := lockedKeep tree (m + 1)
    th :=
      [ if m % 2 = 1 ∧ m + 4 < 16 then startedInst m 0 (lockedLow tree m) else lockedLow tree m,
        if m % 4 = 3 ∧ m + 7 < 16 then startedInst m 1 (lockedHigh tree m) else lockedHigh tree m ] }

/-! ### The steps -/

/-- BdsSetup leaves the first of these states. -/
theorem bdsSetup_eq_lockedBds (tree : TreeCtx) : (bdsSetup (bdsFour tree) (freshBds 4 2)).1 = lockedBds tree 0 := by
  rw [bdsSetup_state]
  simp [rightNodes, keepNode, setupSnapshot, setupStart, freshBds, instAt, retainSlot, lockedBds, lockedLow, lockedHigh, lockedKeep,
    authPath, List.range, List.range.loop, List.replicate]

theorem bdsRound_lockedBds (tree : TreeCtx) {m : Nat} (last : m < 15) :
    (bdsRound (bdsFour tree) (lockedBds tree m) m).1 = roundedBds tree m := by
  interval_cases m <;>
    simp [bdsRound, bdsTau, roundPull, roundReset, bdsLeaf, bdsHash, treeNode, nodeAt, instAt, startedInst, roundedBds, lockedBds,
      lockedLow, lockedHigh, lockedKeep, authPath, List.range, List.range.loop]

/-- Which record the update of BdsStep(m) advances: th[0] at odd indices and th[1] at even ones; none at indices 0 and 2,
before BdsRound(3) starts th[1], and none from 12 on, where neither has a node left to build. -/
theorem bestInst_roundedBds (tree : TreeCtx) {m : Nat} (last : m < 15) :
    bestInst (bdsFour tree) (roundedBds tree m) =
      if m = 0 ∨ m = 2 ∨ 12 ≤ m then none else some (if m % 2 = 1 then 0 else 1) := by
  interval_cases m <;>
    simp [bestInst, thRank, minHeight, instAt, startedInst, roundedBds, lockedBds, lockedLow, lockedHigh, List.range,
      List.range.loop, List.replicate]

/-- An update of th[0] builds its leaf. -/
theorem thUpdate_roundedBds_low (tree : TreeCtx) {m : Nat} (odd : m % 2 = 1) (last : m < 12) :
    thUpdate (bdsFour tree) (roundedBds tree m) 0 = .ok (lockedBds tree (m + 1)) := by
  interval_cases m <;>
    simp [thUpdate, thFold, instAt, startedInst, roundedBds, lockedBds, lockedLow, lockedHigh, bdsLeaf, treeNode] at odd ⊢

/-- The first update of th[1] pushes a leaf, the second folds it into the next one. -/
theorem thUpdate_roundedBds_high (tree : TreeCtx) {m : Nat} (even : m % 2 = 0) (first : 4 ≤ m) (last : m < 12) :
    thUpdate (bdsFour tree) (roundedBds tree m) 1 = .ok (lockedBds tree (m + 1)) := by
  interval_cases m <;>
    simp [thUpdate, thFold, instAt, roundedBds, lockedBds, lockedLow, lockedHigh, bdsLeaf, treeNode, bdsHash, nodeAt,
      List.replicate] at even ⊢

/-- Where neither record is advanced, the round alone leads to the next state. -/
theorem roundedBds_eq_lockedBds (tree : TreeCtx) {m : Nat} (idle : m = 0 ∨ m = 2 ∨ 12 ≤ m) (last : m < 15) :
    roundedBds tree m = lockedBds tree (m + 1) := by
  interval_cases m <;> simp [roundedBds, lockedBds, lockedLow, lockedHigh] at idle ⊢

/-- The one update of BdsStep(m), h - k being 2. -/
theorem bdsThUpdate_roundedBds (tree : TreeCtx) {m : Nat} (last : m < 15) :
    ∃ counts, bdsThUpdate (bdsFour tree) 1 0 (roundedBds tree m) = .ok (lockedBds tree (m + 1), counts) := by
  have best := bestInst_roundedBds tree last
  by_cases idle : m = 0 ∨ m = 2 ∨ 12 ≤ m
  · rw [if_pos idle] at best
    rw [bdsThUpdate_of_none 0 0 best, roundedBds_eq_lockedBds tree idle last]
    exact ⟨_, rfl⟩
  · rw [if_neg idle] at best
    by_cases odd : m % 2 = 1
    · rw [if_pos odd] at best
      exact ⟨_, bdsThUpdate_of_ok 0 0 best (thUpdate_roundedBds_low tree odd (by omega))⟩
    · rw [if_neg odd] at best
      exact ⟨_, bdsThUpdate_of_ok 0 0 best (thUpdate_roundedBds_high tree (by omega) (by omega) (by omega))⟩

theorem bdsStep_lockedBds (tree : TreeCtx) {m : Nat} (last : m < 15) :
    bdsStep (bdsFour tree) (lockedBds tree m) m = .ok (lockedBds tree (m + 1)) := by
  obtain ⟨counts, update⟩ := bdsThUpdate_roundedBds tree last
  have one : ((bdsFour tree).h - (bdsFour tree).k) / 2 = 1 := by norm_num
  refine bdsStep_eq_ok.2 ⟨(lockedBds tree (m + 1), counts), ?_, rfl⟩
  rw [one, bdsRound_lockedBds tree last, update]

theorem bdsSteps_lockedBds (tree : TreeCtx) {m : Nat} (last : m ≤ 15) :
    bdsSteps (bdsFour tree) m 0 (lockedBds tree 0) = .ok (lockedBds tree m) := by
  induction m with
  | zero => rfl
  | succ m ih =>
    refine bdsSteps_add (ih (by omega)) ?_
    rw [bdsSteps_one, Nat.zero_add]
    exact bdsStep_lockedBds tree (by omega)

/-- Settles O45: the states of the lock step are `lockedBds`, whose path is that of their leaf. -/
theorem lockStepPathAtHeightFour : Obligations.LockStepPathAtHeightFour := by
  refine fun tree m last => ⟨lockedBds tree m, ?_, rfl⟩
  rw [bdsSetup_eq_lockedBds]
  exact bdsSteps_lockedBds tree last

end Sys2Proof.Machine
end

section
/-! PROOFS. Descriptors (spec/46_xmss.md R401, R402): they decode to what they encode, and the checks on one are reported before
any other input byte is read (R411, R418). -/

namespace Sys2Proof.Machine

/-! ### The fields of a descriptor (R401, R402) -/

theorem highNibble_eq_zero_iff (b : Byte) : b >>> 4 = 0 ↔ b.toNat / 16 = 0 := by
  rw [← BitVec.toNat_inj, BitVec.toNat_ushiftRight, Nat.shiftRight_eq_div_pow]
  rfl

theorem lowNibble_toNat (b : Byte) : (b &&& 0x0F).toNat = b.toNat % 16 := by
  rw [BitVec.toNat_and]
  exact Nat.and_two_pow_sub_one_eq_mod _ 4

theorem hashCode_toNat (b : Byte) : (b.extractLsb 3 0).toNat = b.toNat % 16 := by
  rw [BitVec.extractLsb_toNat, Nat.shiftRight_zero]

theorem hashFnOf_eq_ok {c : BitVec 4} {hf : HashFn} : hashFnOf c = .ok hf ↔ c = hf.code := by
  constructor
  · rcases hashFnOf_cases c with ⟨low, -⟩ | ⟨-, missing⟩
    · have code : c = 0 ∨ c = 1 ∨ c = 2 := by bv_omega
      rcases code with rfl | rfl | rfl <;>
      · rintro ⟨⟩
        rfl
    · simp [missing]
  · rintro rfl
    exact hashFnOf_code hf

/-- The bytes of a descriptor of R401 with SIG_TYPE and ADDR_FMT 0. -/
theorem descBytes_eq (hf : HashFn) (h : Nat) :
    descBytes hf 0 h 0 = [BitVec.ofNat 8 hf.code.toNat, BitVec.ofNat 8 (h / 2), 0] := by
  have half : h >>> 1 = h / 2 := Nat.shiftRight_eq_div_pow h 1
  simp [descBytes, half]

theorem decodeDesc_descBytes (hf : HashFn) {h : Nat} (even : h % 2 = 0) (high : h ≤ 30) :
    decodeDesc (descBytes hf 0 h 0) = .ok { hf := hf, h := h } := by
  have small : h / 2 < 16 := by omega
  rw [descBytes_eq]
  refine decodeDesc_eq_ok.2 ⟨hashFnOf_eq_ok.2 ?hash, (highNibble_eq_zero_iff _).2 ?sigType,
    (highNibble_eq_zero_iff _).2 ?addrFmt, rfl, ?height⟩
  case hash => cases hf <;> rfl
  case sigType =>
    rw [List.getD_cons_zero]
    cases hf <;> rfl
  case addrFmt =>
    rw [List.getD_cons_succ, List.getD_cons_zero, BitVec.toNat_ofNat]
    omega
  case height =>
    rw [List.getD_cons_succ, List.getD_cons_zero, lowNibble_toNat, BitVec.toNat_ofNat]
    dsimp only
    omega

theorem descBytes_of_decodeDesc {d : Bytes} {r : Descriptor} (len : d.length = 3) (decoded : decodeDesc d = .ok r) :
    descBytes r.hf 0 r.h 0 = d := by
  obtain ⟨b0, b1, b2, rfl⟩ := List.length_eq_three.1 len
  obtain ⟨hash, sig, fmt, reserved, height⟩ := decodeDesc_eq_ok.1 decoded
  simp only [List.getD_cons_zero, List.getD_cons_succ, highNibble_eq_zero_iff, lowNibble_toNat] at hash sig fmt reserved height
  have code := congrArg BitVec.toNat (hashFnOf_eq_ok.1 hash)
  rw [hashCode_toNat] at code
  have first : BitVec.ofNat 8 r.hf.code.toNat = b0 := BitVec.eq_of_toNat_eq (by simp; omega)
  have second : BitVec.ofNat 8 (r.h / 2) = b1 := BitVec.eq_of_toNat_eq (by simp; omega)
  rw [descBytes_eq, first, second, reserved]

/-! ### The checks on a descriptor (R402) -/

section
variable {s : State} {α : Type} {l : List (Bool × CmdError)}

theorem Reports.read {i : Fin 8} {L : Nat} {X : Bytes} {f : Bytes → Result α} (input : readArg s i L = .ok X)
    (rest : Reports l (f X)) : Reports l (readArg s i L >>= f) := by
  rwa [input, result_bind_ok]

/-- DecodeDesc makes the checks of `descChecks` in their order and gives the height nibble twice. -/
theorem Reports.desc {d : Bytes} {f : Descriptor → Result α} (rest : ∀ hf, Reports l (f { hf := hf, h := descHeight d })) :
    Reports (descChecks d ++ l) (decodeDesc d >>= f) := by
  have height : 2 * (d.getD 1 0 &&& 0x0F).toNat = descHeight d := congrArg (2 * ·) (lowNibble_toNat _)
  simp only [decodeDesc, bind_assoc, pure_bind, height, descChecks, ← hashCode_toNat]
  have nibble : ∀ b : Byte, (b.toNat / 16 == 0) = true ↔ b >>> 4 = 0 := fun b =>
    beq_iff_eq.trans (highNibble_eq_zero_iff b).symm
  exact .hashFn fun hf => .check (.check (.check (rest hf) (beq_iff_eq.trans (BitVec.toNat_inj (y := 0)))) (nibble _)) (nibble _)

end

/-- Settles O52: the bytes and the decoding of a descriptor of R401; the bytes of any descriptor that decodes; and the checks in
their order. -/
theorem descriptorRoundTrip : Obligations.DescriptorRoundTrip := by
  refine ⟨fun hf h even high => ⟨descBytes_eq hf h, decodeDesc_descBytes hf even high⟩,
    fun d r len decoded => descBytes_of_decodeDesc len decoded, fun d e fails => ?_⟩
  have reports : Reports (descChecks d ++ []) (decodeDesc d >>= pure) := .desc fun _ => .nil
  rw [List.append_nil, bind_pure] at reports
  exact reports e fails

/-- Where the checks of a list hold, the first that fails of a longer list is one of those that follow. -/
theorem firstError_append_of_pass {l l' : List (Bool × CmdError)} {e : CmdError} (pass : firstError l = none)
    (fails : firstError l' = some e) : firstError (l ++ l') = some e := by
  rw [firstError_append_eq, pass, Option.none_or, fails]

/-- Settles O12: each body opens with its check list, reads the descriptor, and goes on with the descriptor's checks and those
that follow them. -/
theorem descriptorChecksAreReported : Obligations.DescriptorChecksAreReported := by
  refine fun s d e => ⟨fun pass head fails => ?_, fun pass head fails => ?_⟩
  · exact Reports.completes (.check (.check (.range (.read head (.desc fun _ => .check (.check .nil))))))
      (firstError_append_of_pass pass fails)
  · exact Reports.completes (.check (.range (.range (.range (.read head (.desc fun _ => .check (.check .nil beq_iff_eq)))))))
      (firstError_append_of_pass pass fails)

end Sys2Proof.Machine
end

section
/-! PROOFS. What a command does to the key's index (spec/46_xmss.md R416, R417, R423). -/

namespace Sys2Proof.Machine

/-! ### The key after a command that replaces none (R423) -/

/-- The key that a successful command other than the three that replace it leaves. -/
inductive IndexEffect (s : State) : Instr → KeyStore → Prop
  | kept {i : Instr} (notSign : i ≠ .sign) (notSetIndex : i ≠ .setIndex) : IndexEffect s i s.key
  | signed (valid : s.key.valid = true) (below : s.key.idx.toNat < 2 ^ s.key.h.toNat) :
      IndexEffect s .sign (keyAt s.key (s.key.idx.toNat + 1))
  | set (le : s.key.idx.toNat ≤ argN s 1) : IndexEffect s .setIndex (keyAt s.key (argN s 1))

theorem indexEffect_of_finish {i : Instr} {s t : State} {r : Result State} (h : finish s r = .next t)
    (body : Yields (fun shadow => IndexEffect s i shadow.key) r) :
    IndexEffect s i t.key ∨ ∃ e, t = s.failWith e := by
  rcases finish_eq_next.1 h with ⟨shadow, value, rfl⟩ | ⟨e, -, rfl⟩
  · exact .inl (body shadow value)
  · exact .inr ⟨e, rfl⟩

/-- Only SIGN and SET_INDEX move the index of a key, and only by what they say. -/
theorem exec_indexEffect {i : Instr} {s t : State} (keeps : i.replacesKey = false) (h : exec i s = .next t) :
    IndexEffect s i t.key ∨ ∃ e, t = s.failWith e := by
  cases i with
  | keyClear | keygen | keygenXseed => cases keeps
  | nop | keccakF | spongeInit =>
    cases h
    exact .inl (.kept nofun nofun)
  | sign =>
    refine indexEffect_of_finish h ?_
    simp only [yields_bind, yields_pure, check_eq_ok, needKey_eq_ok]
    intro _ valid _ _ _ below
    intros
    exact .signed valid below
  | setIndex =>
    refine indexEffect_of_finish h ?_
    simp only [yields_bind, check_eq_ok]
    intro _ _ _ _ _ _ _ le
    split <;>
    · simp only [yields_bind, yields_pure]
      intros
      exact .set le
  | _ =>
    refine indexEffect_of_finish h ?_
    simp only [yields_bind, yields_pure]
    intros
    exact .kept nofun nofun

/-! ### The index as a number -/

theorem ofNat_argN (s : State) (i : Fin 8) : BitVec.ofNat 32 (argN s i) = s.latch.arg.get i := by simp [argN]

theorem keyAt_argN (s : State) (i : Fin 8) : keyAt s.key (argN s i) = { s.key with idx := s.latch.arg.get i } := by
  rw [keyAt, ofNat_argN]

theorem keyAt_idx_succ {b : Build} {key : KeyStore} (ok : KeyParamsOk b key) (below : key.idx.toNat < 2 ^ key.h.toNat) :
    (keyAt key (key.idx.toNat + 1)).idx.toNat = key.idx.toNat + 1 := by
  have bound : 2 ^ key.h.toNat ≤ 2 ^ 30 := Nat.pow_le_pow_right (by decide) ok.high
  exact (BitVec.toNat_ofNat ..).trans (Nat.mod_eq_of_lt (by omega))

/-- Settles O18: an error leaves the key (`errorsCommitNothing`), and a success of a command that does not replace it is one of
the cases of `exec_indexEffect`, each giving the index. -/
theorem indexMonotone : Obligations.IndexMonotone := by
  intro i s t inv clear h
  have failed : t.err = true → t.key = s.key := fun failed => by
    obtain ⟨_, _, same⟩ := errorsCommitNothing.1 i s t clear h failed
    rw [same]
  by_cases keeps : i.replacesKey = false
  · rcases exec_indexEffect keeps h with effect | ⟨e, rfl⟩
    · generalize t.key = key at effect failed ⊢
      cases effect with
      | kept notSign notSetIndex =>
        exact ⟨fun _ => ⟨Nat.le_refl _, rfl⟩, fun e => absurd e notSign, fun e => absurd e notSetIndex, failed⟩
      | signed valid below =>
        have succ := keyAt_idx_succ (inv.key.loaded valid) below
        exact ⟨fun _ => ⟨by omega, rfl⟩, fun _ _ => succ, nofun, failed⟩
      | set le =>
        have moved : (keyAt s.key (argN s 1)).idx.toNat = argN s 1 := congrArg BitVec.toNat (ofNat_argN s 1)
        exact ⟨fun _ => ⟨by omega, rfl⟩, nofun, fun _ _ => moved, failed⟩
    · exact ⟨fun _ => ⟨Nat.le_refl _, rfl⟩, fun _ => nofun, fun _ => nofun, failed⟩
  · have other : i ≠ .sign ∧ i ≠ .setIndex := by
      constructor <;>
      · rintro rfl
        exact keeps rfl
    exact ⟨fun e => absurd e keeps, fun e => absurd e other.1, fun e => absurd e other.2, failed⟩

end Sys2Proof.Machine
end

section
/-! PROOFS. The key commands where their checks pass: the exports (spec/46_xmss.md R412 to R414), the extended seed's round trip
(R411), and the two sizes (R419, R421). -/

namespace Sys2Proof.Machine

/-! ### The layouts of a key (R401, R403, R404, R406) -/

/-- The descriptor of a key whose SIG_TYPE and ADDR_FMT are 0, as they always are (R54). -/
theorem keyDesc_eq {key : KeyStore} (sigType : key.sigType = 0) (addrFmt : key.addrFmt = 0) :
    keyDesc key = [BitVec.ofNat 8 key.hf.code.toNat, BitVec.ofNat 8 (key.h.toNat / 2), 0] := by
  rw [keyDesc, sigType, addrFmt, descBytes_eq]

theorem execGetPk_of {s : State} (pass : passes s .getPk) :
    exec .getPk s = .next ((s.writeBuf (argN s 0) (publicKey s.key)).withRes0 67).succeed :=
  Gives.completes (.key (.range .value)) pass

theorem execGetSk_of {s : State} (pass : passes s .getSk) :
    exec .getSk s = .next ((s.writeBuf (argN s 0) (secretKey s.key)).withRes0 132).succeed :=
  Gives.completes (.key (.range .value)) pass

theorem execGetXseed_of {s : State} (pass : passes s .getXseed) :
    exec .getXseed s = .next ((s.writeBuf (argN s 0) (extendedSeed s.key)).withRes0 51).succeed :=
  Gives.completes (.key (.range .value)) pass

/-- Settles O53: each command by its `exec…_of` lemma, its layout beginning with the key's descriptor. -/
theorem keyExportResults : Obligations.KeyExportResults := by
  intro s inv desc
  have descriptor : keyDesc s.key = desc := keyDesc_eq inv.key.sigType inv.key.addrFmt
  refine ⟨fun pass => ?_, execGetSk_of, fun pass => ?_⟩
  · rw [execGetPk_of pass, publicKey, descriptor]
    rfl
  · rw [execGetXseed_of pass, extendedSeed, descriptor]
    rfl

/-! ### The extended seed (R406, R411) -/

/-- A part of a byte string that MemRead gives is what MemRead gives of that part. -/
theorem Memory.readBytes_slice {m : Memory} {p L : Nat} {bs : Bytes} (read : m.readBytes p L = .ok bs) {off len : Nat}
    (inside : off + len ≤ L) : m.readBytes (p + off) len = .ok (slice bs off len) := by
  obtain ⟨length, bytes⟩ := (Memory.readBytes_ok_iff ..).1 read
  refine (Memory.readBytes_ok_iff ..).2 ⟨slice_length (length ▸ inside), fun i hi => ?_⟩
  rw [Nat.add_assoc, bytes _ (by omega), slice, List.getElem?_take_of_lt hi, List.getElem?_drop]

/-- A key generated from a descriptor of R401 and a seed has these two as its extended seed. -/
theorem extendedSeed_loadKey {s : State} {hf : HashFn} {h k : Nat} {strat : Strategy} {S : Bytes}
    (legal : ParamsLegal s.build h k strat) :
    extendedSeed (loadKey s hf h k strat S).key = descBytes hf 0 h 0 ++ S := by
  have height := loadKey_h (hf := hf) (S := S) legal
  rw [loadKey_key] at height ⊢
  rw [extendedSeed, keyDesc, height]
  rfl

/-- Whatever extended seed KEYGEN_XSEED was given is the extended seed of the key it makes. -/
theorem extendedSeed_of_execKeygenXseed {s t : State} {x : Bytes} (seed : readArg s 0 51 = .ok x)
    (h : exec .keygenXseed s = .next t) : extendedSeed t.key = x ∨ ∃ e, t = s.failWith e := by
  have head : readArg s 0 3 = .ok (slice x 0 3) := Memory.readBytes_slice seed (off := 0) (by decide)
  have tail : s.buf.readBytes (argN s 0 + 3) 48 = .ok (slice x 3 48) := Memory.readBytes_slice seed (by decide)
  have len := readArg_length seed
  rcases finish_eq_next.1 h with ⟨shadow, value, rfl⟩ | ⟨e, -, rfl⟩
  · refine .inl ?_
    simp only [head, tail, result_bind_ok, result_bind_eq_ok, check_eq_ok, keyKCap, keyRelation, keyHeightCap, result_pure,
      Except.ok.injEq] at value
    obtain ⟨_, _, _, kCap, _, _, d, decoded, _, relation, _, cap, rfl⟩ := value
    have legal := paramsLegal_of_checks (decodeDesc_height decoded) relation cap kCap (keycfgK_lt s)
    have rest : slice x 3 48 = x.drop 3 := List.take_of_length_le (by simp [len])
    rw [State.succeed_key, extendedSeed_loadKey legal, descBytes_of_decodeDesc (slice_length (by omega)) decoded, rest]
    exact List.take_append_drop 3 x
  · exact .inr ⟨e, rfl⟩

/-- Settles O51: the key's extended seed is x, and GET_XSEED stores it at ARG0. -/
theorem extendedSeedRoundTrip : Obligations.ExtendedSeedRoundTrip := by
  intro s t u v x clear seed keygen success same pass stored
  have key : extendedSeed u.key = x := by
    rw [same]
    refine (extendedSeed_of_execKeygenXseed seed keygen).resolve_right ?_
    rintro ⟨e, rfl⟩
    cases success
  rw [execGetXseed_of pass, key] at stored
  cases stored
  rw [← readArg_length seed]
  exact Memory.readBytes_write_same ..

/-! ### Sizes (R408, R419, R421) -/

/-- Settles O60: one check for SIG_SIZE; the three of HEIGHT_FROM_SIG_SIZE hold exactly for the sizes 2180 + 32 h, h ≤ 254. -/
theorem sizeResults : Obligations.SizeResults := by
  refine ⟨fun s low => ?_, fun s high => ?_, fun s h low size => ?_, fun s other => ?_⟩
  · exact Gives.completes (l := checks s .sigSize) (.check .value) (by simpa [checks] using low)
  · exact Reports.completes (l := checks s .sigSize) (.check .nil) (by simpa [checks, firstError] using high)
  · have height : (argN s 1 - 2180) / 32 = h := by omega
    have pass : passes s .heightFromSigSize := by
      simp only [passes, checks, firstError_cons, decide_eq_true_eq]
      exact ⟨by omega, by omega, by omega, rfl⟩
    rw [← height]
    exact Gives.completes (.check (.check (.check .value))) pass
  · have fails : 2180 ≤ argN s 1 → (argN s 1 - 4) % 32 = 0 → 254 < (argN s 1 - 2180) / 32 := fun long aligned =>
      Nat.lt_of_not_le fun low => other _ low (by omega)
    exact Reports.completes (l := checks s .heightFromSigSize) (.check (.check (.check .nil)))
      (by simpa [checks, firstError] using fails)

end Sys2Proof.Machine
end

section
/-! PROOFS. What SET_INDEX (spec/46_xmss.md R416) and SIGN (R417) commit where their checks pass, for each strategy. -/

namespace Sys2Proof.Machine

section
variable {s : State}

theorem needSync_of (holds : (syncCheck s).1 = true) : needSync s = .ok () :=
  needSync_eq_ok.2 (by simpa [syncCheck] using holds)

/-! ### SET_INDEX (R416) -/

theorem execSetIndex_of_basic (pass : passes s .setIndex) (basic : s.key.strategy = .basic) :
    exec .setIndex s = .next (State.withRes0 { s with key := keyAt s.key (argN s 1) } (argN s 1)).succeed := by
  have notFast : ¬s.key.strategy = .fast := by simp [basic]
  refine Gives.completes (.key (.check (.check (.check ?_)) (by simp))) pass
  rw [if_neg notFast]
  exact .value

/-- Where its checks pass, SET_INDEX of a Fast key ends as BdsSteps does. -/
theorem execSetIndex_of_fast (pass : passes s .setIndex) (fast : s.key.strategy = .fast) :
    exec .setIndex s =
      finish s (bdsSteps (keyBds s.key) (argN s 1 - s.key.idx.toNat) s.key.idx.toNat s.bds >>= fun b =>
        .ok (State.withRes0 { s with bds := b, key := keyAt s.key (argN s 1) } (argN s 1))) := by
  simp only [passes, checks, firstError_cons, decide_eq_true_eq] at pass
  obtain ⟨valid, sync, below, le, -⟩ := pass
  show execSetIndex s = _
  simp only [execSetIndex, needKey_eq_ok (u := ()).2 valid, needSync_of sync, check_of _ below, check_of _ le,
    if_pos fast, result_bind_ok, result_pure]

/-- Settles O54: the key moves to ARG1 as `keyAt_argN` says; a Fast key's commit ends as its steps do. -/
theorem setIndexResult : Obligations.SetIndexResult := by
  refine fun s pass => ⟨fun basic => ?_, fun b fast steps => ?_, fun e fast steps => ?_⟩
  · rw [execSetIndex_of_basic pass basic, keyAt_argN, State.withRes0, ofNat_argN]
  · rw [execSetIndex_of_fast pass fast, steps, result_bind_ok, finish_ok, keyAt_argN, State.withRes0, ofNat_argN]
  · rw [execSetIndex_of_fast pass fast, steps, result_bind_error, finish_raise]

/-! ### SIGN (R417) -/

/-- What SIGN commits with the path auth and the BDS state b. -/
def signedState (s : State) (M : Bytes) (auth : List Bytes) (b : Bds) : State :=
  { s with
    buf := s.buf.write (argN s 0) (signCore s.key s.key.idx.toNat M auth)
    bds := b
    key := { s.key with idx := s.key.idx + 1 }
    res0 := BitVec.ofNat 32 (2180 + 32 * s.key.h.toNat)
    res1 := s.key.idx }

theorem keyAt_succ (key : KeyStore) : keyAt key (key.idx.toNat + 1) = { key with idx := key.idx + 1 } := by
  have next : BitVec.ofNat 32 (key.idx.toNat + 1) = key.idx + 1 := BitVec.eq_of_toNat_eq (by simp)
  rw [keyAt, next]

/-- Where its checks pass, SIGN ends as the step of the BDS state does. -/
theorem execSign_of {M : Bytes} (pass : passes s .sign) (message : readArg s 2 (argN s 3) = .ok M) :
    exec .sign s =
      finish s (signStep s s.key.idx.toNat >>= fun b => .ok (signedState s M (signPath s s.key.idx.toNat) b)) := by
  simp only [passes, checks, firstError_cons, fits_holds, decide_eq_true_eq] at pass
  obtain ⟨valid, sync, below, out, input, -⟩ := pass
  have idx : BitVec.ofNat 32 s.key.idx.toNat = s.key.idx := by simp
  show execSign s = _
  simp only [execSign, needKey_eq_ok (u := ()).2 valid, needSync_of sync, check_of _ below, sigSize,
    rangeArg_of out, rangeArg_of input, message, keyAt_succ, State.withRes1, idx, result_bind_ok, result_pure]
  rfl

theorem signPath_of_fast (fast : s.key.strategy = .fast) (i : Nat) : signPath s i = s.bds.auth := by rw [signPath, fast]

theorem signPath_of_basic (basic : s.key.strategy = .basic) (i : Nat) :
    signPath s i = authPath (keyTree s.key) s.key.h.toNat i := by rw [signPath, basic]

end

/-- Settles O55: SIGN ends as `signStep` does, which is one BdsStep for a Fast key below its last index and no step otherwise. -/
theorem signResult : Obligations.SignResult := by
  refine fun s M pass message =>
    ⟨fun basic => ?_, fun b fast below step => ?_, fun fast last => ?_, fun e fast below step => ?_⟩
  all_goals rw [execSign_of pass message, signStep]
  · rw [if_neg (by simp [basic]), signPath_of_basic basic]
    rfl
  · rw [if_pos ⟨fast, below⟩, step, signPath_of_fast fast]
    rfl
  · rw [if_neg (by simp [last]), signPath_of_fast fast]
    rfl
  · rw [if_pos ⟨fast, below⟩, step]
    rfl

end Sys2Proof.Machine
end

section
/-! PROOFS. Signatures (spec/46_xmss.md R407 to R409, R420): their layout as a table of rows, the candidate root of VERIFY, and
that every signature along the right path leads to the key's root. -/

namespace Sys2Proof.Machine

/-! ### Parts of a byte string -/

theorem slice_append_middle {a b : Bytes} (c : Bytes) {off len : Nat} (before : a.length = off) (length : b.length = len) :
    slice (a ++ b ++ c) off len = b := by
  rw [slice, List.append_assoc, List.drop_left' before, List.take_left' length]

theorem flatten_eq_flatMap_nodeAt (l : List Bytes) : l.flatten = (List.range l.length).flatMap (nodeAt l) := by
  rw [List.flatMap_def]
  refine congrArg List.flatten (List.ext_getElem (by simp) fun i inside _ => ?_)
  simp [nodeAt, inside]

/-- Joining n-byte chunks and cutting again gives the chunks. -/
theorem chunks_flatten {n : Nat} {l : List Bytes} (sized : ∀ x ∈ l, x.length = n) : chunks n l.length l.flatten = l := by
  induction l with
  | nil => rfl
  | cons x l ih =>
    have first : x.length = n := sized x (.head _)
    rw [List.length_cons, chunks, List.flatten_cons, List.take_left' first, List.drop_left' first,
      ih fun y mem => sized y (.tail _ mem)]

/-! ### The layout of a signature (R407, R409) -/

/-- Every derived hash of a key is one digest, n being 32. -/
theorem coreHash_suite (hf : HashFn) (t : Nat) (K X : Bytes) :
    coreHash hf.suite t K X = digest hf.suite (toByte t 32 ++ K ++ X) := by
  rw [coreHash_eq_digest, suite_n]

/-- Chunk j of the WOTS+ part of a signature (R287). -/
def signChain (key : KeyStore) (i : Nat) (M : Bytes) (j : Nat) : Bytes :=
  let su := key.hf.suite
  let mh := hMsg su (prf su key.skPrf (toByte i 32) ++ key.root ++ toByte i 32) M
  let ots := treeAdrs keyBase 0 i 0 0
  genChain su (prf su (otsSeed su key.skSeed ots) (toByte j 32)) 0 ((wotsDigits mh 32).getD j 0) key.pubSeed (setW ots 5 j)

/-- The layout of R407. -/
def signRows (key : KeyStore) (i : Nat) (M : Bytes) (auth : List Bytes) : List RecordRow :=
  [ { count := 1, width := 4, record := fun _ => toByte i 4 },
    { count := 1, width := 32, record := fun _ => prf key.hf.suite key.skPrf (toByte i 32) },
    { count := 67, width := 32, record := signChain key i M },
    { count := auth.length, width := 32, record := nodeAt auth } ]

theorem signCore_eq_rows (key : KeyStore) (i : Nat) (M : Bytes) (auth : List Bytes) :
    signCore key i M auth = (signRows key i M auth).flatMap RecordRow.bytes := by
  have chains : wotsLen 32 = 67 := by decide
  have rows : (signRows key i M auth).flatMap RecordRow.bytes =
      toByte i 4 ++ prf key.hf.suite key.skPrf (toByte i 32) ++ (List.range 67).flatMap (signChain key i M) ++ auth.flatten := by
    simp [signRows, RecordRow.bytes, flatten_eq_flatMap_nodeAt auth]
  simp only [rows, signCore, wotsSign, expandSeed, runChains_map_range_flatten, suite_n, chains]
  rfl

theorem signRows_uniform (key : KeyStore) (i : Nat) (M : Bytes) {auth : List Bytes} (nodes : NodesOk auth) :
    ∀ r ∈ signRows key i M auth, r.Uniform := by
  simp only [signRows, List.forall_mem_cons]
  exact ⟨fun _ _ => toByte_length .., fun _ _ => (prf_length ..).trans (suite_n _),
    fun _ _ => (genChain_length _ _ _ _ (prf_length ..)).trans (suite_n _), fun _ inside => nodes.nodeAt inside, nofun⟩

/-- Where the rows of the layout start. -/
theorem rowStart_signRows (key : KeyStore) (i : Nat) (M : Bytes) (auth : List Bytes) :
    let start := rowStart (signRows key i M auth)
    start 0 = 0 ∧ start 1 = 4 ∧ start 2 = 36 ∧ start 3 = 2180 := by
  simp [rowStart, signRows]

/-- Record j of row k of a signature, whose row k starts at off. -/
theorem slice_signCore {key : KeyStore} {i : Nat} {M : Bytes} {auth : List Bytes} (nodes : NodesOk auth) {k j off : Nat}
    {r : RecordRow} (start : rowStart (signRows key i M auth) k = off) (row : (signRows key i M auth)[k]? = some r)
    (inside : j < r.count) : slice (signCore key i M auth) (off + r.width * j) r.width = r.record j := by
  rw [signCore_eq_rows, ← start]
  exact slice_rows (signRows_uniform key i M nodes) row inside

/-- Settles O56: the fields are the records of `signRows`, with the derived hashes written as digests. -/
theorem signatureLayout : Obligations.SignatureLayout := by
  intro key i M auth nodes sig su R mh ots seed
  obtain ⟨idxStart, RStart, chainStart, authStart⟩ := rowStart_signRows key i M auth
  have randomizer : prf su key.skPrf (toByte i 32) = R := coreHash_suite ..
  have message : hMsg su (R ++ key.root ++ toByte i 32) M = mh := coreHash_suite ..
  have otsKey : otsSeed su key.skSeed ots = seed := by
    rw [otsSeed_eq_digest, suite_n]
    rfl
  refine ⟨signCore_length nodes, slice_signCore nodes idxStart rfl (j := 0) Nat.one_pos,
    (slice_signCore nodes RStart rfl (j := 0) Nat.one_pos).trans randomizer, fun j inside => ?_,
    fun j inside => slice_signCore nodes authStart rfl inside⟩
  rw [← otsKey, ← message, ← randomizer]
  exact slice_signCore nodes chainStart rfl inside

/-! ### The candidate root (R420) -/

/-- The candidate root of a signature given field by field. -/
theorem candidateRoot_of_fields (hf : HashFn) {h i : Nat} (M root P : Bytes) {R ws auth : Bytes} (idx : i < 2 ^ 32)
    (RLen : R.length = 32) (wsLen : ws.length = 2144) (authLen : auth.length = 32 * h) :
    let su := hf.suite
    let mh := hMsg su (R ++ root ++ toByte i 32) M
    candidateRoot hf h M (toByte i 4 ++ R ++ ws ++ auth) root P =
      rootFromAuth su P keyBase i
        (lTree su (wotsPkFromSig su (chunks 32 67 ws) mh P (treeAdrs keyBase 0 i 0 0)) P (treeAdrs keyBase 1 i 0 0))
        (chunks 32 h auth) := by
  have idxField : slice (toByte i 4 ++ R ++ ws ++ auth) 0 4 = toByte i 4 := by
    rw [List.append_assoc, List.append_assoc, slice, List.drop_zero, List.take_left' (toByte_length ..)]
  have RField : slice (toByte i 4 ++ R ++ ws ++ auth) 4 32 = R := by
    rw [List.append_assoc _ ws]
    exact slice_append_middle _ (toByte_length ..) RLen
  have wsField : slice (toByte i 4 ++ R ++ ws ++ auth) 36 2144 = ws :=
    slice_append_middle _ (by rw [List.length_append, toByte_length, RLen]) wsLen
  have authField : slice (toByte i 4 ++ R ++ ws ++ auth) 2180 (32 * h) = auth := by
    rw [← List.append_nil (_ ++ auth)]
    exact slice_append_middle [] (by rw [List.length_append, List.length_append, toByte_length, RLen, wsLen]) authLen
  have number : fromBE (toByte i 4) = i := by rw [fromBE_toByte, Nat.mod_eq_of_lt idx]
  simp only [candidateRoot, idxField, RField, wsField, authField, number]

/-- Chains run over chunks that are given position by position (R286 to R288). -/
theorem runChains_map_range (su : Suite) (P : Bytes) (a : Adrs) (start steps : Nat → Nat) (m : Nat) (chunk : Nat → Bytes) :
    runChains su P a start steps ((List.range m).map chunk) =
      (List.range m).map fun i => genChain su (chunk i) (start i) (steps i) P (setW a 5 i) :=
  List.ext_getElem (by simp) fun i _ _ => by simp [runChains]

/-- Settles O58: the fields by `candidateRoot_of_fields`, the public key chunk by chunk, and its leaf by `lTree_run`. -/
theorem candidateRootSteps : Obligations.CandidateRootSteps := by
  intro hf h i M R ws auth root P idx RLen wsLen authLen su mh ots lt pk
  have message : hMsg su (R ++ root ++ toByte i 32) M = mh := coreHash_suite ..
  have recovered : wotsPkFromSig su (chunks 32 67 ws) mh P ots = pk := by
    rw [wotsPkFromSig, chunks_eq_map_range, runChains_map_range, suite_n]
    rfl
  refine ⟨lTree su pk P lt, lTree_run su P lt (List.ne_nil_of_length_pos (by simp [pk])), ?_⟩
  have fields := candidateRoot_of_fields hf M root P idx RLen wsLen authLen
  rw [fields, message, ← recovered, chunks_eq_map_range 32 h]
  rfl

/-! ### Signatures verify (R289, R327, R409, R420) -/

/-- Cutting a key's joined WOTS+ signature gives back its 67 chunks of 32 bytes. -/
theorem chunks_wotsSign (hf : HashFn) (M S P : Bytes) (a : Adrs) :
    chunks 32 67 (wotsSign hf.suite M S P a).flatten = wotsSign hf.suite M S P a := by
  have count : (wotsSign hf.suite M S P a).length = wotsLen hf.suite.n := by rw [wotsSign, runChains_length, expandSeed_length]
  have sized : ∀ x ∈ wotsSign hf.suite M S P a, x.length = hf.suite.n := runChains_chunk expandSeed_chunk
  have cut := chunks_flatten sized
  rwa [count, suite_n] at cut

theorem chunks_authPath {c : TreeCtx} (size : c.su.n = 32) (h i : Nat) :
    chunks 32 h (authPath c h i).flatten = authPath c h i := by
  have cut := chunks_flatten (authPath_nodesOk size h i)
  rwa [authPath_length] at cut

/-- The candidate root of a signature along the path of its leaf is the node above that leaf. -/
theorem candidateRoot_signCore (key : KeyStore) {h i : Nat} (M : Bytes) (idx : i < 2 ^ 32) :
    candidateRoot key.hf h M (signCore key i M (authPath (keyTree key) h i)) key.root key.pubSeed =
      treeNode (keyTree key) h (i >>> h) := by
  rw [signCore, candidateRoot_of_fields _ _ _ _ idx ?RLen ?wsLen ?authLen]
  case RLen => rw [prf_length, suite_n]
  case wsLen =>
    rw [wotsSign_flatten_length, suite_n]
    decide
  case authLen => rw [authPath_flatten_length, keyTree, suite_n, Nat.mul_comm]
  rw [chunks_wotsSign, chunks_authPath (suite_n key.hf), recoveredKeyIsPublicKey]
  exact rootFromAuth_authPath (keyTree key) h i

end Sys2Proof.Machine
end

section
/-! PROOFS. VERIFY (spec/46_xmss.md R418): what it commits where its checks pass, and that it accepts every signature along the
right path. -/

namespace Sys2Proof.Machine

/-! ### The command where its checks pass (R418) -/

/-- DecodeDesc reads three bytes. -/
theorem decodeDesc_slice (d : Bytes) : decodeDesc (slice d 0 3) = decodeDesc d := by
  have byte : ∀ j, j < 3 → (slice d 0 3).getD j 0 = d.getD j 0 := fun j inside => by
    rw [slice, List.drop_zero, List.getD_eq_getElem?_getD, List.getElem?_take_of_lt inside, ← List.getD_eq_getElem?_getD]
  simp only [decodeDesc, byte 0 (by decide), byte 1 (by decide), byte 2 (by decide)]

/-- Where its checks and the descriptor's pass, VERIFY ends as VerifyCore does. -/
theorem execVerify_of {s : State} {hf : HashFn} {PK Sig M : Bytes} (pass : passes s .verify) (key : readArg s 4 67 = .ok PK)
    (sig : readArg s 0 (argN s 1) = .ok Sig) (message : readArg s 2 (argN s 3) = .ok M)
    (checked : firstError (descChecks PK ++ descFollowUp s .verify (descHeight PK)) = none) (code : hf.code.toNat = descHash PK) :
    exec .verify s =
      finish s (verifyCore hf (descHeight PK) M Sig (slice PK 3 32) (slice PK 35 32) >>= fun i =>
        .ok { s with verifyOk := true, res0 := 1, res1 := BitVec.ofNat 32 i }) := by
  simp only [passes, checks, firstError_cons, fits_holds, beq_iff_eq] at pass
  obtain ⟨len, sigFits, messageFits, keyFits, -⟩ := pass
  obtain ⟨desc, followUp⟩ := firstError_append.1 checked
  simp only [descFollowUp, firstError_cons, decide_eq_true_eq, beq_iff_eq] at followUp
  obtain ⟨low, size, -⟩ := followUp
  have head : readArg s 4 3 = .ok (slice PK 0 3) := Memory.readBytes_slice key (off := 0) (by decide)
  have decoded : decodeDesc (slice PK 0 3) = .ok { hf := hf, h := descHeight PK } :=
    (decodeDesc_slice PK).trans (decodeDesc_of desc code)
  have size : argN s 1 = sigSize (descHeight PK) := size
  show execVerify s = _
  simp only [execVerify, check_of _ len, rangeArg_of sigFits, rangeArg_of messageFits, rangeArg_of keyFits, head, decoded,
    check_of _ low, check_of _ size, key, sig, message, result_bind_ok, result_pure]
  rfl

/-- Settles O57: VERIFY ends as VerifyCore does, in one of its three ways. -/
theorem verifyResult : Obligations.VerifyResult := by
  intro s hf PK Sig M pass key sig message checked code h i root cand
  have pub : slice PK 35 32 = PK.drop 35 := List.take_of_length_le (by simp [readArg_length key])
  rw [execVerify_of pass key sig message checked code, verifyCore, pub]
  show finish s ((if 2 ^ h ≤ i then raise (.verificationFailure .indexRange)
    else if cand = root then .ok i else raise (.verificationFailure .rootMismatch)) >>= _) = _
  by_cases range : 2 ^ h ≤ i
  · rw [if_pos range, if_pos range]
    rfl
  · rw [if_neg range, if_neg range]
    split <;> rfl

/-! ### Signatures verify (R409, R420) -/

/-- VerifyCore accepts every signature along the right path, and gives its index. -/
theorem verifyCore_signCore {key : KeyStore} {i : Nat} (M : Bytes) (high : key.h.toNat ≤ 30) (inside : i < 2 ^ key.h.toNat)
    (root : key.root = treeNode (keyTree key) key.h.toNat 0) :
    verifyCore key.hf key.h.toNat M (signCore key i M (authPath (keyTree key) key.h.toNat i)) key.root key.pubSeed = .ok i := by
  have idx : i < 2 ^ 32 := inside.trans_le (Nat.pow_le_pow_right (by decide) (high.trans (by decide)))
  have idxField : fromBE (slice (signCore key i M (authPath (keyTree key) key.h.toNat i)) 0 4) = i := by
    obtain ⟨start, -⟩ := rowStart_signRows key i M (authPath (keyTree key) key.h.toNat i)
    have field := slice_signCore (authPath_nodesOk (suite_n key.hf) _ _) start rfl (j := 0) Nat.one_pos
    exact (congrArg fromBE field).trans ((fromBE_toByte ..).trans (Nat.mod_eq_of_lt idx))
  have candidate := candidateRoot_signCore key (h := key.h.toNat) M idx
  rw [Nat.shiftRight_eq_zero i _ inside, ← root] at candidate
  simp only [verifyCore, idxField, candidate, if_neg (Nat.not_le.2 inside), if_pos]

/-- What VERIFY finds in a public key of R403: its descriptor passes the checks, and the root and the public seed follow it. -/
theorem publicKey_fields (hf : HashFn) {h : Nat} (even : h % 2 = 0) (high : h ≤ 30) {root pub : Bytes}
    (rootLen : root.length = 32) (pubLen : pub.length = 32) :
    let PK := [BitVec.ofNat 8 hf.code.toNat, BitVec.ofNat 8 (h / 2), 0] ++ root ++ pub
    firstError (descChecks PK) = none ∧ hf.code.toNat = descHash PK ∧ descHeight PK = h ∧ slice PK 3 32 = root ∧
      slice PK 35 32 = pub := by
  have code : hf.code.toNat ≤ 2 := by cases hf <;> decide
  refine ⟨?desc, ?hash, ?height, slice_append_middle pub rfl rootLen, ?pub⟩
  case desc =>
    simp [descChecks]
    omega
  case hash =>
    show hf.code.toNat = hf.code.toNat % 2 ^ 8 % 16
    omega
  case height =>
    show 2 * (h / 2 % 2 ^ 8 % 16) = h
    omega
  case pub =>
    rw [← List.append_nil (_ ++ pub)]
    exact slice_append_middle [] (by simp [rootLen]) pubLen

/-- Settles O59: VerifyCore by `verifyCore_signCore`; VERIFY ends as VerifyCore does on the fields of the public key. -/
theorem signaturesVerify : Obligations.SignaturesVerify := by
  intro key i M high inside root sig
  have accepted := verifyCore_signCore M high inside root
  refine ⟨accepted, fun s even low pass size pk sigRead message => ?_⟩
  have rootLen : key.root.length = 32 := by rw [root, treeNode_length, keyTree, suite_n]
  have pubLen : key.pubSeed.length = 32 := by
    have len := readArg_length pk
    simp only [List.length_append, rootLen, List.length_cons, List.length_nil] at len
    omega
  obtain ⟨desc, code, height, rootField, pubField⟩ := publicKey_fields key.hf even high rootLen pubLen
  generalize [BitVec.ofNat 8 key.hf.code.toNat, _, 0] ++ key.root ++ key.pubSeed = PK at pk desc code height rootField pubField
  have checked : firstError (descChecks PK ++ descFollowUp s .verify (descHeight PK)) = none :=
    firstError_append.2 ⟨desc, by simp [descFollowUp, height, low, size]⟩
  rw [execVerify_of pass pk sigRead message checked code, height, rootField, pubField, accepted, result_bind_ok, finish_ok]

end Sys2Proof.Machine
end

section
/-! PROOFS. When a command faults (spec/70_reset_and_hazards.md R520, spec/20_memory.md R105): its checks and its BDS and
verification procedures never do, so only its reads of BUF can. -/

namespace Sys2Proof.Machine

/-! ### What never faults -/

/-- The sequence ends with a value or with a typed error, but not with the fault U1. -/
def NeverFaults {α : Type} (x : Result α) : Prop := ∀ f, x ≠ .error (.fault f)

section
variable {α β : Type}

theorem NeverFaults.value {a : α} : NeverFaults (pure a : Result α) := nofun

theorem NeverFaults.raise {e : CmdError} : NeverFaults (raise e : Result α) := nofun

theorem NeverFaults.bind {x : Result α} {f : α → Result β} (first : NeverFaults x) (rest : ∀ a, NeverFaults (f a)) :
    NeverFaults (x >>= f) := by
  intro fault ends
  rcases result_bind_eq_error.1 ends with ends | ⟨a, -, ends⟩
  · exact first fault ends
  · exact rest a fault ends

theorem NeverFaults.ite {c : Prop} [Decidable c] {x y : Result α} (yes : NeverFaults x) (no : NeverFaults y) :
    NeverFaults (if c then x else y) := by
  split
  · exact yes
  · exact no

theorem NeverFaults.check {c : Prop} [Decidable c] {e : CmdError} : NeverFaults (check c e) := .ite .value .raise

end

section
variable {c : BdsCtx} {count used m i t h : Nat} {b : Bds}

theorem hashFnOf_neverFaults {code : BitVec 4} : NeverFaults (hashFnOf code) := by
  rcases hashFnOf_cases code with ⟨-, hf, found⟩ | ⟨-, missing⟩
  · exact found ▸ .value
  · exact missing ▸ .raise

theorem decodeDesc_neverFaults {d : Bytes} : NeverFaults (decodeDesc d) :=
  .bind hashFnOf_neverFaults fun _ => .bind .check fun _ => .bind .check fun _ => .bind .check fun _ => .value

theorem verifyCore_neverFaults {hf : HashFn} {M Sig root P : Bytes} : NeverFaults (verifyCore hf h M Sig root P) :=
  .ite .raise (.ite .value .raise)

theorem thUpdate_neverFaults : NeverFaults (thUpdate c b t) := .ite .raise (.ite .value (.ite .raise .value))

theorem bdsThUpdate_neverFaults : NeverFaults (bdsThUpdate c count used b) := by
  induction count generalizing used b with
  | zero => exact .value
  | succ count ih =>
    unfold bdsThUpdate
    split
    · exact .value
    · split
      · next update =>
        rintro fault ⟨⟩
        exact thUpdate_neverFaults fault update
      · exact ih

theorem bdsStep_neverFaults : NeverFaults (bdsStep c b i) := by
  unfold bdsStep
  split
  · exact .value
  · next updates =>
    rintro fault ⟨⟩
    exact bdsThUpdate_neverFaults fault updates

theorem bdsSteps_neverFaults : NeverFaults (bdsSteps c m i b) := by
  induction m generalizing i b with
  | zero => exact .value
  | succ m ih =>
    unfold bdsSteps
    split
    · exact ih
    · next step =>
      rintro fault ⟨⟩
      exact bdsStep_neverFaults fault step

theorem signStep_neverFaults {s : State} : NeverFaults (signStep s i) := .ite bdsStep_neverFaults .value

end

/-! ### Bodies that check and then read (R104, R105, R453) -/

/-- The byte at offset a lies in one of the ranges and has never been written since reset (R105). -/
def Unwritten (s : State) (ranges : List (Nat × Nat)) (a : Nat) : Prop :=
  (∃ r ∈ ranges, r.1 ≤ a ∧ a < r.1 + r.2) ∧ s.buf.read a = none

theorem Unwritten.mono {s : State} {ranges wider : List (Nat × Nat)} {a : Nat} (h : Unwritten s ranges a)
    (sub : ∀ r ∈ ranges, ∃ w ∈ wider, w.1 ≤ r.1 ∧ r.1 + r.2 ≤ w.1 + w.2) : Unwritten s wider a := by
  obtain ⟨⟨r, mem, low, high⟩, unread⟩ := h
  obtain ⟨w, mem, start, stop⟩ := sub r mem
  exact ⟨⟨w, mem, by omega, by omega⟩, unread⟩

/-- The sequence faults only where every check of the list holds, and only on a never-written byte of the ranges; and, if
`must`, it does fault where the checks hold and there is such a byte. -/
structure FaultsOn {α : Type} (s : State) (must : Prop) (l : List (Bool × CmdError)) (ranges : List (Nat × Nat))
    (x : Result α) : Prop where
  only : ∀ f, x = .error (.fault f) → firstError l = none ∧ ∃ a, f = .unwrittenRead a ∧ Unwritten s ranges a
  all  : must → firstError l = none → (∃ a, Unwritten s ranges a) → ∃ f, x = .error (.fault f)

section
variable {s : State} {must : Prop} {α β : Type} {l l' : List (Bool × CmdError)} {ranges : List (Nat × Nat)}

theorem FaultsOn.done {x : Result α} (never : NeverFaults x) : FaultsOn s must [] [] x :=
  ⟨fun f ends => absurd ends (never f), fun _ _ ⟨_, ⟨_, mem, _⟩, _⟩ => absurd mem List.not_mem_nil⟩

theorem FaultsOn.value {a : α} : FaultsOn s must [] [] (pure a : Result α) := .done .value

/-- A first part that gives a value exactly if the first checks of the list hold, and otherwise raises an error. -/
theorem FaultsOn.guard {x : Result β} {f : β → Result α}
    (outcome : (∃ b, x = .ok b ∧ firstError l = none) ∨ ∃ e, x = .error (.raise e) ∧ firstError l = some e)
    (rest : ∀ b, x = .ok b → FaultsOn s must l' ranges (f b)) : FaultsOn s must (l ++ l') ranges (x >>= f) := by
  rcases outcome with ⟨b, value, pass⟩ | ⟨e, error, fails⟩
  · have same : firstError (l ++ l') = firstError l' := by rw [firstError_append_eq, pass, Option.none_or]
    obtain ⟨only, all⟩ := rest b value
    rw [← same] at only all
    rw [value, result_bind_ok]
    exact ⟨only, all⟩
  · rw [error, result_bind_error]
    refine ⟨nofun, fun _ pass => ?_⟩
    rw [firstError_append_eq, fails] at pass
    cases pass

theorem FaultsOn.check {b : Bool} {c : Prop} [Decidable c] {e : CmdError} {f : Unit → Result α}
    (rest : FaultsOn s must l ranges (f ())) (same : b = true ↔ c := by simp) :
    FaultsOn s must ((b, e) :: l) ranges (Machine.check c e >>= f) := by
  refine .guard (l := [(b, e)]) ?_ fun _ _ => rest
  by_cases holds : c
  · exact .inl ⟨(), check_of e holds, by rw [firstError, if_pos (same.2 holds)]; rfl⟩
  · exact .inr ⟨e, check_of_not e holds, by rw [firstError, if_neg (mt same.1 holds)]⟩

/-- Two checks with one error, against one entry of the list (log entry 15). -/
theorem FaultsOn.checkBoth {c d : Prop} [Decidable c] [Decidable d] {e : CmdError} {f : Unit → Result α}
    (rest : FaultsOn s must l ranges (f ())) :
    FaultsOn s must ((decide (c ∧ d), e) :: l) ranges (Machine.check c e >>= fun _ => Machine.check d e >>= f) := by
  by_cases first : c
  · rw [check_of e first]
    exact .check rest (by simp [first])
  · exact .guard (l := [(_, e)]) (.inr ⟨e, check_of_not e first, by simp [firstError, first]⟩)
      fun _ value => absurd (check_eq_ok.1 value) first

theorem FaultsOn.range {i : Fin 8} {L : Nat} {f : Unit → Result α} (rest : FaultsOn s must l ranges (f ())) :
    FaultsOn s must (fits s i L :: l) ranges (rangeArg s i L >>= f) := .check rest decide_eq_true_iff

theorem FaultsOn.key {f : Unit → Result α} (rest : FaultsOn s must l ranges (f ())) :
    FaultsOn s must (keyCheck s :: l) ranges (needKey s >>= f) := .check rest Iff.rfl

theorem FaultsOn.fast {f : Unit → Result α} (rest : FaultsOn s must l ranges (f ())) :
    FaultsOn s must (fastCheck s :: l) ranges (needFast s >>= f) := .check rest beq_iff_eq

theorem FaultsOn.sync {f : Unit → Result α} (rest : FaultsOn s must l ranges (f ())) :
    FaultsOn s must (syncCheck s :: l) ranges (needSync s >>= f) := .check rest

theorem FaultsOn.hashFn {c : BitVec 4} {f : HashFn → Result α} (rest : ∀ hf, FaultsOn s must l ranges (f hf)) :
    FaultsOn s must ((decide (c.toNat ≤ 2), .failedConversion .hashFunction) :: l) ranges (hashFnOf c >>= f) := by
  refine .guard (l := [(_, _)]) ?_ fun hf _ => rest hf
  rcases hashFnOf_cases c with ⟨low, hf, found⟩ | ⟨high, missing⟩
  · exact .inl ⟨hf, found, by simp [low]⟩
  · exact .inr ⟨_, missing, by simp [firstError, high]⟩

theorem FaultsOn.cfg {f : Suite → Result α} (rest : ∀ su, cfgBytes s = su.n → FaultsOn s must l ranges (f su)) :
    FaultsOn s must (cfgChecks s ++ l) ranges (cfgSuite s >>= f) :=
  .guard (cfgSuite_cases s) fun su suite => rest su (cfgBytes_eq suite)

/-- MemRead of the first range, with no check left: it is the fault if a byte of that range was never written, and otherwise
the rest of the sequence follows. -/
theorem FaultsOn.read {p L : Nat} {f : Bytes → Result α} (rest : ∀ X, FaultsOn s must [] ranges (f X)) :
    FaultsOn s must [] ((p, L) :: ranges) (s.buf.readBytes p L >>= f) := by
  cases result : s.buf.readBytes p L with
  | error e =>
    obtain ⟨a, low, high, unread, rfl⟩ := Memory.readBytes_error result
    refine ⟨?_, fun _ _ _ => ⟨_, rfl⟩⟩
    rintro _ ⟨⟩
    exact ⟨rfl, a, rfl, ⟨_, List.mem_cons_self .., low, high⟩, unread⟩
  | ok X =>
    refine ⟨fun fault ends => ?_, fun holds pass ⟨a, ⟨r, mem, low, high⟩, unread⟩ => ?_⟩
    · obtain ⟨pass, a, named, unwritten⟩ := (rest X).only fault ends
      exact ⟨pass, a, named, unwritten.mono fun r mem => ⟨r, List.mem_cons_of_mem _ mem, Nat.le_refl _, Nat.le_refl _⟩⟩
    · rcases List.mem_cons.1 mem with rfl | mem
      · obtain ⟨i, rfl⟩ := Nat.exists_eq_add_of_le low
        obtain ⟨_, fault, -⟩ := Memory.readBytes_unwritten (Nat.lt_of_add_lt_add_left high) unread
        cases result.symm.trans fault
      · exact (rest X).all holds pass ⟨a, ⟨r, mem, low, high⟩, unread⟩

/-- A first part outside the check list, where it is left open whether the sequence faults. -/
theorem FaultsOn.skip {x : Result β} {f : β → Result α} (inexact : ¬must) (never : NeverFaults x)
    (rest : ∀ b, FaultsOn s must l ranges (f b)) : FaultsOn s must l ranges (x >>= f) := by
  refine ⟨fun fault ends => ?_, fun exact => absurd exact inexact⟩
  rcases result_bind_eq_error.1 ends with ends | ⟨b, -, ends⟩
  · exact absurd ends (never fault)
  · exact (rest b).only fault ends

/-- Reads that lie inside wider ranges, where it is left open whether the sequence faults. -/
theorem FaultsOn.widen {wider : List (Nat × Nat)} {x : Result α} (inexact : ¬must) (body : FaultsOn s must l ranges x)
    (sub : ∀ r ∈ ranges, ∃ w ∈ wider, w.1 ≤ r.1 ∧ r.1 + r.2 ≤ w.1 + w.2) : FaultsOn s must l wider x := by
  refine ⟨fun fault ends => ?_, fun exact => absurd exact inexact⟩
  obtain ⟨pass, a, named, unwritten⟩ := body.only fault ends
  exact ⟨pass, a, named, unwritten.mono sub⟩

end

/-! ### The faults of every command (R520) -/

/-- Every command is the commit step (R173) of a body that makes the checks of its list, then reads its inputs, and goes on with
what never faults. KEYGEN_XSEED and VERIFY read and check the descriptor in between (log entry 7), so only the first half of
`FaultsOn` holds of them. -/
theorem exec_faultsOn (i : Instr) (s : State) :
    ∃ r, exec i s = finish s r ∧ FaultsOn s (i ≠ .keygenXseed ∧ i ≠ .verify) (checks s i) (inputs s i) r := by
  cases i with
  | nop | keyClear | keccakF | spongeInit => exact ⟨_, rfl, .value⟩
  | spongeAbsorb => exact ⟨_, rfl, .check (.range (.read fun _ => .value))⟩
  | spongeSqueeze => exact ⟨_, rfl, .check (.range .value)⟩
  | shake128 | shake256 | sha256 | wotsDigits => exact ⟨_, rfl, .range (.range (.read fun _ => .value))⟩
  | coreHash | prf | hashF | hashH | wotsGenChain | wotsPkgen | genLeaf | lTree =>
    exact ⟨_, rfl, .cfg fun su n => n ▸ .range (.range (.range (.read fun _ => .read fun _ => .value)))⟩
  | hMsg => exact ⟨_, rfl, .cfg fun su n => n ▸ .check (.range (.range (.range (.read fun _ => .read fun _ => .value))))⟩
  | wotsExpandSeed | otsSeed => exact ⟨_, rfl, .cfg fun su n => n ▸ .range (.range (.read fun _ => .value))⟩
  | wotsSign | wotsPkFromSig =>
    exact ⟨_, rfl, .cfg fun su n => n ▸
      .range (.range (.range (.range (.read fun _ => .read fun _ => .read fun _ => .value))))⟩
  | wotsBaseW => exact ⟨_, rfl, .check (.range (.range (.read fun _ => .value)))⟩
  | treehash =>
    exact ⟨_, rfl, .cfg fun su n => n ▸
      .checkBoth (.check (.check (.range (.range (.range (.read fun _ => .read fun _ => .value))))))⟩
  | authpath =>
    exact ⟨_, rfl, .cfg fun su n => n ▸
      .check (.check (.check (.range (.range (.range (.read fun _ => .read fun _ => .value))))))⟩
  | rootFromAuth =>
    exact ⟨_, rfl, .cfg fun su n => n ▸
      .check (.check (.range (.range (.range (.range (.read fun _ => .read fun _ => .read fun _ => .value))))))⟩
  | bdsSetup | bdsRound => exact ⟨_, rfl, .key (.fast (.check .value))⟩
  | treehashUpdate =>
    exact ⟨_, rfl, .key (.fast (.check (.check (.done (.bind thUpdate_neverFaults fun _ => .value)))))⟩
  | bdsTreehashUpdate => exact ⟨_, rfl, .key (.fast (.done (.bind bdsThUpdate_neverFaults fun _ => .value)))⟩
  | bdsExport => exact ⟨_, rfl, .key (.fast (.range .value))⟩
  | keygen =>
    refine ⟨_, rfl, ?_⟩
    simp only [keyEnums, bind_assoc, pure_bind]
    exact .hashFn fun _ => .check (.check (.check (.check (.check (.check (.check (.range (.read fun _ => .value))))))))
  | keygenXseed =>
    have inexact : ¬(Instr.keygenXseed ≠ .keygenXseed ∧ Instr.keygenXseed ≠ .verify) := fun exact => exact.1 rfl
    refine ⟨_, rfl, .check (.check (.range (.widen (ranges := [(argN s 0, 3), (argN s 0 + 3, 48)]) inexact
      (.read fun _ => .skip inexact decodeDesc_neverFaults fun _ => .skip inexact .check fun _ => .skip inexact .check fun _ =>
        .read fun _ => .value) ?_)))⟩
    simp [inputs]
  | getPk | getSk | getXseed => exact ⟨_, rfl, .key (.range .value)⟩
  | setIndex =>
    exact ⟨_, rfl, .key (.sync (.check (.check (.done
      (.ite (.bind bdsSteps_neverFaults fun _ => .value) (.bind .value fun _ => .value))))))⟩
  | sign =>
    exact ⟨_, rfl, .key (.sync (.check (.range (.range (.read fun _ =>
      .done (.bind signStep_neverFaults fun _ => .value))))))⟩
  | verify =>
    have inexact : ¬(Instr.verify ≠ .keygenXseed ∧ Instr.verify ≠ .verify) := fun exact => exact.2 rfl
    refine ⟨_, rfl, .check (.range (.range (.range (.widen (ranges := (argN s 4, 3) :: inputs s .verify) inexact
      (.read fun _ => .skip inexact decodeDesc_neverFaults fun _ => .skip inexact .check fun _ => .skip inexact .check fun _ =>
        .read fun _ => .read fun _ => .read fun _ => .done (.bind verifyCore_neverFaults fun _ => .value)) ?_))))⟩
    simp [inputs]
  | sigSize => exact ⟨_, rfl, .check .value⟩
  | heightFromSigSize => exact ⟨_, rfl, .check (.check (.check .value))⟩

/-- Settles O10: a command is the commit step of a body that faults as `exec_faultsOn` says, and a commit step faults exactly where
its body does. -/
theorem commandsFaultOnlyOnUnwrittenInputs : Obligations.CommandsFaultOnlyOnUnwrittenInputs := by
  intro i s
  obtain ⟨r, body, only, all⟩ := exec_faultsOn i s
  rw [body]
  refine ⟨finish_ne_refused s r, fun f fault => only f (finish_eq_fault.1 fault), fun pass xseed verify unwritten => ?_⟩
  obtain ⟨f, fault⟩ := all ⟨xseed, verify⟩ pass unwritten
  obtain ⟨-, a, rfl, input⟩ := only f fault
  exact ⟨a, finish_eq_fault.2 fault, input⟩

end Sys2Proof.Machine
end

section
/-! PROOFS. One step takes the next move (spec/70_reset_and_hazards.md R504, R512; spec/40_control.md R172, R173). -/

namespace Sys2Proof.Machine

theorem step_cons (s : State) (m : Move) (rest : List Move) :
    step { s with sched := m :: rest } = takeMove { s with sched := rest } m := rfl

theorem step_nil (s : State) : step { s with sched := [] } = sequencerTurn { s with sched := [] } := rfl

theorem sequencerTurn_of_idle {s : State} (idle : s.pending = none) : sequencerTurn s = .next s := by
  simp only [sequencerTurn, idle]

theorem decodeTableWord_eq_some {nbits w : Nat} {i : Instr} :
    decodeTableWord nbits w = some i ↔ decode (BitVec.ofNat 32 (w % 2 ^ nbits)) = .ok i := by
  unfold decodeTableWord
  split <;> simp_all

/-- The step from the state `withFetchWord` makes is the sequencer's turn right after the issue of the word. -/
theorem step_withFetchWord (s : State) (nbits w : Nat) :
    step (s.withFetchWord nbits w) = sequencerTurn (s.issue (BitVec.ofNat 32 (w % 2 ^ nbits))) := rfl

/-- Settles O4: each clause is the move at the head of the list, or the sequencer's turn; the turn is exec of the decoded command
while one is pending (`sequencerTurn_of_ok`), and nothing while none is. -/
theorem stepRunsDecodedCommand : Obligations.StepRunsDecodedCommand := by
  refine ⟨fun s rest => ⟨fun a => step_cons s (.host a) rest, step_cons s .reset rest, fun idle => ?_, fun idle => ?_,
    fun p i busy legal => ⟨?_, ?_⟩⟩, fun s nbits w i legal => ?_⟩
  · exact (step_cons s .sequencer rest).trans (sequencerTurn_of_idle idle)
  · exact (step_nil s).trans (sequencerTurn_of_idle idle)
  · exact (step_cons s .sequencer rest).trans (sequencerTurn_of_ok busy legal)
  · exact (step_nil s).trans (sequencerTurn_of_ok busy legal)
  · exact (step_withFetchWord s nbits w).trans (sequencerTurn_of_ok rfl (decodeTableWord_eq_some.1 legal))

end Sys2Proof.Machine
end

section
/-! PROOFS. The state after a reset (spec/70_reset_and_hazards.md R500, R502) and the three invariants in it. -/

namespace Sys2Proof.Machine

/-! ### Registers and stores after a reset (R500) -/

/-- A reset leaves in every register but CAPS, which holds the build parameters, what the reset state of the default build has
there. -/
theorem csrRead_resetMove (s : State) {r : Csr} (notCaps : r ≠ .caps) : csrRead (resetMove s) r = csrRead State.reset r := by
  cases r with
  | caps => exact absurd rfl notCaps
  | _ => rfl

theorem csrRead_reset_status : csrRead State.reset .status = 0 := by decide

theorem csrRead_reset_sponge : csrRead State.reset .sponge = 0 := by decide

theorem csrRead_reset_arg (i : Fin 8) : csrRead State.reset (.arg i) = 0 := by simp [csrRead, State.reset, Vector.get]

theorem csrRead_reset_adrs (j : Fin 8) : csrRead State.reset (.adrs j) = 0 := by simp [csrRead, State.reset, Vector.get]

theorem reset_ks_get (i : Fin 25) : State.reset.ks.get i = 0 := by simp [State.reset, Vector.get]

theorem csrRead_reset_ks (i : Fin 25) :
    csrRead State.reset (.ksLo i) = 0 ∧ csrRead State.reset (.ksHi i) = 0 := by
  simp only [csrRead, reset_ks_get]
  decide

/-- Settles O5, in the order of R500's table; the registers by `csrRead_resetMove` where their value takes a computation. -/
theorem resetState : Obligations.ResetState := by
  refine ⟨fun s => rfl, by decide, fun s => ⟨_, rfl, ?_⟩⟩
  have status := (csrRead_resetMove s (by decide)).trans csrRead_reset_status
  have sponge := (csrRead_resetMove s (by decide)).trans csrRead_reset_sponge
  have arg : ∀ i, csrRead (resetMove s) (.arg i) = 0 := csrRead_reset_arg
  have adrs : ∀ j, csrRead (resetMove s) (.adrs j) = 0 := csrRead_reset_adrs
  have ks : ∀ i, csrRead (resetMove s) (.ksLo i) = 0 ∧ csrRead (resetMove s) (.ksHi i) = 0 := csrRead_reset_ks
  have irq : (resetMove s).irq = false := (by decide : State.reset.irq = false)
  have stack : ∀ x ∈ (resetMove s).bds.stack, x = zeros 32 := List.forall_mem_singleton.2 rfl
  have levels : ∀ l ∈ (resetMove s).bds.stackLevels, l = 0 := List.forall_mem_singleton.2 rfl
  have noNodes : ∀ x ∈ ([] : List Bytes), x = zeros 32 := List.forall_mem_nil _
  exact ⟨rfl, rfl, rfl, rfl, status, rfl, rfl, rfl, irq, sponge, rfl, rfl, arg, rfl, rfl, adrs, rfl, rfl, rfl, rfl, ks,
    rfl, rfl, rfl, fun _ => rfl,
    rfl, rfl, rfl, rfl, rfl, rfl, rfl, rfl, rfl, rfl, rfl, rfl, rfl,
    stack, levels, rfl, noNodes, noNodes, noNodes, nofun, rfl, rfl⟩

/-! ### The invariants (R500) -/

/-- The first of the three invariants, under the default build. -/
theorem reset_inv : State.reset.Inv where
  build := by decide
  reserved := ⟨rfl, rfl, rfl, rfl, rfl⟩
  sponge := ⟨Nat.zero_le _, nofun, fun _ => ⟨rfl, rfl⟩⟩
  bufForm := Memory.reset_wf
  bufRange := Memory.reset_below _
  key := ⟨rfl, rfl, rfl, rfl, rfl, rfl, rfl, nofun, fun _ => rfl⟩
  bds := freshBds_ok 0 0
  sync := nofun
  report := ⟨nofun, nofun, fun _ => rfl⟩

/-- Settles O6: `reset_inv`; with no key loaded and BDS_SYNC = 0 the other two ask for nothing. -/
theorem invariantsAtReset : Obligations.InvariantsAtReset := ⟨reset_inv, nofun, nofun⟩

end Sys2Proof.Machine
end
